-- ==== Sys2Proof/Word.lean ====
section
/-! DEFINITION. The integer types of the engine and the constants that name their bounds
(00_scope.md R7, 40_word_arithmetic.md R70, R82, R86).

A `BitVec w` is the `w`-bit pattern. `toNat` reads it unsigned, `toInt` reads it as two's
complement: the spec's `signed_W`. Bit 0 is the least significant bit. -/

namespace Sys2Proof

/-- The unsigned 256-bit word of prices, amounts and bitmap words (R70). Its signed view I256 (R80) is
the same pattern read with `toInt`. -/
abbrev U256 := BitVec 256

/-- An unsigned 128-bit liquidity (R86). -/
abbrev U128 := BitVec 128

/-- A signed 128-bit change of liquidity (R86), held as its pattern. -/
abbrev I128 := BitVec 128

/-- A signed 32-bit tick or spacing (R82), held as its pattern. -/
abbrev I32 := BitVec 32

/-- An unsigned 32-bit number: a command word, STATUS, a fee in pips. -/
abbrev U32 := BitVec 32

/-- A signed 16-bit word index of the bitmap (20_memory.md R31), held as its pattern. -/
abbrev I16 := BitVec 16

/-- An 8-bit number: a bit position in a word, an opcode. -/
abbrev U8 := BitVec 8

/-- One byte of the optional byte binding (20_memory.md R35). -/
abbrev Byte := BitVec 8

/-- `MAXU256 = 2^256 - 1` (00_scope.md section 6.1). -/
def maxU256 : U256 := BitVec.allOnes 256

/-- `MAXU160 = 2^160 - 1`, the 160-bit ceiling (45_sqrt_price_math.md R135). -/
def maxU160 : U256 := 0xFFFFFFFFFFFFFFFFFFFFFFFFFFFFFFFFFFFFFFFF#256

/-- `Q96 = 2^96`, the Q64.96 number 1 (45_sqrt_price_math.md R135). -/
def q96 : U256 := 0x1000000000000000000000000#256

end Sys2Proof
end

