-- ==== Sys2Proof/Machine/Arith.lean ====
section
/-! DEFINITION. WordArithmetic, the datapath operators every command is built from
(40_word_arithmetic.md). They have no opcode (30_encoding.md R60). Each is the `BitVec` operation
of the same law, under the name of its rule, and is reducible, so `BitVec` lemmas apply.

The comparisons of R77 are `<`, `≤`, `=` on `BitVec`, which compare unsigned values. -/

namespace Sys2Proof.Machine

/-- `a +w b = (a + b) mod 2^256` (R71). -/
abbrev addW (a b : U256) : U256 := a + b

/-- `a -w b = (a - b) mod 2^256` (R72). -/
abbrev subW (a b : U256) : U256 := a - b

/-- `a *w b = (a * b) mod 2^256` (R73). -/
abbrev mulW (a b : U256) : U256 := a * b

/-- `-w a = 0 -w a` (R74). -/
abbrev negW (a : U256) : U256 := -a

/-- `a << n`, for `n` from 0 to 255 (R75). -/
abbrev shlW (a : U256) (n : Nat) : U256 := a <<< n

/-- `a >> n`, logical, for `n` from 0 to 255 (R75). -/
abbrev shrW (a : U256) (n : Nat) : U256 := a >>> n

/-- `a & b` (R76). -/
abbrev andW (a b : U256) : U256 := a &&& b

/-- `a | b` (R76). -/
abbrev orW (a b : U256) : U256 := a ||| b

/-- `a ^ b` (R76). -/
abbrev xorW (a b : U256) : U256 := a ^^^ b

/-- `~a = a ^ MAXU256` (R76). -/
abbrev notW (a : U256) : U256 := xorW a maxU256

/-- `a / b = floor(a / b)` for `b != 0` (R78). Every use stands behind a check of `b` (R79). -/
abbrev divW (a b : U256) : U256 := a / b

/-- `a % b = a - b * floor(a / b)` for `b != 0` (R78). Every use stands behind a check of `b` (R79). -/
abbrev remW (a b : U256) : U256 := a % b

/-- `x <s 0`: bit 255 of the pattern is 1 (R81). -/
abbrev negative256 (x : U256) : Bool := x.msb

/-- `x >>a n` on I256: `floor(signed_256(x) / 2^n)` (R81). -/
abbrev sarW (x : U256) (n : Nat) : U256 := x.sshiftRight n

/-- `a +32 b`, wraparound (R82). -/
abbrev add32 (a b : I32) : I32 := a + b

/-- `a -32 b`, wraparound (R82). -/
abbrev sub32 (a b : I32) : I32 := a - b

/-- `a *32 b`, wraparound (R82). -/
abbrev mul32 (a b : I32) : I32 := a * b

/-- `a /32 b` for `b != 0`: the quotient rounded toward zero (R83). -/
abbrev div32 (a b : I32) : I32 := a.sdiv b

/-- `a %32 b = a - b * (a /32 b)` for `b != 0`: 0 or of the sign of `a` (R83). -/
abbrev rem32 (a b : I32) : I32 := a.srem b

/-- `x >>a n` on I32: `floor(x / 2^n)`, toward minus infinity (R84). -/
abbrev sar32 (x : I32) (n : Nat) : I32 := x.sshiftRight n

/-- "`tick mod 256`": the non-negative remainder, the low eight bits of the pattern (R85). -/
abbrev mod256 (x : I32) : U8 := x.setWidth 8

/-- The wraparound add modulo 2^128 of a liquidity (R86; 47_liquidity_math.md R175). -/
abbrev add128 (a b : U128) : U128 := a + b

/-- The wraparound subtract modulo 2^128 of a liquidity (R86; 47_liquidity_math.md R175). -/
abbrev sub128 (a b : U128) : U128 := a - b

/-- The magnitude of an I128 `d < 0`: "`|d| = -d`, 1 to 2^127, which fits a U128" (R86). -/
abbrev magnitude128 (d : I128) : U128 := -d

/-- Whether an I128 is below zero. -/
abbrev negative128 (d : I128) : Bool := d.msb

end Sys2Proof.Machine
end

