-- ==== Sys2Proof/Syntax.lean ====
section
/-! DEFINITION. The 21 commands (30_encoding.md R52), one constructor per row of the opcode table.

A command has no register field and no immediate (R51, R57): operands and results sit in fixed
registers (R56). The only thing a command word carries besides its opcode is the modifier bit M of
the seven commands that take it (R53); the constructor's argument is that Boolean parameter, true
for M = 1. -/

namespace Sys2Proof

/-- A command of the engine (30_encoding.md R52, R53). -/
inductive Instr where
  /-- `0x20` MSB, 41_bit_scan.md R90. -/
  | msb
  /-- `0x21` LSB, 41_bit_scan.md R91. -/
  | lsb
  /-- `0x30` DIVRU, 42_unsafe_math.md R100. -/
  | divru
  /-- `0x40` MULMOD, 43_full_math.md R105. -/
  | mulmod
  /-- `0x41` MULDIV, 43_full_math.md R106. -/
  | muldiv
  /-- `0x42` MULDIVRU, 43_full_math.md R108. -/
  | muldivru
  /-- `0x50` TICK2SQRT, 44_tick_math.md R122. -/
  | tick2sqrt
  /-- `0x51` SQRT2TICK, 44_tick_math.md R125. -/
  | sqrt2tick
  /-- `0x60` NEXTIN, 45_sqrt_price_math.md R138; M = 1: token0 flows in. -/
  | nextin (zeroForOne : Bool)
  /-- `0x61` NEXTOUT, 45_sqrt_price_math.md R139; M = 1: token1 flows out. -/
  | nextout (zeroForOne : Bool)
  /-- `0x62` NEXTA0, 45_sqrt_price_math.md R140; M = 1: the amount is added. -/
  | nexta0 (add : Bool)
  /-- `0x63` NEXTA1, 45_sqrt_price_math.md R141; M = 1: the amount is added. -/
  | nexta1 (add : Bool)
  /-- `0x64` AMT0, 45_sqrt_price_math.md R143; M = 1: round up. -/
  | amt0 (roundUp : Bool)
  /-- `0x65` AMT1, 45_sqrt_price_math.md R144; M = 1: round up. -/
  | amt1 (roundUp : Bool)
  /-- `0x66` SAMT0, 45_sqrt_price_math.md R145. -/
  | samt0
  /-- `0x67` SAMT1, 45_sqrt_price_math.md R146. -/
  | samt1
  /-- `0x70` BMPOS, 46_tick_bitmap.md R162. -/
  | bmpos
  /-- `0x71` FLIP, 46_tick_bitmap.md R164. -/
  | flip
  /-- `0x72` NEXTINIT, 46_tick_bitmap.md R166; M = 1: search at or below the tick. -/
  | nextinit (lte : Bool)
  /-- `0x80` ADDDELTA, 47_liquidity_math.md R175. -/
  | adddelta
  /-- `0x90` SWAPSTEP, 48_swap_step.md R180. -/
  | swapstep
deriving DecidableEq, Repr

/-- Whether the command has a Boolean parameter (30_encoding.md R53). -/
def Instr.takesM : Instr → Bool
  | .msb => false
  | .lsb => false
  | .divru => false
  | .mulmod => false
  | .muldiv => false
  | .muldivru => false
  | .tick2sqrt => false
  | .sqrt2tick => false
  | .nextin _ => true
  | .nextout _ => true
  | .nexta0 _ => true
  | .nexta1 _ => true
  | .amt0 _ => true
  | .amt1 _ => true
  | .samt0 => false
  | .samt1 => false
  | .bmpos => false
  | .flip => false
  | .nextinit _ => true
  | .adddelta => false
  | .swapstep => false

end Sys2Proof
end

