-- ==== Sys2Proof/WellFormed.lean ====
section
/-! DEFINITION. What a well-formed command and a legal command word are (30_encoding.md R54).

The syntax leaves nothing to check in a command: the modifier stands only where the command takes
it, and there is no register number and no immediate. What can be ill-formed is a 32-bit command
word, and R54 gives three conditions for it, each a check of its own here. -/

namespace Sys2Proof

/-- Every command of the syntax is well-formed: none has a field with a value R54 excludes. -/
def Instr.wellFormed : Instr → Bool
  | .msb | .lsb | .divru | .mulmod | .muldiv | .muldivru | .tick2sqrt | .sqrt2tick => true
  | .nextin _ | .nextout _ | .nexta0 _ | .nexta1 _ | .amt0 _ | .amt1 _ => true
  | .samt0 | .samt1 | .bmpos | .flip | .nextinit _ | .adddelta | .swapstep => true

/-- The assigned opcodes of the table of R52, in its order. -/
def assignedOpcodes : List U8 :=
  [0x20#8, 0x21#8, 0x30#8, 0x40#8, 0x41#8, 0x42#8, 0x50#8, 0x51#8, 0x60#8, 0x61#8, 0x62#8, 0x63#8,
    0x64#8, 0x65#8, 0x66#8, 0x67#8, 0x70#8, 0x71#8, 0x72#8, 0x80#8, 0x90#8]

/-- The opcodes of the seven commands that take the modifier (R53). -/
def modifierOpcodes : List U8 :=
  [0x60#8, 0x61#8, 0x62#8, 0x63#8, 0x64#8, 0x65#8, 0x72#8]

/-- R54, first condition: `c[7:0]` is an assigned opcode. -/
def wordHasOpcode (c : U32) : Bool := assignedOpcodes.contains (c.setWidth 8)

/-- R54, second condition: `c[31:9] = 0`. -/
def wordReservedZero (c : U32) : Bool := c >>> 9 == 0#32

/-- R54, third condition: `c[8] = 0` or the command takes M. -/
def wordModifierAllowed (c : U32) : Bool :=
  !c.getLsbD 8 || modifierOpcodes.contains (c.setWidth 8)

/-- A legal command word: "legal exactly when all three hold" (R54). -/
def legalWord (c : U32) : Bool :=
  wordHasOpcode c && wordReservedZero c && wordModifierAllowed c

end Sys2Proof
end

