-- ==== Sys2Proof/Decode.lean ====
section
/-! DEFINITION. The decoder of a command word and, after it, the encoder (30_encoding.md R50 to R55).

Format C: opcode in bits 7:0, modifier M in bit 8, bits 31:9 zero (R51). A word that is not legal is
rejected by name, and the name fixes the SITE it reports (R55). -/

namespace Sys2Proof

/-- Why a command word is illegal (30_encoding.md R55). -/
inductive Illegal where
  /-- `c[7:0]` is not an assigned opcode, whatever the other bits: SITE `0x18`. -/
  | unassignedOpcode
  /-- The opcode is assigned but `c[31:9] != 0`, or `c[8] = 1` on a command without a modifier:
  SITE `0x19`. -/
  | reservedBits
deriving DecidableEq, Repr

/-- `CMD[7:0]`, the opcode (R51). -/
def opcodeField (c : U32) : U8 := c.setWidth 8

/-- `CMD[8]`, the modifier bit M (R51). -/
def modifierField (c : U32) : Bool := c.getLsbD 8

/-- `CMD[31:9]`, reserved (R51). -/
def reservedField (c : U32) : BitVec 23 := c.extractLsb' 9 23

/-- The opcode map (R52): the command an opcode selects with a given modifier. -/
def commandOfOpcode (opc : U8) (m : Bool) : Option Instr :=
  match opc.toNat with
  | 0x20 => some .msb
  | 0x21 => some .lsb
  | 0x30 => some .divru
  | 0x40 => some .mulmod
  | 0x41 => some .muldiv
  | 0x42 => some .muldivru
  | 0x50 => some .tick2sqrt
  | 0x51 => some .sqrt2tick
  | 0x60 => some (.nextin m)
  | 0x61 => some (.nextout m)
  | 0x62 => some (.nexta0 m)
  | 0x63 => some (.nexta1 m)
  | 0x64 => some (.amt0 m)
  | 0x65 => some (.amt1 m)
  | 0x66 => some .samt0
  | 0x67 => some .samt1
  | 0x70 => some .bmpos
  | 0x71 => some .flip
  | 0x72 => some (.nextinit m)
  | 0x80 => some .adddelta
  | 0x90 => some .swapstep
  | _ => none

/-- The decoder: total on the 2^32 command words. An unassigned opcode is reported before a bad
modifier or reserved bit (60_exceptions.md R195). -/
def decode (c : U32) : Except Illegal Instr :=
  match commandOfOpcode (opcodeField c) (modifierField c) with
  | none => .error .unassignedOpcode
  | some i =>
    if reservedField c = 0#23 ∧ (modifierField c = false ∨ i.takesM = true) then .ok i
    else .error .reservedBits

/-- Why a sequence of bytes is no command. -/
inductive ByteReject where
  /-- It is not the four bytes of one command word (20_memory.md R43). -/
  | notFourBytes
  /-- It is a command word, and an illegal one. -/
  | illegal (why : Illegal)
deriving DecidableEq, Repr

/-- The number a sequence of bytes stands for, the first byte least significant
(20_memory.md R35). -/
def natOfBytes : List Byte → Nat
  | [] => 0
  | b :: bs => b.toNat + 256 * natOfBytes bs

/-- The first `n` bytes of a number, least significant first (20_memory.md R35). -/
def bytesOfNat : Nat → Nat → List Byte
  | 0, _ => []
  | n + 1, v => BitVec.ofNat 8 v :: bytesOfNat n (v / 256)

/-- The decoder on bytes as a platform lays a command word out (20_memory.md R35, R43): total on
every list of bytes. -/
def decodeBytes (bs : List Byte) : Except ByteReject Instr :=
  if bs.length = 4 then
    match decode (BitVec.ofNat 32 (natOfBytes bs)) with
    | .ok i => .ok i
    | .error why => .error (.illegal why)
  else .error .notFourBytes

/-- The number `w` of `nbits` bits, as the command word it fills from bit 0 with zeros above. -/
def tableWord (nbits w : Nat) : Nat := w % 2 ^ min nbits 32

/-- The instruction the decoder reads from a row's word `w` of `nbits` bits, numbered as the opcode
table numbers them; the bytes are laid out little-endian (20_memory.md R35). -/
def decodeTableWord (nbits w : Nat) : Option Instr :=
  match decodeBytes (bytesOfNat 4 (tableWord nbits w)) with
  | .ok i => some i
  | .error _ => none

/-- A command word from its opcode and modifier: `OPC + 256 * M` (R52). -/
def commandWord (opc : U8) (m : Bool) : U32 := opc.setWidth 32 ||| (if m then 0x100#32 else 0#32)

/-- The encoder: the one command word of a command (R52, R53). -/
def encode : Instr → U32
  | .msb => commandWord 0x20#8 false
  | .lsb => commandWord 0x21#8 false
  | .divru => commandWord 0x30#8 false
  | .mulmod => commandWord 0x40#8 false
  | .muldiv => commandWord 0x41#8 false
  | .muldivru => commandWord 0x42#8 false
  | .tick2sqrt => commandWord 0x50#8 false
  | .sqrt2tick => commandWord 0x51#8 false
  | .nextin m => commandWord 0x60#8 m
  | .nextout m => commandWord 0x61#8 m
  | .nexta0 m => commandWord 0x62#8 m
  | .nexta1 m => commandWord 0x63#8 m
  | .amt0 m => commandWord 0x64#8 m
  | .amt1 m => commandWord 0x65#8 m
  | .samt0 => commandWord 0x66#8 false
  | .samt1 => commandWord 0x67#8 false
  | .bmpos => commandWord 0x70#8 false
  | .flip => commandWord 0x71#8 false
  | .nextinit m => commandWord 0x72#8 m
  | .adddelta => commandWord 0x80#8 false
  | .swapstep => commandWord 0x90#8 false

end Sys2Proof
end

