-- ==== Sys2Proof/Config.lean ====
section
/-! DEFINITION. The two parameters the spec leaves OPEN to a platform (00_scope.md R8;
92_eei_decisions.md, OPEN parameters). Both are constants without a body: nothing can be proved of
their values. `State.reset` copies them into the state's `platform` field, and every meaning reads
that field, so a statement about every state holds for every platform (log 3). -/

namespace Sys2Proof

/-- `WORD_READ_MAY_FAIL`: whether the platform's word port can answer a read with an error
(20_memory.md R38). DESIGN CHOICE (log 3): free. -/
opaque Config.wordReadMayFail : Bool

/-- `ENGINE_BASE / 512`: the base of the byte binding is "a multiple of 512" (20_memory.md R42).
DESIGN CHOICE (log 3): free. -/
opaque Config.enginePage : Nat

end Sys2Proof
end

