-- ==== Sys2Proof/Machine/State.lean ====
section
/-! DEFINITION. The state of the machine: the engine's eleven registers (10_state.md R10, R11), the
word space W beside it (20_memory.md R30 to R33), and, as plain data, what the world outside does
next and what it has been answered (10_state.md R21; 20_memory.md R38; 70_reset_and_hazards.md R220). -/

namespace Sys2Proof.Machine

/-- The error kinds of a failed command (60_exceptions.md R191). -/
inductive ErrKind where
  /-- Bit scan of 0. -/
  | zeroValue
  | divisionByZero
  /-- A result exceeds 256 or 160 bits. -/
  | overflow
  /-- A bare-assertion failure. -/
  | invalidPrecondition
  | tickOutOfRange
  | priceOutOfRange
  | liquidityUnderflow
  | liquidityOverflow
  | tickSpacingMismatch
  /-- The word port answered a read with an error. -/
  | middlewareError
  | priceIsZero
  | liquidityIsZero
  /-- An illegal word was written to CMD. -/
  | illegalCommand
deriving DecidableEq, Repr

/-- The fault sites: one for each check that can fail (60_exceptions.md R192), in the order of their
codes `0x01` to `0x1A`. -/
inductive Site where
  /-- `0x01`: MSB of 0 (R90). -/
  | msbOfZero
  /-- `0x02`: LSB of 0 (R91). -/
  | lsbOfZero
  /-- `0x03`: DIVRU with `b == 0` (R101). -/
  | divruByZero
  /-- `0x04`: MULMOD with `m == 0` (R105). -/
  | mulmodByZero
  /-- `0x05`: `mul_div` with `prod1 == 0` and `d == 0` (R106). -/
  | muldivByZero
  /-- `0x06`: `mul_div` with `prod1 != 0` and `d <= prod1` (R106). -/
  | muldivOverflow
  /-- `0x07`: `mul_div_rounding_up`, increment of `2^256 - 1` (R108). -/
  | muldivruIncrement
  /-- `0x08`: `|tick| > 887272` (R122). -/
  | tickRange
  /-- `0x09`: price outside `[MIN_SQRT_RATIO, MAX_SQRT_RATIO)` (R125). -/
  | priceRange
  /-- `0x0A`: NEXTIN or NEXTOUT with `price == 0` (R138, R139). -/
  | nextPriceZero
  /-- `0x0B`: NEXTIN or NEXTOUT with `liquidity == 0` (R138, R139). -/
  | nextLiquidityZero
  /-- `0x0C`: amount0 removed, product wrapped or `numerator1 <= product` (R140). -/
  | amount0Removed
  /-- `0x0D`: amount1 added, `price + quotient > 2^160 - 1` (R141). -/
  | amount1Ceiling
  /-- `0x0E`: amount1 removed, `price <= quotient` (R141). -/
  | amount1Removed
  /-- `0x0F`: amount0 delta, lower price is 0 (R143). -/
  | delta0PriceZero
  /-- `0x10`: amount1 added, amount fits 160 bits, `liquidity == 0` (R141). -/
  | amount1AddByZero
  /-- `0x11`: amount0 added, fall-back divisor wrapped to 0 (R140). -/
  | amount0AddByZero
  /-- `0x12`: amount1 removed, amount fits 160 bits, `liquidity == 0` (R141). -/
  | amount1SubByZero
  /-- `0x13`: FLIP or NEXTINIT with `spacing <= 0` (R161). -/
  | spacingNotPositive
  /-- `0x14`: FLIP with `tick % spacing != 0` (R164). -/
  | spacingMismatch
  /-- `0x15`: the word port answered a read with an error (R38). -/
  | wordReadError
  /-- `0x16`: ADDDELTA, `delta < 0` and `|delta| > liquidity` (R175). -/
  | liquidityBelowZero
  /-- `0x17`: ADDDELTA, `delta >= 0` and the sum reaches `2^128` (R175). -/
  | liquidityAboveMax
  /-- `0x18`: `CMD[7:0]` is not an assigned opcode (R55). -/
  | opcodeUnassigned
  /-- `0x19`: assigned opcode with `CMD[31:9] != 0`, or M on a command without a modifier (R55). -/
  | reservedEncoding
  /-- `0x1A`: amount1 delta, lower price is 0 (R144). -/
  | delta1PriceZero
deriving DecidableEq, Repr

/-- Why the MACHINE stops. Closed and empty: no rule of the spec stops the engine, "every command
ends" (93_implementation_defined.md section 1), and a fault of the spec is a next state
(60_exceptions.md R190, R196). Safe: nothing is lost by a stop that never comes (log 30). -/
inductive Fault where
deriving DecidableEq, Repr

/-- Why the machine refuses a command. -/
inductive Refusal where
  /-- Raised by an arm of `exec` whose command has no meaning yet. No arm does so: all 21 commands
  have theirs. Safe. -/
  | notModelled (mnemonic : String)
deriving DecidableEq, Repr

/-- The word space W: pairs of a word index, as the unsigned value of its I16 pattern, and a word.
Canonical form: indices strictly rising, no word 0; an unlisted index reads as 0 (20_memory.md
R31, R32; log 1). The unit is the 256-bit word, the only width W is accessed in (R36). -/
abbrev Memory := List (Nat × U256)

/-- The two OPEN parameters of a platform (00_scope.md R8). No event changes them. -/
structure Platform where
  /-- `WORD_READ_MAY_FAIL` (20_memory.md R38). -/
  wordReadMayFail : Bool
  /-- `ENGINE_BASE / 512` (20_memory.md R42). -/
  basePage : Nat
deriving DecidableEq, Repr

/-- What the word port answers to one read of the engine (20_memory.md R37, R38). -/
inductive PortAnswer where
  /-- The stored word `W(idx)`. -/
  | stored
  /-- A word of a remote provider whose data changed (R40; 93_implementation_defined.md U16). -/
  | word (v : U256)
  /-- The error answer (R38). -/
  | error
deriving DecidableEq, Repr

/-- What can happen at the engine from outside, one at a time. -/
inductive Event where
  /-- `RegWrite(n, v)` (10_state.md R21, R22). -/
  | regWrite (n : Nat) (v : U256)
  /-- `RegRead(n)` (10_state.md R21, R22). -/
  | regRead (n : Nat)
  /-- `HostWordWrite(idx, v)` (10_state.md R21; 20_memory.md R33). -/
  | wordWrite (idx : I16) (v : U256)
  /-- `HostWordRead(idx)` (10_state.md R21; 20_memory.md R33). -/
  | wordRead (idx : I16)
  /-- A write access of the byte binding: the bytes, first at the lowest address (20_memory.md R42,
  R43). -/
  | busWrite (addr : Nat) (bytes : List Byte)
  /-- A read access of the byte binding (20_memory.md R42, R43). -/
  | busRead (addr : Nat) (size : Nat)
  /-- The platform asserts reset between two transactions (70_reset_and_hazards.md R220). -/
  | reset
deriving DecidableEq, Repr

/-- What a read transaction returns to the host. -/
inductive Reply where
  /-- The value of a RegRead or a HostWordRead. -/
  | value (v : U256)
  /-- The bytes of a read of the byte binding, first at the lowest address. -/
  | bytes (bs : List Byte)
deriving DecidableEq, Repr

/-- The machine's state. The first eleven fields are the engine's registers, all of them (10_state.md
R10); `words` is W; the rest is the world outside (logs 3, 4, 6, 7). -/
structure State where
  /-- CMD, register `0x00` (R14). -/
  cmd : U32
  /-- STATUS, register `0x01` (R15). -/
  status : U32
  /-- ARG0, register `0x08` (R12). -/
  arg0 : U256
  /-- ARG1, register `0x09` (R12). -/
  arg1 : U256
  /-- ARG2, register `0x0A` (R12). -/
  arg2 : U256
  /-- ARG3, register `0x0B` (R12). -/
  arg3 : U256
  /-- ARG4, register `0x0C` (R12). -/
  arg4 : U256
  /-- RES0, register `0x10` (R13). -/
  res0 : U256
  /-- RES1, register `0x11` (R13). -/
  res1 : U256
  /-- RES2, register `0x12` (R13). -/
  res2 : U256
  /-- RES3, register `0x13` (R13). -/
  res3 : U256
  /-- The word space W, owned by the host (20_memory.md R33). -/
  words : Memory
  /-- The platform's parameters. -/
  platform : Platform
  /-- What the word port answers to the engine's next reads, first answer first; past its end every
  read is answered with the stored word. -/
  portAnswers : List PortAnswer
  /-- What the host and the platform do next, first event first (10_state.md R19). -/
  pending : List Event
  /-- What the host's reads have returned, newest first. -/
  replies : List Reply
deriving DecidableEq, Repr

/-- The machine right after reset: every register 0 (10_state.md R25; 70_reset_and_hazards.md R222).
Reset says nothing of the rest (R221): W lists nothing (log 2), the platform is the unknown one
of Config (log 3), and no answer, event or reply is scheduled or recorded (logs 4, 6, 7). -/
def State.reset : State where
  cmd := 0#32
  status := 0#32
  arg0 := 0#256
  arg1 := 0#256
  arg2 := 0#256
  arg3 := 0#256
  arg4 := 0#256
  res0 := 0#256
  res1 := 0#256
  res2 := 0#256
  res3 := 0#256
  words := []
  platform := { wordReadMayFail := Config.wordReadMayFail, basePage := Config.enginePage }
  portAnswers := []
  pending := []
  replies := []

end Sys2Proof.Machine
end

