-- ==== Sys2Proof/Machine/Flags.lean ====
section
/-! DEFINITION. STATUS, the only flags the engine has (10_state.md R15, R18): its ERR, SITE and DONE
fields and the code tables behind them (60_exceptions.md R191, R192). There are no condition flags,
so no command computes any. -/

namespace Sys2Proof.Machine

/-- The ERR code of an error kind (60_exceptions.md R191); 0 is success. -/
def ErrKind.code : ErrKind → U32
  | .zeroValue => 1#32
  | .divisionByZero => 2#32
  | .overflow => 3#32
  | .invalidPrecondition => 4#32
  | .tickOutOfRange => 5#32
  | .priceOutOfRange => 6#32
  | .liquidityUnderflow => 7#32
  | .liquidityOverflow => 8#32
  | .tickSpacingMismatch => 9#32
  | .middlewareError => 10#32
  | .priceIsZero => 11#32
  | .liquidityIsZero => 12#32
  | .illegalCommand => 13#32

/-- The SITE code of a check (60_exceptions.md R192). -/
def Site.code : Site → U32
  | .msbOfZero => 0x01#32
  | .lsbOfZero => 0x02#32
  | .divruByZero => 0x03#32
  | .mulmodByZero => 0x04#32
  | .muldivByZero => 0x05#32
  | .muldivOverflow => 0x06#32
  | .muldivruIncrement => 0x07#32
  | .tickRange => 0x08#32
  | .priceRange => 0x09#32
  | .nextPriceZero => 0x0A#32
  | .nextLiquidityZero => 0x0B#32
  | .amount0Removed => 0x0C#32
  | .amount1Ceiling => 0x0D#32
  | .amount1Removed => 0x0E#32
  | .delta0PriceZero => 0x0F#32
  | .amount1AddByZero => 0x10#32
  | .amount0AddByZero => 0x11#32
  | .amount1SubByZero => 0x12#32
  | .spacingNotPositive => 0x13#32
  | .spacingMismatch => 0x14#32
  | .wordReadError => 0x15#32
  | .liquidityBelowZero => 0x16#32
  | .liquidityAboveMax => 0x17#32
  | .opcodeUnassigned => 0x18#32
  | .reservedEncoding => 0x19#32
  | .delta1PriceZero => 0x1A#32

/-- "A SITE always goes with the one ERR in its row" (60_exceptions.md R192). -/
def Site.kind : Site → ErrKind
  | .msbOfZero => .zeroValue
  | .lsbOfZero => .zeroValue
  | .divruByZero => .divisionByZero
  | .mulmodByZero => .divisionByZero
  | .muldivByZero => .divisionByZero
  | .muldivOverflow => .overflow
  | .muldivruIncrement => .overflow
  | .tickRange => .tickOutOfRange
  | .priceRange => .priceOutOfRange
  | .nextPriceZero => .priceIsZero
  | .nextLiquidityZero => .liquidityIsZero
  | .amount0Removed => .invalidPrecondition
  | .amount1Ceiling => .overflow
  | .amount1Removed => .invalidPrecondition
  | .delta0PriceZero => .priceIsZero
  | .amount1AddByZero => .divisionByZero
  | .amount0AddByZero => .divisionByZero
  | .amount1SubByZero => .divisionByZero
  | .spacingNotPositive => .invalidPrecondition
  | .spacingMismatch => .tickSpacingMismatch
  | .wordReadError => .middlewareError
  | .liquidityBelowZero => .liquidityUnderflow
  | .liquidityAboveMax => .liquidityOverflow
  | .opcodeUnassigned => .illegalCommand
  | .reservedEncoding => .illegalCommand
  | .delta1PriceZero => .priceIsZero

/-- The SITE an illegal command word reports (30_encoding.md R55). -/
def siteOfIllegal : Illegal → Site
  | .unassignedOpcode => .opcodeUnassigned
  | .reservedBits => .reservedEncoding

/-- STATUS from its fields: DONE = 1, SITE at 11:4, ERR at 3:0, the reserved bits 0 (10_state.md
R15). -/
def statusWord (site err : U32) : U32 := 0x1000#32 ||| site <<< 4 ||| err

/-- STATUS after a command that succeeded: DONE = 1, SITE = 0, ERR = 0 (10_state.md R20). -/
def statusOk : U32 := statusWord 0#32 0#32

/-- STATUS after a command that failed at `site` (60_exceptions.md R196). -/
def statusFault (site : Site) : U32 := statusWord site.code site.kind.code

/-- `STATUS[3:0]`, the ERR field (10_state.md R15). -/
def errField (status : U32) : BitVec 4 := status.setWidth 4

/-- `STATUS[11:4]`, the SITE field (10_state.md R15). -/
def siteField (status : U32) : U8 := status.extractLsb' 4 8

/-- `STATUS[12]`, the DONE field (10_state.md R15). -/
def doneField (status : U32) : Bool := status.getLsbD 12

end Sys2Proof.Machine
end

