-- ==== Sys2Proof/Machine/Operands.lean ====
section
/-! DEFINITION. The operand and result forms (10_state.md R16, R17; 30_encoding.md R56, R57), and the
engine's registers by number (10_state.md R11).

An operand narrower than 256 bits is the low bits of its ARG register; the rest is ignored (R16). An
unsigned result is zero-extended and a signed one sign-extended (R17). A U256 operand is the
register itself. -/

namespace Sys2Proof.Machine

/-- A U128 or I128 operand: `ARG[i][127:0]` (R16). -/
def low128 (r : U256) : U128 := r.setWidth 128

/-- A U32 or I32 operand: `ARG[i][31:0]` (R16). -/
def low32 (r : U256) : I32 := r.setWidth 32

/-- `zext_256` of a U128 (R17). -/
def zext128 (v : U128) : U256 := v.setWidth 256

/-- `zext_256` of a U32 (R17). -/
def zext32 (v : U32) : U256 := v.setWidth 256

/-- `zext_256` of a U8 (R17). -/
def zext8 (v : U8) : U256 := v.setWidth 256

/-- A Boolean result is 0 or 1 (R17). -/
def ofBool (b : Bool) : U256 := if b then 1#256 else 0#256

/-- `sext_256` of an I32 (R17). -/
def sext32 (v : I32) : U256 := v.signExtend 256

/-- `sext_256` of an I16 (R17). -/
def sext16 (v : I16) : U256 := v.signExtend 256

/-- The value of the register with number `n`, as `RegRead(n)` returns it; an undefined number reads
as 0 (10_state.md R11, R22). -/
def State.readRegister (s : State) (n : Nat) : U256 :=
  match n with
  | 0x00 => zext32 s.cmd
  | 0x01 => zext32 s.status
  | 0x08 => s.arg0
  | 0x09 => s.arg1
  | 0x0A => s.arg2
  | 0x0B => s.arg3
  | 0x0C => s.arg4
  | 0x10 => s.res0
  | 0x11 => s.res1
  | 0x12 => s.res2
  | 0x13 => s.res3
  | _ => 0#256

/-- The effect of `RegWrite(n, v)` for every register but CMD: an ARG register stores all 256 bits as
given; a write to STATUS, to a RES register or to an undefined number is ignored (10_state.md R22). -/
def State.storeRegister (s : State) (n : Nat) (v : U256) : State :=
  match n with
  | 0x08 => { s with arg0 := v }
  | 0x09 => { s with arg1 := v }
  | 0x0A => { s with arg2 := v }
  | 0x0B => { s with arg3 := v }
  | 0x0C => { s with arg4 := v }
  | _ => s

end Sys2Proof.Machine
end

