-- ==== Sys2Proof/Machine/Ops.lean ====
section
/-! DEFINITION. The shared operations: the word space W, the engine's word port, and how a command
ends, in success or in a fault (20_memory.md R31 to R39; 10_state.md R20; 60_exceptions.md R196). -/

namespace Sys2Proof.Machine

/-- What an index that is not listed reads as: "absent word ≡ all-zero" (20_memory.md R32). -/
def absentWord : U256 := 0#256

/-- The word stored at a key of the list, or the absent word. -/
def Memory.lookup : Memory → Nat → U256
  | [], _ => absentWord
  | (k, v) :: rest, key => if key = k then v else Memory.lookup rest key

/-- The list with `v` at `key`, in canonical form: the absent word is not listed. -/
def Memory.insert : Memory → Nat → U256 → Memory
  | [], key, v => if v = absentWord then [] else [(key, v)]
  | (k, w) :: rest, key, v =>
    if key < k then (if v = absentWord then (k, w) :: rest else (key, v) :: (k, w) :: rest)
    else if key = k then (if v = absentWord then rest else (key, v) :: rest)
    else (k, w) :: Memory.insert rest key v

/-- `W(idx)` (20_memory.md R31, R32). -/
def Memory.read (m : Memory) (idx : I16) : U256 := m.lookup idx.toNat

/-- W with `v` at `idx`, "W(idx) = v for every later read" (20_memory.md R33, R39). -/
def Memory.write (m : Memory) (idx : I16) (v : U256) : Memory := m.insert idx.toNat v

/-- Every key is at least `low`, keys strictly rise and are 16-bit patterns, no word is absent. -/
def Memory.canonicalFrom : Nat → Memory → Bool
  | _, [] => true
  | low, (k, v) :: rest =>
    decide (low ≤ k) && decide (k < 65536) && decide (v ≠ absentWord)
      && Memory.canonicalFrom (k + 1) rest

/-- The canonical form of W: the one list for each map from index to word. -/
def Memory.wf (m : Memory) : Bool := m.canonicalFrom 0

/-- A command in progress answers a value or raises a fault at a site (00_scope.md section 6.2,
`raise K(site)`). -/
abbrev Cmd (α : Type) := Except Site α

/-- `raise K(site)`: ends the command at once (60_exceptions.md R190, R195). -/
def raise {α : Type} (site : Site) : Cmd α := .error site

/-- The answer the word port gives to the engine's next read (20_memory.md R38). Past the end of the
list it is the stored word. -/
def State.portAnswer (s : State) : PortAnswer := s.portAnswers.headD .stored

/-- `WordRead(idx)`: the value, or `MiddlewareError` at SITE `0x15` (20_memory.md R37, R38). A port
that cannot fail is a local store, and answers the stored word (log 5). -/
def State.wordRead (s : State) (idx : I16) : Cmd U256 :=
  match s.portAnswer with
  | .stored => .ok (s.words.read idx)
  | .word v => .ok (if s.platform.wordReadMayFail then v else s.words.read idx)
  | .error => if s.platform.wordReadMayFail then raise .wordReadError else .ok (s.words.read idx)

/-- The state after the word port has answered one read: the answer is spent. A read changes nothing
else (20_memory.md R40). -/
def State.afterWordRead (s : State) : State := { s with portAnswers := s.portAnswers.tail }

/-- What a successful command leaves: its results, 0 in every RES register it does not name
(10_state.md R13), and its buffered word write, if any (10_state.md R20; 20_memory.md R39). -/
structure Success where
  res0 : U256 := 0#256
  res1 : U256 := 0#256
  res2 : U256 := 0#256
  res3 : U256 := 0#256
  store : Option (I16 × U256) := none
deriving DecidableEq, Repr

/-- The one result of most commands, in RES0 (30_encoding.md R56). -/
def oneResult (v : U256) : Success := { res0 := v }

/-- W after the buffered word write is performed (10_state.md R20; 20_memory.md R39). -/
def performStore (m : Memory) : Option (I16 × U256) → Memory
  | none => m
  | some (idx, v) => m.write idx v

/-- A command that succeeded: the word write, the results, STATUS with DONE = 1 (10_state.md R20). -/
def State.succeed (s : State) (r : Success) : State :=
  { s with
    words := performStore s.words r.store
    res0 := r.res0
    res1 := r.res1
    res2 := r.res2
    res3 := r.res3
    status := statusOk }

/-- TAKING A FAULT, the one way a command fails: RES0 to RES3 become 0, the word write is discarded,
STATUS records DONE, SITE and ERR, and nothing else changes (60_exceptions.md R196). There is no
vector and no saved state, and no return from a fault: the engine is idle afterwards as after a
success (R193, R197). -/
def State.fail (s : State) (site : Site) : State :=
  { s with
    res0 := 0#256
    res1 := 0#256
    res2 := 0#256
    res3 := 0#256
    status := statusFault site }

/-- The end of a command, as R20 writes it: success or failure, in one step. -/
def State.finish (s : State) (r : Cmd Success) : State :=
  match r with
  | .ok out => s.succeed out
  | .error site => s.fail site

/-- A command that ends in `s.finish r`: the engine is idle again, no command stops the machine. -/
def State.ends (s : State) (r : Cmd Success) : Host.Outcome State Fault Refusal :=
  .next (s.finish r)

/-- Store a command word in CMD, "as written even when the command is illegal" (10_state.md R14). -/
def State.setCmd (s : State) (c : U32) : State := { s with cmd := c }

/-- Take the next event off the list. -/
def State.setPending (s : State) (es : List Event) : State := { s with pending := es }

/-- Return a value to the host; a read changes no register (10_state.md R21). -/
def State.reply (s : State) (r : Reply) : State := { s with replies := r :: s.replies }

/-- The effect of `HostWordWrite(idx, v)` (20_memory.md R33). -/
def State.hostWordWrite (s : State) (idx : I16) (v : U256) : State :=
  { s with words := s.words.write idx v }

/-- The whole effect of reset on a running machine: every register takes its reset value, W stays
(70_reset_and_hazards.md R220, R221). -/
def State.resetRegisters (s : State) : State :=
  { State.reset with
    words := s.words
    platform := s.platform
    portAnswers := s.portAnswers
    pending := s.pending
    replies := s.replies }

end Sys2Proof.Machine
end

