-- ==== Sys2Proof/Machine/BitScan.lean ====
section
/-! DEFINITION. BitScan: MSB and LSB (41_bit_scan.md). The result is "defined by the binary
representation of x alone" (R92): both scans look at the bits one by one. -/

namespace Sys2Proof.Machine

/-- The largest `i ≤ top` with `x[i] = 1`; 0 if there is none. -/
def scanDown (x : U256) : Nat → Nat
  | 0 => 0
  | top + 1 => if x.getLsbD (top + 1) then top + 1 else scanDown x top

/-- The smallest `i ≥ start` with `x[i] = 1` among the next `fuel` bits; `start + fuel` if none. -/
def scanUp (x : U256) : Nat → Nat → Nat
  | 0, start => start
  | fuel + 1, start => if x.getLsbD start then start else scanUp x fuel (start + 1)

/-- "the largest i in 0..=255 with x[i] == 1", for `x != 0` (R90). -/
def highestBit (x : U256) : Nat := scanDown x 255

/-- "the smallest i in 0..=255 with x[i] == 1", for `x != 0` (R91). -/
def lowestBit (x : U256) : Nat := scanUp x 255 0

/-- `msb(x)` (R90). -/
def msbOf (x : U256) : Cmd U8 :=
  if x = 0#256 then raise .msbOfZero else .ok (BitVec.ofNat 8 (highestBit x))

/-- `lsb(x)` (R91). -/
def lsbOf (x : U256) : Cmd U8 :=
  if x = 0#256 then raise .lsbOfZero else .ok (BitVec.ofNat 8 (lowestBit x))

/-- MSB (R90). -/
def execMsb (s : State) : Host.Outcome State Fault Refusal :=
  s.ends ((msbOf s.arg0).map fun i => oneResult (zext8 i))

/-- LSB (R91). -/
def execLsb (s : State) : Host.Outcome State Fault Refusal :=
  s.ends ((lsbOf s.arg0).map fun i => oneResult (zext8 i))

end Sys2Proof.Machine
end

