-- ==== Sys2Proof/Machine/FullMath.lean ====
section
/-! DEFINITION. FullMath: MULMOD, MULDIV, MULDIVRU (43_full_math.md). The true 512-bit product is
computed as a natural number, as R110 allows; the contract of R106 is the definition (decision D39),
and the source's seven-step procedure of R107 stands beside it. -/

namespace Sys2Proof.Machine

/-- The true product `P = a * b`, below 2^512. -/
def trueProduct (a b : U256) : Nat := a.toNat * b.toNat

/-- `prod1 = floor(P / 2^256)`, the high limb of the product. -/
def highLimb (a b : U256) : Nat := trueProduct a b / 2 ^ 256

/-- The remainder of the true product by `m`, for `m != 0`. -/
def productMod (a b m : U256) : U256 := BitVec.ofNat 256 (trueProduct a b % m.toNat)

/-- `mul_mod(a, b, m)` (R105). -/
def mulMod (a b m : U256) : Cmd U256 :=
  if m = 0#256 then raise .mulmodByZero else .ok (productMod a b m)

/-- `mul_div(a, b, d)`, the contract (R106). -/
def mulDiv (a b d : U256) : Cmd U256 :=
  if highLimb a b = 0 then
    if d = 0#256 then raise .muldivByZero
    else .ok (BitVec.ofNat 256 (trueProduct a b / d.toNat))
  else if d.toNat ≤ highLimb a b then raise .muldivOverflow
  else .ok (BitVec.ofNat 256 (trueProduct a b / d.toNat))

/-- The increment of `mul_div_rounding_up` (R108). -/
def roundUpQuotient (quotient remainder : U256) : Cmd U256 :=
  if remainder = 0#256 then .ok quotient
  else if quotient = maxU256 then raise .muldivruIncrement
  else .ok (addW quotient 1#256)

/-- `mul_div_rounding_up(a, b, d)` (R108). -/
def mulDivRoundingUp (a b d : U256) : Cmd U256 :=
  (mulDiv a b d).bind fun quotient => roundUpQuotient quotient (productMod a b d)

/-- 1 if the condition holds, else 0: the borrow of a limb subtraction (R107). -/
def borrow (c : Bool) : U256 := if c then 1#256 else 0#256

/-- Step 1 of R107: the high limb, from the product modulo 2^256 - 1 and modulo 2^256. -/
def reconstructHighLimb (a b : U256) : U256 :=
  subW (subW (productMod a b maxU256) (mulW a b))
    (borrow (decide (productMod a b maxU256 < mulW a b)))

/-- One Newton step of step 6 of R107, doubling the correct bits of the inverse. -/
def refineInverse (d inv : U256) : U256 := mulW inv (subW 2#256 (mulW d inv))

/-- Step 6 of R107: the inverse of an odd `d` modulo 2^256, from a seed correct modulo 2^4. -/
def oddInverse (d : U256) : U256 :=
  refineInverse d (refineInverse d (refineInverse d (refineInverse d (refineInverse d
    (refineInverse d (xorW (mulW 3#256 d) 2#256))))))

/-- The lowest set bit of `d`, "a power of two" (step 5 of R107). -/
def lowestPower (d : U256) : U256 := andW d (negW d)

/-- `2^256 / twos` modulo 2^256, 0 for `twos = 1` (step 5 of R107, corrected as 90_conflicts.md C1
says). -/
def flipPower (twos : U256) : U256 := addW (divW (negW twos) twos) 1#256

/-- Steps 4 to 7 of R107, on the limbs `prod1`, `prod0` of the product. -/
def exactQuotient (a b d prod1 prod0 : U256) : U256 :=
  let remainder := productMod a b d
  let high := subW prod1 (borrow (decide (prod0 < remainder)))
  let low := subW prod0 remainder
  let twos := lowestPower d
  let joined := orW (divW low twos) (mulW high (flipPower twos))
  mulW joined (oddInverse (divW d twos))

/-- `mul_div` by the source's procedure, with 256-bit operators only (R107). -/
def mulDivProcedure (a b d : U256) : Cmd U256 :=
  let prod0 := mulW a b
  let prod1 := reconstructHighLimb a b
  if prod1 = 0#256 then
    if d = 0#256 then raise .muldivByZero else .ok (divW prod0 d)
  else if d ≤ prod1 then raise .muldivOverflow
  else .ok (exactQuotient a b d prod1 prod0)

/-- MULMOD (R105). -/
def execMulmod (s : State) : Host.Outcome State Fault Refusal :=
  s.ends ((mulMod s.arg0 s.arg1 s.arg2).map oneResult)

/-- MULDIV (R106). -/
def execMuldiv (s : State) : Host.Outcome State Fault Refusal :=
  s.ends ((mulDiv s.arg0 s.arg1 s.arg2).map oneResult)

/-- MULDIVRU (R108). -/
def execMuldivru (s : State) : Host.Outcome State Fault Refusal :=
  s.ends ((mulDivRoundingUp s.arg0 s.arg1 s.arg2).map oneResult)

end Sys2Proof.Machine
end

