-- ==== Sys2Proof/Machine/LiquidityMath.lean ====
section
/-! DEFINITION. LiquidityMath: ADDDELTA (47_liquidity_math.md). The six conversions of R177 are out of
scope (00_scope.md R6). -/

namespace Sys2Proof.Machine

/-- `add_delta(x, y)`: wraparound, then detected (R175). -/
def addDelta (x : U128) (y : I128) : Cmd U128 :=
  if negative128 y then
    if sub128 x (magnitude128 y) < x then .ok (sub128 x (magnitude128 y))
    else raise .liquidityBelowZero
  else
    if x ≤ add128 x y then .ok (add128 x y)
    else raise .liquidityAboveMax

/-- ADDDELTA (R175). -/
def execAdddelta (s : State) : Host.Outcome State Fault Refusal :=
  s.ends ((addDelta (low128 s.arg0) (low128 s.arg1)).map fun z => oneResult (zext128 z))

end Sys2Proof.Machine
end

