-- ==== Sys2Proof/Machine/UnsafeMath.lean ====
section
/-! DEFINITION. UnsafeMath: ceiling division (42_unsafe_math.md). -/

namespace Sys2Proof.Machine

/-- `a/b + (1 if a%b≠0 else 0)` for `b != 0`; the increment never wraps (R100). -/
def ceilDiv (a b : U256) : U256 :=
  if remW a b ≠ 0#256 then addW (divW a b) 1#256 else divW a b

/-- `div_rounding_up(a, b, site)`: the engine's divider detects a zero divisor and reports the site of
the place (R100 to R102; 40_word_arithmetic.md R79). -/
def divRoundingUp (a b : U256) (site : Site) : Cmd U256 :=
  if b = 0#256 then raise site else .ok (ceilDiv a b)

/-- DIVRU (R100). -/
def execDivru (s : State) : Host.Outcome State Fault Refusal :=
  s.ends ((divRoundingUp s.arg0 s.arg1 .divruByZero).map oneResult)

end Sys2Proof.Machine
end

