-- ==== Sys2Proof/Machine/SqrtPriceMath.lean ====
section
/-! DEFINITION. SqrtPriceMath: NEXTIN, NEXTOUT, NEXTA0, NEXTA1, AMT0, AMT1, SAMT0, SAMT1
(45_sqrt_price_math.md). A fault of a called function ends the command with that function's site
(43_full_math.md R111). -/

namespace Sys2Proof.Machine

/-- `numerator1 = zext_256(L) << 96`; no bit is lost (R135). PRESUMED (log 19). -/
def numerator1 (liquidity : U128) : U256 := shlW (zext128 liquidity) 96

/-- "the product did not wrap": `product / amount == price`, for `amount != 0` (R140). -/
def productFits (amount price : U256) : Bool := decide (divW (mulW amount price) amount = price)

/-- The `add` branch of R140, for `amount != 0`: the first path, or the fall-back. -/
def nextFromAmount0Add (price : U256) (liquidity : U128) (amount : U256) : Cmd U256 :=
  let n1 := numerator1 liquidity
  let denominator := addW n1 (mulW amount price)
  if productFits amount price = true ∧ n1 ≤ denominator then mulDivRoundingUp n1 price denominator
  else divRoundingUp n1 (addW (divW n1 price) amount) .amount0AddByZero

/-- The `!add` branch of R140, for `amount != 0`. -/
def nextFromAmount0Sub (price : U256) (liquidity : U128) (amount : U256) : Cmd U256 :=
  let n1 := numerator1 liquidity
  let product := mulW amount price
  if productFits amount price = true ∧ product < n1 then mulDivRoundingUp n1 price (subW n1 product)
  else raise .amount0Removed

/-- `next_from_amount0_rounding_up(price, liquidity, amount, add)` (R140). -/
def nextFromAmount0 (price : U256) (liquidity : U128) (amount : U256) (add : Bool) : Cmd U256 :=
  if amount = 0#256 then .ok price
  else if add then nextFromAmount0Add price liquidity amount
  else nextFromAmount0Sub price liquidity amount

/-- The quotient of the `add` branch of R141: the plain division if the amount fits 160 bits, else
`mul_div`. -/
def amount1QuotientDown (liquidity : U128) (amount : U256) : Cmd U256 :=
  if amount ≤ maxU160 then
    if zext128 liquidity = 0#256 then raise .amount1AddByZero
    else .ok (divW (shlW amount 96) (zext128 liquidity))
  else mulDiv amount q96 (zext128 liquidity)

/-- The quotient of the `!add` branch of R141, rounded up. -/
def amount1QuotientUp (liquidity : U128) (amount : U256) : Cmd U256 :=
  if amount ≤ maxU160 then divRoundingUp (shlW amount 96) (zext128 liquidity) .amount1SubByZero
  else mulDivRoundingUp amount q96 (zext128 liquidity)

/-- "fails with Overflow if it exceeds the 160-bit ceiling": the test is on the true sum (R141,
R137). -/
def addPriceCeiling (price quotient : U256) : Cmd U256 :=
  if maxU160.toNat < price.toNat + quotient.toNat then raise .amount1Ceiling
  else .ok (addW price quotient)

/-- "fails with InvalidPrecondition if price ≤ quotient; else price - quotient" (R141). -/
def subtractFromPrice (price quotient : U256) : Cmd U256 :=
  if price ≤ quotient then raise .amount1Removed else .ok (subW price quotient)

/-- `next_from_amount1_rounding_down(price, liquidity, amount, add)` (R141). -/
def nextFromAmount1 (price : U256) (liquidity : U128) (amount : U256) (add : Bool) : Cmd U256 :=
  if add then (amount1QuotientDown liquidity amount).bind (addPriceCeiling price)
  else (amount1QuotientUp liquidity amount).bind (subtractFromPrice price)

/-- The two zero tests of NEXTIN and NEXTOUT, the price first (R138, R139). -/
def checkPriceLiquidity (price : U256) (liquidity : U128) : Cmd Unit :=
  if price = 0#256 then raise .nextPriceZero
  else if liquidity = 0#128 then raise .nextLiquidityZero
  else .ok ()

/-- `get_next_sqrt_price_from_input(price, liquidity, amountIn, zeroForOne)` (R138). -/
def nextPriceFromInput (price : U256) (liquidity : U128) (amountIn : U256) (zeroForOne : Bool) :
    Cmd U256 :=
  (checkPriceLiquidity price liquidity).bind fun _ =>
    if zeroForOne then nextFromAmount0 price liquidity amountIn true
    else nextFromAmount1 price liquidity amountIn true

/-- `get_next_sqrt_price_from_output(price, liquidity, amountOut, zeroForOne)` (R139). PRESUMED
(log 18). -/
def nextPriceFromOutput (price : U256) (liquidity : U128) (amountOut : U256) (zeroForOne : Bool) :
    Cmd U256 :=
  (checkPriceLiquidity price liquidity).bind fun _ =>
    if zeroForOne then nextFromAmount1 price liquidity amountOut false
    else nextFromAmount0 price liquidity amountOut false

/-- The lower of two prices, the source's `priceLow` (R142). -/
def lowerPrice (a b : U256) : U256 := if b < a then b else a

/-- The upper of two prices, the source's `priceHigh` (R142). -/
def upperPrice (a b : U256) : U256 := if b < a then a else b

/-- AMT0's value for prices in order, `low != 0`: both stages round up, or both down (R143). PRESUMED
(log 20). -/
def amount0Between (low high : U256) (liquidity : U128) (roundUp : Bool) : Cmd U256 :=
  let n1 := numerator1 liquidity
  let n2 := subW high low
  if roundUp then (mulDivRoundingUp n1 n2 high).map fun q => ceilDiv q low
  else (mulDiv n1 n2 high).map fun q => divW q low

/-- `amount0_delta(A, B, liquidity, round_up)` (R143). -/
def amount0Delta (a b : U256) (liquidity : U128) (roundUp : Bool) : Cmd U256 :=
  if lowerPrice a b = 0#256 then raise .delta0PriceZero
  else amount0Between (lowerPrice a b) (upperPrice a b) liquidity roundUp

/-- AMT1's value for prices in order (R144). -/
def amount1Between (low high : U256) (liquidity : U128) (roundUp : Bool) : Cmd U256 :=
  if roundUp then mulDivRoundingUp (zext128 liquidity) (subW high low) q96
  else mulDiv (zext128 liquidity) (subW high low) q96

/-- `amount1_delta(A, B, liquidity, round_up)` (R144). The zero test follows the source's text (log
21). -/
def amount1Delta (a b : U256) (liquidity : U128) (roundUp : Bool) : Cmd U256 :=
  if lowerPrice a b = 0#256 then raise .delta1PriceZero
  else amount1Between (lowerPrice a b) (upperPrice a b) liquidity roundUp

/-- `get_amount_0_delta(A, B, liquidityDelta)`: the result is a 256-bit two's-complement pattern, with
no range check (R145). -/
def signedAmount0Delta (a b : U256) (delta : I128) : Cmd U256 :=
  if negative128 delta then (amount0Delta a b (magnitude128 delta) false).map negW
  else amount0Delta a b delta true

/-- `get_amount_1_delta(A, B, liquidityDelta)` (R146). -/
def signedAmount1Delta (a b : U256) (delta : I128) : Cmd U256 :=
  if negative128 delta then (amount1Delta a b (magnitude128 delta) false).map negW
  else amount1Delta a b delta true

/-- NEXTIN (R138). -/
def execNextin (zeroForOne : Bool) (s : State) : Host.Outcome State Fault Refusal :=
  s.ends ((nextPriceFromInput s.arg0 (low128 s.arg1) s.arg2 zeroForOne).map oneResult)

/-- NEXTOUT (R139). -/
def execNextout (zeroForOne : Bool) (s : State) : Host.Outcome State Fault Refusal :=
  s.ends ((nextPriceFromOutput s.arg0 (low128 s.arg1) s.arg2 zeroForOne).map oneResult)

/-- NEXTA0 (R140). -/
def execNexta0 (add : Bool) (s : State) : Host.Outcome State Fault Refusal :=
  s.ends ((nextFromAmount0 s.arg0 (low128 s.arg1) s.arg2 add).map oneResult)

/-- NEXTA1 (R141). -/
def execNexta1 (add : Bool) (s : State) : Host.Outcome State Fault Refusal :=
  s.ends ((nextFromAmount1 s.arg0 (low128 s.arg1) s.arg2 add).map oneResult)

/-- AMT0 (R143). -/
def execAmt0 (roundUp : Bool) (s : State) : Host.Outcome State Fault Refusal :=
  s.ends ((amount0Delta s.arg0 s.arg1 (low128 s.arg2) roundUp).map oneResult)

/-- AMT1 (R144). -/
def execAmt1 (roundUp : Bool) (s : State) : Host.Outcome State Fault Refusal :=
  s.ends ((amount1Delta s.arg0 s.arg1 (low128 s.arg2) roundUp).map oneResult)

/-- SAMT0 (R145). -/
def execSamt0 (s : State) : Host.Outcome State Fault Refusal :=
  s.ends ((signedAmount0Delta s.arg0 s.arg1 (low128 s.arg2)).map oneResult)

/-- SAMT1 (R146). -/
def execSamt1 (s : State) : Host.Outcome State Fault Refusal :=
  s.ends ((signedAmount1Delta s.arg0 s.arg1 (low128 s.arg2)).map oneResult)

end Sys2Proof.Machine
end

