-- ==== Sys2Proof/Machine/SwapStep.lean ====
section
/-! DEFINITION. SwapStep: SWAPSTEP (48_swap_step.md). It composes FullMath and SqrtPriceMath and has
no fault of its own (R180, R183). PRESUMED (log 23): which delta is the amount in and which way each
rounds (R181). -/

namespace Sys2Proof.Machine

/-- "1e6", the fee denominator (00_scope.md R7). -/
def feeDenominator : U256 := 1000000#256

/-- The operands of SWAPSTEP (R180), and what R180 computes from them alone. -/
structure SwapOperands where
  current : U256
  target : U256
  liquidity : U128
  remaining : U256
  feePips : U32
deriving DecidableEq, Repr

/-- `zeroForOne <- current > target`, an unsigned and strict compare (R180). -/
def zeroForOne (o : SwapOperands) : Bool := decide (o.target < o.current)

/-- `exactIn <- not (remaining <s 0)` (R180). -/
def exactIn (o : SwapOperands) : Bool := !negative256 o.remaining

/-- `feeCompl <- 1000000 -w zext_256(feePips)` (R180, R182). -/
def feeCompl (o : SwapOperands) : U256 := subW feeDenominator (zext32 o.feePips)

/-- `want <- -w remaining`, an unsigned number from 1 to 2^255 (R180, R182). -/
def wanted (o : SwapOperands) : U256 := negW o.remaining

/-- The amount in between two prices, rounded up: token0 if `zeroForOne`, else token1 (R181). -/
def swapAmountIn (o : SwapOperands) (p q : U256) : Cmd U256 :=
  if zeroForOne o then amount0Delta p q o.liquidity true else amount1Delta p q o.liquidity true

/-- The amount out between two prices, rounded down: token1 if `zeroForOne`, else token0 (R181). -/
def swapAmountOut (o : SwapOperands) (p q : U256) : Cmd U256 :=
  if zeroForOne o then amount1Delta p q o.liquidity false else amount0Delta p q o.liquidity false

/-- The first half of R180: the next price, with the amount in and the amount out computed so far. -/
structure Reached where
  next : U256
  amountIn : U256
  amountOut : U256
deriving DecidableEq, Repr

/-- The exact-in branch of R180: "covers" is `>=` (R181). -/
def reachExactIn (o : SwapOperands) : Cmd Reached :=
  (mulDiv o.remaining (feeCompl o) feeDenominator).bind fun lessFee =>
    (swapAmountIn o o.target o.current).bind fun amountIn =>
      if amountIn ≤ lessFee then .ok ⟨o.target, amountIn, 0#256⟩
      else (nextPriceFromInput o.current o.liquidity lessFee (zeroForOne o)).map fun next =>
        ⟨next, amountIn, 0#256⟩

/-- The exact-out branch of R180. -/
def reachExactOut (o : SwapOperands) : Cmd Reached :=
  (swapAmountOut o o.target o.current).bind fun amountOut =>
    if amountOut ≤ wanted o then .ok ⟨o.target, 0#256, amountOut⟩
    else (nextPriceFromOutput o.current o.liquidity (wanted o) (zeroForOne o)).map fun next =>
      ⟨next, 0#256, amountOut⟩

/-- "if not (max and exactIn): amountIn <- …" (R180): the value already computed is kept only when the
target is reached in an exact-in step. -/
def finalAmountIn (o : SwapOperands) (r : Reached) : Cmd U256 :=
  if o.target = r.next ∧ exactIn o = true then .ok r.amountIn else swapAmountIn o r.next o.current

/-- "if not (max and not exactIn): amountOut <- …" (R180). -/
def finalAmountOut (o : SwapOperands) (r : Reached) : Cmd U256 :=
  if o.target = r.next ∧ exactIn o = false then .ok r.amountOut else swapAmountOut o r.next o.current

/-- "For exactOut, cap amountOut at |amountRemaining|" (R180). -/
def capAmountOut (o : SwapOperands) (amountOut : U256) : U256 :=
  if exactIn o = false ∧ wanted o < amountOut then wanted o else amountOut

/-- The fee (R180): all of the remainder if an exact-in step stops short of the target, else
`mul_div_rounding_up(amountIn, feePips, feeCompl)`. -/
def swapFee (o : SwapOperands) (next amountIn : U256) : Cmd U256 :=
  if exactIn o = true ∧ next ≠ o.target then .ok (subW o.remaining amountIn)
  else mulDivRoundingUp amountIn (zext32 o.feePips) (feeCompl o)

/-- `compute_swap_step` (R180): the amount in is recomputed before the amount out. -/
def computeSwapStep (o : SwapOperands) : Cmd Success :=
  (if exactIn o then reachExactIn o else reachExactOut o).bind fun r =>
    (finalAmountIn o r).bind fun amountIn =>
      (finalAmountOut o r).bind fun amountOut =>
        (swapFee o r.next amountIn).map fun fee =>
          { res0 := r.next, res1 := amountIn, res2 := capAmountOut o amountOut, res3 := fee }

/-- SWAPSTEP's operands in ARG0 to ARG4 (R180; 30_encoding.md R56). -/
def State.swapOperands (s : State) : SwapOperands where
  current := s.arg0
  target := s.arg1
  liquidity := low128 s.arg2
  remaining := s.arg3
  feePips := low32 s.arg4

/-- SWAPSTEP (R180). -/
def execSwapstep (s : State) : Host.Outcome State Fault Refusal :=
  s.ends (computeSwapStep s.swapOperands)

end Sys2Proof.Machine
end

