-- ==== Sys2Proof/Machine/TickBitmap.lean ====
section
/-! DEFINITION. TickBitmap: BMPOS, FLIP, NEXTINIT (46_tick_bitmap.md). FLIP and NEXTINIT are the only
commands that reach W (20_memory.md R34), each by one read of one word; FLIP writes the same word. -/

namespace Sys2Proof.Machine

/-- The word index of a compressed tick: the low 16 bits of `ct >>a 8` (R160; 20_memory.md R49). -/
def wordIndex (ct : I32) : I16 := (sar32 ct 8).setWidth 16

/-- The bit position of a compressed tick: `ct[7:0]` (R160). -/
def bitPosition (ct : I32) : U8 := mod256 ct

/-- `spacing <= 0`, as an I32 (R161). -/
def spacingBad (spacing : I32) : Bool := decide (spacing.toInt ≤ 0)

/-- `compress(tick, spacing)` for `spacing > 0`: floor division with correction (R163). -/
def compress (tick spacing : I32) : I32 :=
  if tick.toInt < 0 ∧ rem32 tick spacing ≠ 0#32 then sub32 (div32 tick spacing) 1#32
  else div32 tick spacing

/-- `1 << b`. -/
def bitMask (b : U8) : U256 := shlW 1#256 b.toNat

/-- `mask_lte(b)`: bits 0 to `b` inclusive (R165). -/
def maskLte (b : U8) : U256 := addW (subW (bitMask b) 1#256) (bitMask b)

/-- `mask_gt(b)`: bits `b` to 255 inclusive (R165; 90_conflicts.md C4; log 22). -/
def maskGt (b : U8) : U256 := notW (subW (bitMask b) 1#256)

/-- FLIP's checks before the word read; the compressed tick, by exact division (R164). -/
def flipTarget (tick spacing : I32) : Cmd I32 :=
  if spacingBad spacing then raise .spacingNotPositive
  else if rem32 tick spacing ≠ 0#32 then raise .spacingMismatch
  else .ok (div32 tick spacing)

/-- FLIP's word write: the word read with the bit of the compressed tick inverted (R164). -/
def flipStore (ct : I32) (word : U256) : Success :=
  { store := some (wordIndex ct, xorW word (bitMask (bitPosition ct))) }

/-- The compressed tick whose word NEXTINIT reads: `ct` at or below, `ct + 1` above (R166). -/
def searchStart (lte : Bool) (tick spacing : I32) : I32 :=
  if lte then compress tick spacing else add32 (compress tick spacing) 1#32

/-- The compressed result of a search at or below, from the word read (R166). -/
def foundLte (ct : I32) (word : U256) : I32 × Bool :=
  let b := bitPosition ct
  let masked := andW word (maskLte b)
  if masked ≠ 0#256 then (sub32 ct (BitVec.ofNat 32 (b.toNat - highestBit masked)), true)
  else (sub32 ct (BitVec.ofNat 32 b.toNat), false)

/-- The compressed result of a search above, from the word read (R166). -/
def foundGt (ct1 : I32) (word : U256) : I32 × Bool :=
  let b := bitPosition ct1
  let masked := andW word (maskGt b)
  if masked ≠ 0#256 then (add32 ct1 (BitVec.ofNat 32 (lowestBit masked - b.toNat)), true)
  else (add32 ct1 (BitVec.ofNat 32 (255 - b.toNat)), false)

/-- NEXTINIT's results: the compressed tick times the spacing, and `initialized` (R166). PRESUMED (log
22): the spacing multiplies the whole sum. -/
def searchResults (lte : Bool) (start spacing : I32) (word : U256) : Success :=
  let found := if lte then foundLte start word else foundGt start word
  { res0 := sext32 (mul32 found.1 spacing), res1 := ofBool found.2 }

/-- BMPOS (R162): it reads no word and raises no fault. -/
def execBmpos (s : State) : Host.Outcome State Fault Refusal :=
  s.ends (.ok { res0 := sext16 (wordIndex (low32 s.arg0)), res1 := zext8 (bitPosition (low32 s.arg0)) })

/-- FLIP (R164): the spacing, then the multiple, then the word read; the write only on success. -/
def execFlip (s : State) : Host.Outcome State Fault Refusal :=
  match flipTarget (low32 s.arg0) (low32 s.arg1) with
  | .error site => s.ends (raise site)
  | .ok ct => s.afterWordRead.ends ((s.wordRead (wordIndex ct)).map (flipStore ct))

/-- NEXTINIT (R166): the spacing, then the word read; W is never written. -/
def execNextinit (lte : Bool) (s : State) : Host.Outcome State Fault Refusal :=
  let spacing := low32 s.arg1
  let start := searchStart lte (low32 s.arg0) spacing
  if spacingBad spacing then s.ends (raise .spacingNotPositive)
  else s.afterWordRead.ends ((s.wordRead (wordIndex start)).map (searchResults lte start spacing))

end Sys2Proof.Machine
end

