-- ==== Sys2Proof/Machine/TickMath.lean ====
section
/-! DEFINITION. TickMath: TICK2SQRT and SQRT2TICK (44_tick_math.md).

PRESUMED (log 14, log 15): the source prints no constant but the two end values; the spec supplies
the table, the bounds and the logarithm constants "from general knowledge, not in source" (R121,
R124, R126). -/

namespace Sys2Proof.Machine

/-- `MAX_TICK`; `MIN_TICK` is its negation (R120). -/
def maxTick : Nat := 887272

/-- `MIN_SQRT_RATIO` (R124). -/
def minSqrtRatio : U256 := 4295128739#256

/-- `MAX_SQRT_RATIO` (R124). -/
def maxSqrtRatio : U256 := 1461446703485210103287273052203988822378723970342#256

/-- The seed constant `K[0]` of an odd `|tick|` (R121). -/
def seedOdd : U256 := 0xfffcb933bd6fad37aa2d162d1a594001#256

/-- The seed constant `ONE = 2^128` of an even `|tick|` (R121). -/
def seedEven : U256 := 0x100000000000000000000000000000000#256

/-- The constants `K[1]` to `K[19]` with their bit numbers (R121). -/
def ratioSteps : List (Nat × U256) :=
  [(1, 0xfff97272373d413259a46990580e213a#256),
    (2, 0xfff2e50f5f656932ef12357cf3c7fdcc#256),
    (3, 0xffe5caca7e10e4e61c3624eaa0941cd0#256),
    (4, 0xffcb9843d60f6159c9db58835c926644#256),
    (5, 0xff973b41fa98c081472e6896dfb254c0#256),
    (6, 0xff2ea16466c96a3843ec78b326b52861#256),
    (7, 0xfe5dee046a99a2a811c461f1969c3053#256),
    (8, 0xfcbe86c7900a88aedcffc83b479aa3a4#256),
    (9, 0xf987a7253ac413176f2b074cf7815e54#256),
    (10, 0xf3392b0822b70005940c7a398e4b70f3#256),
    (11, 0xe7159475a2c29b7443b29c7fa6e889d9#256),
    (12, 0xd097f3bdfd2022b8845ad8f792aa5825#256),
    (13, 0xa9f746462d870fdf8a65dc1f90e061e5#256),
    (14, 0x70d869a156d2a1b890bb3df62baf32f7#256),
    (15, 0x31be135f97d08fd981231505542fcfa6#256),
    (16, 0x9aa508b5b7a84e1c677de54f3e99bc9#256),
    (17, 0x5d6af8dedb81196699c329225ee604#256),
    (18, 0x2216e584f5fa1ea926041bedfe98#256),
    (19, 0x48a170391f7dc42444e8fa2#256)]

/-- One step of the loop of R122: multiply by `K[i]` if bit `i` of `|tick|` is set. -/
def ratioStep (abs : Nat) (ratio : U256) (step : Nat × U256) : U256 :=
  if abs.testBit step.1 then shrW (mulW ratio step.2) 128 else ratio

/-- The Q128.128 ratio of the tick `-abs` (R122). -/
def negativeRatio (abs : Nat) : U256 :=
  ratioSteps.foldl (ratioStep abs) (if abs.testBit 0 then seedOdd else seedEven)

/-- The Q128.128 ratio of a tick: "if tick > 0: ratio <- MAXU256 / ratio" (R122). -/
def tickRatio (tick : Int) : U256 :=
  if 0 < tick then divW maxU256 (negativeRatio tick.natAbs) else negativeRatio tick.natAbs

/-- Q128.128 to Q64.96, rounding up (R122). -/
def toQ96 (ratio : U256) : U256 :=
  addW (shrW ratio 32) (if ratio.setWidth 32 ≠ 0#32 then 1#256 else 0#256)

/-- The forward conversion of a legal tick (R122). -/
def sqrtRatio (tick : Int) : U256 := toQ96 (tickRatio tick)

/-- `get_sqrt_ratio_at_tick(tick)` (R122): the range test is on the magnitude as an unsigned number,
so it covers `tick = -2^31`. -/
def getSqrtRatioAtTick (tick : I32) : Cmd U256 :=
  if maxTick < tick.toInt.natAbs then raise .tickRange else .ok (sqrtRatio tick.toInt)

/-- The tick `-887272 + offset`. -/
def tickAtOffset (offset : Nat) : Int := (offset : Int) - (maxTick : Int)

/-- Whether the tick at `offset` is one SQRT2TICK may answer (up to 887271) and its forward price is
at most `p`. -/
def offsetReaches (p : U256) (offset : Nat) : Bool :=
  decide (offset < 2 * maxTick) && decide (sqrtRatio (tickAtOffset offset) ≤ p)

/-- The greatest offset that reaches `p`, found from its highest bit down: bit `n - 1` to bit 0 of the
offset are decided, `offset` holds the bits above. -/
def searchOffset (p : U256) : Nat → Nat → Nat
  | 0, offset => offset
  | n + 1, offset =>
    if offsetReaches p (offset + 2 ^ n) then searchOffset p n (offset + 2 ^ n)
    else searchOffset p n offset

/-- "the greatest tick t in -887272..=887271 with get_sqrt_ratio_at_tick(t) <= p" (R125). DEDUCED
(log 16): the search relies on the forward function rising with the tick (R123). -/
def greatestTick (p : U256) : I32 := BitVec.ofInt 32 (tickAtOffset (searchOffset p 21 0))

/-- `get_tick_at_sqrt_ratio(p)`, the contract (R125). -/
def getTickAtSqrtRatio (p : U256) : Cmd I32 :=
  if p < minSqrtRatio ∨ maxSqrtRatio ≤ p then raise .priceRange else .ok (greatestTick p)

/-- `LOG2_FRAC_LOW`: the lowest fraction bit the procedure of R126 computes (00_scope.md R8). -/
def log2FracLow : Nat := 50

/-- The multiplier `LOG_MUL` of R126. -/
def logMul : U256 := 255738958999603826347141#256

/-- The error bound `ERR_LOW` of R126. -/
def errLow : U256 := 3402992956809132418596140100660247210#256

/-- The error bound `ERR_HIGH` of R126. -/
def errHigh : U256 := 291339464771989622907027621153398088495#256

/-- The fraction bits of the logarithm from bit `top` down, `n` of them (the loop of R126). -/
def logFraction : Nat → Nat → U256 → U256 → U256
  | 0, _, _, log2 => log2
  | n + 1, top, r, log2 =>
    let square := shrW (mulW r r) 127
    let f := shrW square 128
    logFraction n (top - 1) (shrW square f.toNat) (orW log2 (shlW f top))

/-- The base-2 logarithm of a Q128.128 ratio, a Q.64 number in the signed view, computed down to
fraction bit `low` (R126). -/
def log2Q64 (low : Nat) (ratio : U256) : U256 :=
  let m := highestBit ratio
  let r := if 128 ≤ m then shrW ratio (m - 127) else shlW ratio (127 - m)
  logFraction (64 - low) 63 r (shlW (subW (BitVec.ofNat 256 m) 128#256) 64)

/-- The source's procedure for the inverse conversion of a price in range (R126). It is not what
SQRT2TICK executes: the contract of R125 binds (log 17). -/
def tickAtSqrtRatioProcedure (low : Nat) (p : U256) : I32 :=
  let logSqrt := mulW (log2Q64 low (shlW p 32)) logMul
  let tickLow := low32 (sarW (subW logSqrt errLow) 128)
  let tickHigh := low32 (sarW (addW logSqrt errHigh) 128)
  if tickLow = tickHigh then tickLow
  else if sqrtRatio tickHigh.toInt ≤ p then tickHigh
  else tickLow

/-- TICK2SQRT (R122). -/
def execTick2sqrt (s : State) : Host.Outcome State Fault Refusal :=
  s.ends ((getSqrtRatioAtTick (low32 s.arg0)).map oneResult)

/-- SQRT2TICK (R125). -/
def execSqrt2tick (s : State) : Host.Outcome State Fault Refusal :=
  s.ends ((getTickAtSqrtRatio s.arg0).map fun t => oneResult (sext32 t))

end Sys2Proof.Machine
end

