-- ==== Sys2Proof/Machine/Dispatch.lean ====
section
/-! DEFINITION. One arm per command: the meaning it calls (30_encoding.md R52). -/

namespace Sys2Proof.Machine

/-- The operation a legal command word names, run to its end (10_state.md R20). CMD already holds the
command word. -/
def exec (i : Instr) (s : State) : Host.Outcome State Fault Refusal :=
  match i with
  | .msb => Sys2Proof.Machine.execMsb s
  | .lsb => Sys2Proof.Machine.execLsb s
  | .divru => Sys2Proof.Machine.execDivru s
  | .mulmod => Sys2Proof.Machine.execMulmod s
  | .muldiv => Sys2Proof.Machine.execMuldiv s
  | .muldivru => Sys2Proof.Machine.execMuldivru s
  | .tick2sqrt => Sys2Proof.Machine.execTick2sqrt s
  | .sqrt2tick => Sys2Proof.Machine.execSqrt2tick s
  | .nextin zeroForOne => Sys2Proof.Machine.execNextin zeroForOne s
  | .nextout zeroForOne => Sys2Proof.Machine.execNextout zeroForOne s
  | .nexta0 add => Sys2Proof.Machine.execNexta0 add s
  | .nexta1 add => Sys2Proof.Machine.execNexta1 add s
  | .amt0 roundUp => Sys2Proof.Machine.execAmt0 roundUp s
  | .amt1 roundUp => Sys2Proof.Machine.execAmt1 roundUp s
  | .samt0 => Sys2Proof.Machine.execSamt0 s
  | .samt1 => Sys2Proof.Machine.execSamt1 s
  | .bmpos => Sys2Proof.Machine.execBmpos s
  | .flip => Sys2Proof.Machine.execFlip s
  | .nextinit lte => Sys2Proof.Machine.execNextinit lte s
  | .adddelta => Sys2Proof.Machine.execAdddelta s
  | .swapstep => Sys2Proof.Machine.execSwapstep s

end Sys2Proof.Machine
end

