-- ==== Sys2Proof/Machine/Transactions.lean ====
section
/-! DEFINITION. What can happen at the engine from outside: the four host transactions, the byte binding
of two of them, and reset (10_state.md R20 to R22; 20_memory.md R33, R42, R43;
70_reset_and_hazards.md R220). -/

namespace Sys2Proof.Machine

/-- CMD's register number (10_state.md R11). -/
def cmdNumber : Nat := 0x00

/-- The engine's step on a write of the command word `c` to CMD: store it, decode it, run the command
it names or fail with IllegalCommand (10_state.md R20; 30_encoding.md R55). -/
def runCommand (s : State) (c : U32) : Host.Outcome State Fault Refusal :=
  match decode c with
  | .ok i => exec i (s.setCmd c)
  | .error why => (s.setCmd c).ends (raise (siteOfIllegal why))

/-- `RegWrite(n, v)`: a write to CMD starts a command; a write to CMD transfers 32 bits (10_state.md R21,
R22; log 8). -/
def registerWrite (s : State) (n : Nat) (v : U256) : Host.Outcome State Fault Refusal :=
  if n = cmdNumber then runCommand s (low32 v) else .next (s.storeRegister n v)

/-- `ENGINE_BASE`, "a multiple of 512" (20_memory.md R42). -/
def State.engineBase (s : State) : Nat := 512 * s.platform.basePage

/-- The map of the byte binding: the register at a byte offset, with its size in bytes; offsets at
which no register starts are no entry (20_memory.md R42). -/
def registerAtOffset (offset : Nat) : Option (Nat × Nat) :=
  match offset with
  | 0x000 => some (0x00, 4)
  | 0x004 => some (0x01, 4)
  | 0x020 => some (0x08, 32)
  | 0x040 => some (0x09, 32)
  | 0x060 => some (0x0A, 32)
  | 0x080 => some (0x0B, 32)
  | 0x0A0 => some (0x0C, 32)
  | 0x100 => some (0x10, 32)
  | 0x120 => some (0x11, 32)
  | 0x140 => some (0x12, 32)
  | 0x160 => some (0x13, 32)
  | _ => none

/-- The register an access of the byte binding covers: "its address is the register's offset and its
size is the register's size" (20_memory.md R43). -/
def State.registerCovered (s : State) (addr size : Nat) : Option Nat :=
  if addr < s.engineBase then none
  else
    match registerAtOffset (addr - s.engineBase) with
    | some (n, width) => if size = width then some n else none
    | none => none

/-- A write access of the byte binding: the register transaction it is, or no change of the engine's
state (20_memory.md R42, R43). -/
def busWrite (s : State) (addr : Nat) (bytes : List Byte) : Host.Outcome State Fault Refusal :=
  match s.registerCovered addr bytes.length with
  | some n => registerWrite s n (BitVec.ofNat 256 (natOfBytes bytes))
  | none => .next s

/-- The bytes a read access of the byte binding returns; "a read returns 0" where it covers no
register (20_memory.md R42, R43). -/
def State.busBytes (s : State) (addr size : Nat) : List Byte :=
  match s.registerCovered addr size with
  | some n => bytesOfNat size (s.readRegister n).toNat
  | none => List.replicate size 0#8

/-- One event from outside. -/
def perform (s : State) : Event → Host.Outcome State Fault Refusal
  | .regWrite n v => registerWrite s n v
  | .regRead n => .next (s.reply (.value (s.readRegister n)))
  | .wordWrite idx v => .next (s.hostWordWrite idx v)
  | .wordRead idx => .next (s.reply (.value (s.words.read idx)))
  | .busWrite addr bytes => busWrite s addr bytes
  | .busRead addr size => .next (s.reply (.bytes (s.busBytes addr size)))
  | .reset => .next s.resetRegisters

/-- The next event, or nothing: with no event the engine is idle, and its registers hold
(10_state.md R20; 60_exceptions.md R215; log 6). -/
def performNext (s : State) : Host.Outcome State Fault Refusal :=
  match s.pending with
  | [] => .next s
  | e :: rest => perform (s.setPending rest) e

/-- The host's next transaction is a write of the word `w` of `nbits` bits to CMD; what it meant to do
before comes after. -/
def State.offerCommand (s : State) (nbits w : Nat) : State :=
  s.setPending (.regWrite cmdNumber (BitVec.ofNat 256 (tableWord nbits w)) :: s.pending)

end Sys2Proof.Machine
end

