-- ==== Sys2Proof/Machine/Step.lean ====
section
/-! DEFINITION. One step of the machine: one event from outside (10_state.md R20, R21). There is no
program counter and no fetch (R19): the order of commands is the order of the writes to CMD. -/

namespace Sys2Proof.Machine

/-- One step: the next event of the list, performed whole. -/
def step (s : State) : Host.Outcome State Fault Refusal := performNext s

/-- The state in which the next event is a write of the command word `w` to CMD, so that the very next
step runs it (log 6). -/
def State.withFetchWord (s : State) (nbits w : Nat) : State := s.offerCommand nbits w

end Sys2Proof.Machine
end

