-- ==== Sys2Proof/Safety.lean ====
section
/-! DEFINITION. The terms the claims use: how a command leaves the state in success and in a fault,
written out as the rules give it; which STATUS values and which faults exist; the invariant every
step keeps; and the exact results of the operations over unbounded integers.

Nothing here is used by the machine. The values are written from the spec a second time, in another
form than the machine has them (STATUS as whole words, results as natural numbers), so that a claim
compares two readings of the spec. -/

namespace Sys2Proof.Safety

open Sys2Proof.Machine

/-- The state after a command that succeeded: STATUS is `0x1000`, RES0 to RES3 are as given, everything
else is unchanged (10_state.md R12, R13, R20). -/
def completed (s : State) (r0 r1 r2 r3 : U256) : State :=
  { s with status := 0x1000#32, res0 := r0, res1 := r1, res2 := r2, res3 := r3 }

/-- The state after a command that failed with this STATUS: RES0 to RES3 are 0, everything else is
unchanged (60_exceptions.md R196). -/
def faulted (s : State) (status : U32) : State :=
  { s with status := status, res0 := 0#256, res1 := 0#256, res2 := 0#256, res3 := 0#256 }

/-- RES0 to RES3 are 0 (10_state.md R13). -/
def resultsZero (s : State) : Prop :=
  s.res0 = 0#256 ∧ s.res1 = 0#256 ∧ s.res2 = 0#256 ∧ s.res3 = 0#256

/-- The 24 STATUS values of a fault of a legal command (95_test_vectors.md section 2.0). -/
def commandFaults : List U32 :=
  [0x1011#32, 0x1021#32, 0x1032#32, 0x1042#32, 0x1052#32, 0x1063#32, 0x1073#32, 0x1085#32,
    0x1096#32, 0x10AB#32, 0x10BC#32, 0x10C4#32, 0x10D3#32, 0x10E4#32, 0x10FB#32, 0x1102#32,
    0x1112#32, 0x1122#32, 0x1134#32, 0x1149#32, 0x115A#32, 0x1167#32, 0x1178#32, 0x11AB#32]

/-- The two STATUS values of an illegal command word (95_test_vectors.md section 2.0). -/
def illegalFaults : List U32 := [0x118D#32, 0x119D#32]

/-- The faults of a command's row of R194, as STATUS values (60_exceptions.md R194, with the modifiers
where the row names them; AMT0 and SAMT0, AMT1 and SAMT1 share a row). -/
def allowedFaults : Instr → List U32
  | .msb => [0x1011#32]
  | .lsb => [0x1021#32]
  | .divru => [0x1032#32]
  | .mulmod => [0x1042#32]
  | .muldiv => [0x1052#32, 0x1063#32]
  | .muldivru => [0x1052#32, 0x1063#32, 0x1073#32]
  | .tick2sqrt => [0x1085#32]
  | .sqrt2tick => [0x1096#32]
  | .nextin true => [0x10AB#32, 0x10BC#32, 0x1112#32]
  | .nextin false => [0x10AB#32, 0x10BC#32, 0x1063#32, 0x10D3#32]
  | .nextout true => [0x10AB#32, 0x10BC#32, 0x1063#32, 0x1073#32, 0x10E4#32]
  | .nextout false => [0x10AB#32, 0x10BC#32, 0x1063#32, 0x1073#32, 0x10C4#32]
  | .nexta0 true => [0x1052#32, 0x1112#32]
  | .nexta0 false => [0x10C4#32, 0x1063#32, 0x1073#32]
  | .nexta1 true => [0x1102#32, 0x1063#32, 0x10D3#32]
  | .nexta1 false => [0x1122#32, 0x1063#32, 0x1073#32, 0x10E4#32]
  | .amt0 _ => [0x10FB#32]
  | .amt1 _ => [0x11AB#32, 0x1063#32]
  | .samt0 => [0x10FB#32]
  | .samt1 => [0x11AB#32, 0x1063#32]
  | .bmpos => []
  | .flip => [0x1134#32, 0x1149#32, 0x115A#32]
  | .nextinit _ => [0x1134#32, 0x115A#32]
  | .adddelta => [0x1167#32, 0x1178#32]
  | .swapstep => [0x10FB#32, 0x11AB#32, 0x1063#32, 0x1073#32, 0x10D3#32, 0x1052#32, 0x1112#32,
      0x10C4#32, 0x10E4#32]

/-- The RES registers a command does not name are 0 (30_encoding.md R56; 10_state.md R13). -/
def unnamedZero (i : Instr) (s : State) : Prop :=
  match i with
  | .msb | .lsb | .divru | .mulmod | .muldiv | .muldivru | .tick2sqrt | .sqrt2tick =>
    s.res1 = 0#256 ∧ s.res2 = 0#256 ∧ s.res3 = 0#256
  | .nextin _ | .nextout _ | .nexta0 _ | .nexta1 _ | .amt0 _ | .amt1 _ | .samt0 | .samt1 =>
    s.res1 = 0#256 ∧ s.res2 = 0#256 ∧ s.res3 = 0#256
  | .bmpos | .nextinit _ => s.res2 = 0#256 ∧ s.res3 = 0#256
  | .flip => resultsZero s
  | .adddelta => s.res1 = 0#256 ∧ s.res2 = 0#256 ∧ s.res3 = 0#256
  | .swapstep => True

/-- What STATUS and RES say is the outcome of the command CMD holds: none has run since reset; or a
legal command succeeded; or a legal command failed; or an illegal word failed (10_state.md R13 to
R15, R20, R25). -/
def OutcomeMatchesCommand (s : State) : Prop :=
  (s.status = 0#32 ∧ s.cmd = 0#32 ∧ resultsZero s)
    ∨ (∃ i : Instr, s.cmd = encode i ∧ s.status = 0x1000#32 ∧ unnamedZero i s)
    ∨ (∃ i : Instr, s.cmd = encode i ∧ s.status ∈ commandFaults ∧ resultsZero s)
    ∨ ((∀ i : Instr, s.cmd ≠ encode i) ∧ s.status ∈ illegalFaults ∧ resultsZero s)

/-- The invariant: W is in canonical form and the outcome registers agree with CMD. -/
def Inv (s : State) : Prop := s.words.wf = true ∧ OutcomeMatchesCommand s

/-- The 28 legal command words (30_encoding.md R52 to R54), written out. -/
def legalWords : List U32 :=
  [0x00000020#32, 0x00000021#32, 0x00000030#32, 0x00000040#32, 0x00000041#32, 0x00000042#32,
    0x00000050#32, 0x00000051#32, 0x00000060#32, 0x00000160#32, 0x00000061#32, 0x00000161#32,
    0x00000062#32, 0x00000162#32, 0x00000063#32, 0x00000163#32, 0x00000064#32, 0x00000164#32,
    0x00000065#32, 0x00000165#32, 0x00000066#32, 0x00000067#32, 0x00000070#32, 0x00000071#32,
    0x00000072#32, 0x00000172#32, 0x00000080#32, 0x00000090#32]

/-- The operands a command reads: the bits R56 and R16 give it of its ARG registers, as numbers. -/
def operandView (i : Instr) (s : State) : List Nat :=
  match i with
  | .msb | .lsb | .sqrt2tick => [s.arg0.toNat]
  | .divru => [s.arg0.toNat, s.arg1.toNat]
  | .mulmod | .muldiv | .muldivru => [s.arg0.toNat, s.arg1.toNat, s.arg2.toNat]
  | .tick2sqrt | .bmpos => [s.arg0.toNat % 2 ^ 32]
  | .nextin _ | .nextout _ | .nexta0 _ | .nexta1 _ =>
    [s.arg0.toNat, s.arg1.toNat % 2 ^ 128, s.arg2.toNat]
  | .amt0 _ | .amt1 _ | .samt0 | .samt1 => [s.arg0.toNat, s.arg1.toNat, s.arg2.toNat % 2 ^ 128]
  | .flip | .nextinit _ => [s.arg0.toNat % 2 ^ 32, s.arg1.toNat % 2 ^ 32]
  | .adddelta => [s.arg0.toNat % 2 ^ 128, s.arg1.toNat % 2 ^ 128]
  | .swapstep =>
    [s.arg0.toNat, s.arg1.toNat, s.arg2.toNat % 2 ^ 128, s.arg3.toNat, s.arg4.toNat % 2 ^ 32]

/-- `ceil(a / b)` for `b != 0`. -/
def ceilQ (a b : Nat) : Nat := (a + b - 1) / b

/-- `floor(a / b)` or `ceil(a / b)`. -/
def quot (up : Bool) (a b : Nat) : Nat := if up then ceilQ a b else a / b

/-- The tick operand `signed_32(r[31:0])` (10_state.md R16). -/
def tickOf (r : U256) : Int := (r.setWidth 32).toInt

/-- The liquidity operand `r[127:0]` (10_state.md R16). -/
def liquidityOf (r : U256) : Nat := r.toNat % 2 ^ 128

/-- The liquidity change `signed_128(r[127:0])` (10_state.md R16). -/
def deltaOf (r : U256) : Int := (r.setWidth 128).toInt

/-- The decimal column of the forward table, `K[1]` to `K[19]` (44_tick_math.md R121). -/
def forwardTable : List Nat :=
  [340248342086729790484326174814286782778,
    340214320654664324051920982716015181260,
    340146287995602323631171512101879684304,
    340010263488231146823593991679159461444,
    339738377640345403697157401104375502016,
    339195258003219555707034227454543997025,
    338111622100601834656805679988414885971,
    335954724994790223023589805789778977700,
    331682121138379247127172139078559817300,
    323299236684853023288211250268160618739,
    307163716377032989948697243942600083929,
    277268403626896220162999269216087595045,
    225923453940442621947126027127485391333,
    149997214084966997727330242082538205943,
    66119101136024775622716233608466517926,
    12847376061809297530290974190478138313,
    485053260817066172746253684029974020,
    691415978906521570653435304214168,
    1404880482679654955896180642]

/-- The running ratio after the bits of `abs` from bit `i` up: exact product, then `>> 128`, over
natural numbers (44_tick_math.md R122). -/
def forwardRatio (abs : Nat) : Nat → List Nat → Nat → Nat
  | _, [], ratio => ratio
  | i, k :: ks, ratio =>
    forwardRatio abs (i + 1) ks (if abs / 2 ^ i % 2 = 1 then ratio * k / 2 ^ 128 else ratio)

/-- The forward price of a tick over natural numbers: R122 with no operation that could wrap. -/
def forwardPrice (tick : Int) : Nat :=
  let seed := if tick.natAbs % 2 = 1 then 340265354078544963557816517032075149313 else 2 ^ 128
  let ratio := forwardRatio tick.natAbs 1 forwardTable seed
  ceilQ (if 0 < tick then (2 ^ 256 - 1) / ratio else ratio) (2 ^ 32)

/-- The amount of token0 between two prices (45_sqrt_price_math.md R143): both stages round up, or both
down. -/
def amount0 (up : Bool) (p q liquidity : Nat) : Nat :=
  quot up (quot up (liquidity * 2 ^ 96 * (max p q - min p q)) (max p q)) (min p q)

/-- The amount of token1 between two prices (45_sqrt_price_math.md R144). -/
def amount1 (up : Bool) (p q liquidity : Nat) : Nat :=
  quot up (liquidity * (max p q - min p q)) (2 ^ 96)

/-- Of the two amounts of token1 only the one rounded up needs more than 256 bits: the floor is
`2^256 - 1` and there is a remainder (43_full_math.md R108 in 45_sqrt_price_math.md R144; log 35). -/
def onlyCeilingOverflows (p q liquidity : Nat) : Prop :=
  amount1 false p q liquidity < 2 ^ 256 ∧ 2 ^ 256 ≤ amount1 true p q liquidity

/-- The operands on which AMT1 rounding up and SAMT1 end at SITE `0x07`, outside their row of R194
(log 35). -/
def raisesPastRow (i : Instr) (s : State) : Prop :=
  (i = .amt1 true ∧ onlyCeilingOverflows s.arg0.toNat s.arg1.toNat (liquidityOf s.arg2))
    ∨ (i = .samt1 ∧ 0 ≤ deltaOf s.arg2
      ∧ onlyCeilingOverflows s.arg0.toNat s.arg1.toNat (deltaOf s.arg2).natAbs)

/-- The amount in of a swap step: token0 if `zeroForOne`, rounded up (48_swap_step.md R181). -/
def swapIn (zeroForOne : Bool) (p q liquidity : Nat) : Nat :=
  if zeroForOne then amount0 true p q liquidity else amount1 true p q liquidity

/-- The amount out of a swap step: token1 if `zeroForOne`, rounded down (48_swap_step.md R181). -/
def swapOut (zeroForOne : Bool) (p q liquidity : Nat) : Nat :=
  if zeroForOne then amount1 false p q liquidity else amount0 false p q liquidity

/-- The operands of a swap step inside the bounds the host keeps (70_reset_and_hazards.md R229): both
prices from 1 to 2^160 - 1, the fee below 1000000 pips. -/
def swapInBounds (s : State) : Prop :=
  0 < s.arg0.toNat ∧ s.arg0.toNat < 2 ^ 160 ∧ 0 < s.arg1.toNat ∧ s.arg1.toNat < 2 ^ 160
    ∧ s.arg4.toNat % 2 ^ 32 < 1000000

/-- `zeroForOne` of a swap step (48_swap_step.md R180). -/
def swapDown (s : State) : Bool := decide (s.arg1.toNat < s.arg0.toNat)

/-- The liquidity operand of a swap step. -/
def swapLiquidity (s : State) : Nat := liquidityOf s.arg2

/-- The amount in of a swap step between two prices, for its direction and its liquidity
(48_swap_step.md R181). -/
def stepIn (s : State) (p q : Nat) : Nat := swapIn (swapDown s) p q (swapLiquidity s)

/-- The amount out of a swap step between two prices, likewise. -/
def stepOut (s : State) (p q : Nat) : Nat := swapOut (swapDown s) p q (swapLiquidity s)

/-- The fee operand of a swap step in pips. -/
def feeOf (s : State) : Nat := s.arg4.toNat % 2 ^ 32

/-- `feeCompl`, wrapped modulo 2^256 for a fee above 1000000 pips (48_swap_step.md R180, R182). -/
def feeComplOf (s : State) : Nat := (2 ^ 256 + 1000000 - feeOf s) % 2 ^ 256

/-- `lessFee` of an exact-in step (48_swap_step.md R180), before the check that it fits. -/
def lessFee (s : State) : Nat := s.arg3.toNat * feeComplOf s / 1000000

/-- The fee of a step by the second formula (48_swap_step.md R180), for `feeCompl != 0` and before the
check that it fits. -/
def fullFee (s : State) (amountIn : Nat) : Nat := ceilQ (amountIn * feeOf s) (feeComplOf s)

/-- STATUS of a rounded-up quotient `ceil(n / d)`, `d != 0`, that does not fit 256 bits: the floor is
tested before the increment (43_full_math.md R108). -/
def ceilFault (n d : Nat) : U32 := if 2 ^ 256 ≤ n / d then 0x1063#32 else 0x1073#32

/-- STATUS of a step whose amount of token1 in, between two prices, does not fit 256 bits
(45_sqrt_price_math.md R144; log 35). -/
def amountInFault (s : State) (p q : Nat) : U32 :=
  ceilFault (swapLiquidity s * (max p q - min p q)) (2 ^ 96)

/-- The second formula of the fee fails: `feeCompl` is 0, or the quotient does not fit 256 bits
(48_swap_step.md R182, R183). -/
def feeFails (s : State) (amountIn : Nat) : Prop :=
  feeComplOf s = 0 ∨ 2 ^ 256 ≤ fullFee s amountIn

/-- STATUS of that failure: for `feeCompl = 0` by whether `amountIn * feePips` needs more than 256 bits
(48_swap_step.md R182), else that of the quotient (R183). -/
def feeFault (s : State) (amountIn : Nat) : U32 :=
  if feeComplOf s = 0 then (if amountIn * feeOf s < 2 ^ 256 then 0x1052#32 else 0x1063#32)
  else ceilFault (amountIn * feeOf s) (feeComplOf s)

/-- `want = |remaining|` of an exact-out step (48_swap_step.md R180, R182). -/
def wantOf (s : State) : Nat := 2 ^ 256 - s.arg3.toNat

/-- The state in which NEXTIN and NEXTOUT see the price, the liquidity and the amount a swap step hands
them (48_swap_step.md R180; 45_sqrt_price_math.md R138, R139). -/
def nextPriceCall (s : State) (amount : Nat) : State :=
  { s with arg1 := s.arg2, arg2 := BitVec.ofNat 256 amount }

/-- The compressed tick, `floor(tick / spacing)` for `spacing > 0` (46_tick_bitmap.md R163). -/
def compressedOf (s : State) : Int := tickOf s.arg0 / tickOf s.arg1

/-- The word of a compressed tick, modulo 2^16 (46_tick_bitmap.md R160). -/
def wordOf (ct : Int) : I16 := BitVec.ofInt 16 (ct / 256)

/-- The bit of a compressed tick in its word (46_tick_bitmap.md R160). -/
def bitOf (ct : Int) : Nat := (ct % 256).toNat

/-- A tick as a result: taken modulo 2^32 as an I32 and sign-extended (46_tick_bitmap.md R166;
10_state.md R17). -/
def tickResult (t : Int) : U256 := BitVec.ofInt 256 (t.bmod (2 ^ 32))

/-- The commands that reach W (20_memory.md R34). -/
def reachesW : Instr → Bool
  | .flip | .nextinit _ => true
  | .msb | .lsb | .divru | .mulmod | .muldiv | .muldivru | .tick2sqrt | .sqrt2tick => false
  | .nextin _ | .nextout _ | .nexta0 _ | .nexta1 _ | .amt0 _ | .amt1 _ | .samt0 | .samt1 => false
  | .bmpos | .adddelta | .swapstep => false

/-- The registers by number with their values, zero-extended to 256 bits (10_state.md R11). -/
def registerFile (s : State) : List (Nat × U256) :=
  [(0x00, s.cmd.setWidth 256), (0x01, s.status.setWidth 256), (0x08, s.arg0), (0x09, s.arg1),
    (0x0A, s.arg2), (0x0B, s.arg3), (0x0C, s.arg4), (0x10, s.res0), (0x11, s.res1), (0x12, s.res2),
    (0x13, s.res3)]

/-- The byte binding: offset, size in bytes and register number (20_memory.md R42; 10_state.md R11). -/
def busMap : List (Nat × Nat × Nat) :=
  [(0x000, 4, 0x00), (0x004, 4, 0x01), (0x020, 32, 0x08), (0x040, 32, 0x09), (0x060, 32, 0x0A),
    (0x080, 32, 0x0B), (0x0A0, 32, 0x0C), (0x100, 32, 0x10), (0x120, 32, 0x11), (0x140, 32, 0x12),
    (0x160, 32, 0x13)]

end Sys2Proof.Safety
end

