-- ==== Sys2Proof/Certificates/Slice0/Obligations.lean ====
section
/-! DEFINITION. The statements for the provers. Results are written over natural numbers and integers
(Safety.lean), STATUS as whole words. A docstring names the rule a statement formalises, or the log
entry for a clause that is the model's own choice. -/

open Sys2Proof Sys2Proof.Machine Sys2Proof.Safety

/-! ### Encoding -/

/-- Decoding and encoding agree in both directions, on every 32-bit word and every command
(30_encoding.md R52, R53). -/
def Obligations.DecodeIffEncode : Prop :=
  ∀ (c : U32) (i : Instr), decode c = .ok i ↔ c = encode i

/-- "28 command words are legal": the words that decode are the 28 written out from R52 and R53, and
they are the words that meet the three conditions of R54. -/
def Obligations.LegalWordsAre28 : Prop :=
  legalWords.length = 28 ∧ legalWords.Nodup ∧
    ∀ c : U32, ((∃ i, decode c = .ok i) ↔ c ∈ legalWords) ∧ (legalWord c = true ↔ c ∈ legalWords)

/-- An illegal command word is a failed command, with the SITE R55 gives it. -/
def Obligations.IllegalWordFails : Prop :=
  ∀ (s : State) (v : U256) (rest : List Event), s.pending = .regWrite 0x00 v :: rest →
    let c : U32 := v.setWidth 32
    let u : State := { s with pending := rest, cmd := c }
    (c.setWidth 8 ∉ assignedOpcodes → step s = .next (faulted u 0x118D#32)) ∧
    (c.setWidth 8 ∈ assignedOpcodes →
      (c >>> 9 ≠ 0#32 ∨ (c.getLsbD 8 = true ∧ c.setWidth 8 ∉ modifierOpcodes)) →
      step s = .next (faulted u 0x119D#32))

/-- Command words written out from the table of R52 decode to their commands. -/
def Obligations.DecodeSamples : Prop :=
  decode 0x00000020#32 = .ok .msb ∧ decode 0x00000030#32 = .ok .divru ∧
    decode 0x00000041#32 = .ok .muldiv ∧ decode 0x00000050#32 = .ok .tick2sqrt ∧
    decode 0x00000164#32 = .ok (.amt0 true) ∧ decode 0x00000061#32 = .ok (.nextout false) ∧
    decode 0x00000172#32 = .ok (.nextinit true) ∧ decode 0x00000080#32 = .ok .adddelta ∧
    decode 0x00000090#32 = .ok .swapstep ∧ decode 0x00000000#32 = .error .unassignedOpcode ∧
    decode 0x00000120#32 = .error .reservedBits

/-! ### The machine and its host -/

/-- A step runs the command the host writes: when the next event is a write of a legal word to CMD,
the step is `exec` of the command it decodes to, in the state that holds the word in CMD; and when the
next event is a write of the four bytes of a legal word at the engine's base, likewise. -/
def Obligations.StepRunsDecodedCommand : Prop :=
  ∀ (s : State) (i : Instr) (rest : List Event), i.wellFormed = true →
    (∀ v : U256, s.pending = .regWrite 0x00 v :: rest → decode (v.setWidth 32) = .ok i →
      step s = exec i { s with pending := rest, cmd := v.setWidth 32 }) ∧
    (∀ bytes : List Byte, s.pending = .busWrite (512 * s.platform.basePage) bytes :: rest →
      decodeBytes bytes = .ok i → step s = exec i { s with pending := rest, cmd := encode i }) ∧
    (∀ w : Nat, w < 2 ^ 32 → decode (BitVec.ofNat 32 w) = .ok i →
      step (s.withFetchWord 32 w) = exec i { s with cmd := BitVec.ofNat 32 w })

/-- A register write to an ARG register stores all 256 bits; to STATUS, to a RES register or to an
undefined number it is ignored (10_state.md R22). -/
def Obligations.RegisterWriteAccess : Prop :=
  ∀ (s : State) (n : Nat) (v : U256) (rest : List Event), s.pending = .regWrite n v :: rest →
    let u : State := { s with pending := rest }
    (n = 0x08 → step s = .next { u with arg0 := v }) ∧
    (n = 0x09 → step s = .next { u with arg1 := v }) ∧
    (n = 0x0A → step s = .next { u with arg2 := v }) ∧
    (n = 0x0B → step s = .next { u with arg3 := v }) ∧
    (n = 0x0C → step s = .next { u with arg4 := v }) ∧
    (n ∉ [0x00, 0x08, 0x09, 0x0A, 0x0B, 0x0C] → step s = .next u)

/-- A register read returns the register's value, 0 for an undefined number, and changes no register
(10_state.md R21, R22). -/
def Obligations.RegisterReadAccess : Prop :=
  ∀ (s : State) (n : Nat) (rest : List Event), s.pending = .regRead n :: rest →
    step s = .next { s with
      pending := rest
      replies := .value (((registerFile s).lookup n).getD 0#256) :: s.replies }

/-- The byte binding is a binding of the register transactions, little-endian (20_memory.md R35, R42,
R43). What a read of another access returns and that a write of it is ignored: log 11. -/
def Obligations.BusBindingIsRegisterTransaction : Prop :=
  ∀ (s : State) (addr : Nat) (rest : List Event),
    let u : State := { s with pending := rest }
    (∀ (offset width n : Nat), (offset, width, n) ∈ busMap →
      addr = 512 * s.platform.basePage + offset →
      (∀ (bytes : List Byte) (v : U256), s.pending = .busWrite addr bytes :: rest →
        bytes.length = width → v.toNat < 2 ^ (8 * width) →
        (∀ k, k < width → bytes[k]? = some (v.extractLsb' (8 * k) 8)) →
        step s = registerWrite u n v) ∧
      (s.pending = .busRead addr width :: rest →
        step s = .next { u with
          replies := .bytes (List.ofFn fun k : Fin width =>
            (((registerFile s).lookup n).getD 0#256).extractLsb' (8 * k.val) 8) :: s.replies })) ∧
    (∀ size : Nat,
      (∀ (offset n : Nat), (offset, size, n) ∈ busMap →
        addr ≠ 512 * s.platform.basePage + offset) →
      (∀ bytes : List Byte, s.pending = .busWrite addr bytes :: rest → bytes.length = size →
        step s = .next u) ∧
      (s.pending = .busRead addr size :: rest →
        step s = .next { u with replies := .bytes (List.replicate size 0#8) :: s.replies }))

/-- A host word write sets one word of W and changes no other, and a host word read returns the word
(20_memory.md R33; 10_state.md R21). The premise is the canonical form of W, which every step keeps
(OutcomeInvariantKept). -/
def Obligations.HostWordAccess : Prop :=
  ∀ (s : State) (idx : I16) (rest : List Event), s.words.wf = true →
    (∀ v : U256, s.pending = .wordWrite idx v :: rest →
      ∃ m : Memory, step s = .next { s with pending := rest, words := m } ∧ m.wf = true ∧
        m.read idx = v ∧ ∀ other : I16, other ≠ idx → m.read other = s.words.read other) ∧
    (s.pending = .wordRead idx :: rest →
      step s = .next { s with pending := rest, replies := .value (s.words.read idx) :: s.replies })

/-- What the engine's word port answers (20_memory.md R37, R38, R40): the stored word, or, only where the
platform's port may fail, an error or a word of the remote provider that is not the stored one
(93_implementation_defined.md U16; log 5). The list of answers is the model's oracle (log 4). -/
def Obligations.WordPortAnswers : Prop :=
  ∀ (s : State) (idx : I16),
    (s.portAnswers = [] → s.wordRead idx = .ok (s.words.read idx)) ∧
    (s.platform.wordReadMayFail = false → s.wordRead idx = .ok (s.words.read idx)) ∧
    (∀ rest, s.portAnswers = .stored :: rest → s.wordRead idx = .ok (s.words.read idx)) ∧
    (s.platform.wordReadMayFail = true →
      ∀ rest, s.portAnswers = .error :: rest → s.wordRead idx = .error .wordReadError) ∧
    (s.platform.wordReadMayFail = true →
      ∀ v rest, s.portAnswers = .word v :: rest → s.wordRead idx = .ok v) ∧
    (∀ (i : Instr) (t : State), s.platform.wordReadMayFail = false → exec i s = .next t →
      t.status ≠ 0x115A#32)

/-- Reset between two transactions gives every register its reset value 0 and leaves W alone
(70_reset_and_hazards.md R220, R221). -/
def Obligations.ResetEventClearsRegisters : Prop :=
  ∀ (s : State) (rest : List Event), s.pending = .reset :: rest →
    step s = .next { s with
      pending := rest, cmd := 0#32, status := 0#32
      arg0 := 0#256, arg1 := 0#256, arg2 := 0#256, arg3 := 0#256, arg4 := 0#256
      res0 := 0#256, res1 := 0#256, res2 := 0#256, res3 := 0#256 }

/-- "After reset every register of rule R11 is 0" (10_state.md R25). -/
def Obligations.ResetStateRegistersAreZero : Prop :=
  ∀ p ∈ registerFile State.reset, p.2 = 0#256

/-! ### Properties of every command -/

/-- No command stops the machine: each answers a next state, in which DONE is 1 (10_state.md R15,
R20). -/
def Obligations.EveryCommandEnds : Prop :=
  ∀ (i : Instr) (s : State), ∃ t, exec i s = .next t ∧ t.status.getLsbD 12 = true

/-- What a command leaves unchanged: CMD, the ARG registers (10_state.md R12), the platform, the host's
events and replies; the port's answers but for the one FLIP and NEXTINIT may spend; and W, but for the
one word of FLIP (20_memory.md R33, R34), whose index is computed as the meaning does. -/
def Obligations.CommandFrame : Prop :=
  ∀ (i : Instr) (s t : State), exec i s = .next t →
    t.cmd = s.cmd ∧ t.arg0 = s.arg0 ∧ t.arg1 = s.arg1 ∧ t.arg2 = s.arg2 ∧ t.arg3 = s.arg3 ∧
      t.arg4 = s.arg4 ∧ t.platform = s.platform ∧ t.pending = s.pending ∧ t.replies = s.replies ∧
      (reachesW i = false → t.portAnswers = s.portAnswers) ∧
      (reachesW i = true → t.portAnswers = s.portAnswers ∨ t.portAnswers = s.portAnswers.tail) ∧
      (i ≠ .flip → t.words = s.words) ∧
      (i = .flip →
        (∀ site, flipTarget (low32 s.arg0) (low32 s.arg1) = .error site → t.words = s.words) ∧
        (∀ ct, flipTarget (low32 s.arg0) (low32 s.arg1) = .ok ct →
          ∀ idx : I16, idx ≠ wordIndex ct → t.words.read idx = s.words.read idx))

/-- The effect of a fault, whole: RES0 to RES3 are 0, STATUS is a fault's word, W and everything else
is unchanged (60_exceptions.md R196). The list of port answers is the model's own (log 4). -/
def Obligations.FaultIsAtomic : Prop :=
  ∀ (i : Instr) (s t : State), exec i s = .next t → t.status ≠ 0x1000#32 →
    t.status ∈ commandFaults ∧ t = { faulted s t.status with portAnswers := t.portAnswers }

/-- A command raises no fault outside its row of R194, but for one: AMT1 rounding up, and SAMT1, end at
SITE 0x07 on operands for which R108 with R144 raises it, and on no others (60_exceptions.md R194;
43_full_math.md R108; log 35). -/
def Obligations.FaultsWithinRowOrAmount1Ceiling : Prop :=
  ∀ (i : Instr) (s t : State), exec i s = .next t →
    t.status = 0x1000#32 ∨ t.status ∈ allowedFaults i ∨
      (t.status = 0x1073#32 ∧ raisesPastRow i s)

/-- The faults that R183 and R194 say cannot end SWAPSTEP, for any operands. -/
def Obligations.SwapStepUnreachableFaults : Prop :=
  ∀ s t : State, exec .swapstep s = .next t →
    t.status ∉ [0x10AB#32, 0x10BC#32, 0x10C4#32, 0x10E4#32, 0x1112#32, 0x1102#32, 0x1122#32]

/-- The results of a command are a function of the operands it names, whatever else the registers
hold, and of W and the port for the commands that reach W (10_state.md R12, R16, R27). -/
def Obligations.ResultsDependOnOperandsOnly : Prop :=
  ∀ (i : Instr) (s s' t t' : State), operandView i s = operandView i s' →
    (reachesW i = true →
      s.words = s'.words ∧ s.portAnswers = s'.portAnswers ∧ s.platform = s'.platform) →
    exec i s = .next t → exec i s' = .next t' →
    t.status = t'.status ∧ t.res0 = t'.res0 ∧ t.res1 = t'.res1 ∧ t.res2 = t'.res2 ∧
      t.res3 = t'.res3 ∧ (reachesW i = true → t.words = t'.words)

/-- Every step keeps the invariant: W is in canonical form, and STATUS and RES are an outcome of the
command CMD holds (10_state.md R13 to R15, R20, R25). The canonical form is log 1's. -/
def Obligations.OutcomeInvariantKept : Prop :=
  ∀ s t : State, Inv s → step s = .next t → Inv t

/-- The invariant holds right after reset. -/
def Obligations.OutcomeInvariantAtReset : Prop := Inv State.reset

/-! ### Bit scan, division, full math -/

/-- MSB: "the largest i in 0..=255 with x[i] == 1", and the fault for 0 (41_bit_scan.md R90). -/
def Obligations.MsbHighestSetBit : Prop :=
  ∀ s : State,
    (s.arg0 ≠ 0#256 →
      ∃ n : Nat, n ≤ 255 ∧ s.arg0.getLsbD n = true ∧ (∀ m, n < m → s.arg0.getLsbD m = false) ∧
        exec .msb s = .next (completed s (BitVec.ofNat 256 n) 0#256 0#256 0#256)) ∧
    (s.arg0 = 0#256 → exec .msb s = .next (faulted s 0x1011#32))

/-- LSB: "the smallest i in 0..=255 with x[i] == 1", and the fault for 0 (41_bit_scan.md R91). -/
def Obligations.LsbLowestSetBit : Prop :=
  ∀ s : State,
    (s.arg0 ≠ 0#256 →
      ∃ n : Nat, n ≤ 255 ∧ s.arg0.getLsbD n = true ∧ (∀ m, m < n → s.arg0.getLsbD m = false) ∧
        exec .lsb s = .next (completed s (BitVec.ofNat 256 n) 0#256 0#256 0#256)) ∧
    (s.arg0 = 0#256 → exec .lsb s = .next (faulted s 0x1021#32))

/-- DIVRU: "The result is ceil(a / b) exactly", and the fault for a zero divisor (42_unsafe_math.md R100,
R101). -/
def Obligations.DivruExactCeiling : Prop :=
  ∀ s : State,
    (s.arg1.toNat ≠ 0 →
      exec .divru s = .next
        (completed s (BitVec.ofNat 256 (ceilQ s.arg0.toNat s.arg1.toNat)) 0#256 0#256 0#256)) ∧
    (s.arg1.toNat = 0 → exec .divru s = .next (faulted s 0x1032#32))

/-- MULMOD: the remainder of the true 512-bit product, and the fault for a zero modulus
(43_full_math.md R105). -/
def Obligations.MulmodExactRemainder : Prop :=
  ∀ s : State,
    (s.arg2.toNat ≠ 0 →
      exec .mulmod s = .next
        (completed s (BitVec.ofNat 256 (s.arg0.toNat * s.arg1.toNat % s.arg2.toNat))
          0#256 0#256 0#256)) ∧
    (s.arg2.toNat = 0 → exec .mulmod s = .next (faulted s 0x1042#32))

/-- MULDIV: the exact floor whenever that fits 256 bits, else which fault (43_full_math.md R106). -/
def Obligations.MuldivExactFloor : Prop :=
  ∀ s : State,
    let p := s.arg0.toNat * s.arg1.toNat
    let d := s.arg2.toNat
    (d ≠ 0 → p / d < 2 ^ 256 →
      exec .muldiv s = .next (completed s (BitVec.ofNat 256 (p / d)) 0#256 0#256 0#256)) ∧
    (d ≠ 0 → 2 ^ 256 ≤ p / d → exec .muldiv s = .next (faulted s 0x1063#32)) ∧
    (d = 0 → p < 2 ^ 256 → exec .muldiv s = .next (faulted s 0x1052#32)) ∧
    (d = 0 → 2 ^ 256 ≤ p → exec .muldiv s = .next (faulted s 0x1063#32))

/-- MULDIVRU: the exact ceiling whenever that fits 256 bits, else which fault (43_full_math.md R108). -/
def Obligations.MuldivruExactCeiling : Prop :=
  ∀ s : State,
    let p := s.arg0.toNat * s.arg1.toNat
    let d := s.arg2.toNat
    (d ≠ 0 → ceilQ p d < 2 ^ 256 →
      exec .muldivru s = .next (completed s (BitVec.ofNat 256 (ceilQ p d)) 0#256 0#256 0#256)) ∧
    (d ≠ 0 → p / d < 2 ^ 256 → 2 ^ 256 ≤ ceilQ p d →
      exec .muldivru s = .next (faulted s 0x1073#32)) ∧
    (d ≠ 0 → 2 ^ 256 ≤ p / d → exec .muldivru s = .next (faulted s 0x1063#32)) ∧
    (d = 0 → p < 2 ^ 256 → exec .muldivru s = .next (faulted s 0x1052#32)) ∧
    (d = 0 → 2 ^ 256 ≤ p → exec .muldivru s = .next (faulted s 0x1063#32))

/-- The source's seven steps, with 256-bit operators only, meet the contract of MULDIV on every input
(43_full_math.md R107, with the correction of 90_conflicts.md C1). -/
def Obligations.MulDivProcedureMeetsContract : Prop :=
  ∀ a b d : U256, mulDivProcedure a b d = mulDiv a b d

/-! ### Tick math -/

/-- TICK2SQRT on every legal tick: R122 over natural numbers, so no operation of it wraps. The table is
the spec's (44_tick_math.md R121; log 14). -/
def Obligations.Tick2sqrtForwardPrice : Prop :=
  ∀ s : State, (tickOf s.arg0).natAbs ≤ 887272 →
    exec .tick2sqrt s = .next
      (completed s (BitVec.ofNat 256 (forwardPrice (tickOf s.arg0))) 0#256 0#256 0#256)

/-- The forward conversion is strictly increasing in the tick, from 4295128739 to
1461446703485210103287273052203988822378723970342, which fits 160 bits (44_tick_math.md R123). -/
def Obligations.Tick2sqrtIncreasing : Prop :=
  ∀ s s' : State, (tickOf s.arg0).natAbs ≤ 887272 → (tickOf s'.arg0).natAbs ≤ 887272 →
    ∃ p p' : U256,
      exec .tick2sqrt s = .next (completed s p 0#256 0#256 0#256) ∧
      exec .tick2sqrt s' = .next (completed s' p' 0#256 0#256 0#256) ∧
      (tickOf s.arg0 < tickOf s'.arg0 → p.toNat < p'.toNat) ∧
      (tickOf s.arg0 = -887272 → p.toNat = 4295128739) ∧
      (tickOf s.arg0 = 887272 → p.toNat = 1461446703485210103287273052203988822378723970342) ∧
      4295128739 ≤ p.toNat ∧ p.toNat < 2 ^ 160

/-- SQRT2TICK answers the greatest tick whose forward price is at most the price (44_tick_math.md
R125). -/
def Obligations.Sqrt2tickGreatestTick : Prop :=
  ∀ s : State, 4295128739 ≤ s.arg0.toNat →
    s.arg0.toNat < 1461446703485210103287273052203988822378723970342 →
    ∃ t : Int, -887272 ≤ t ∧ t ≤ 887271 ∧ forwardPrice t ≤ s.arg0.toNat ∧
      (∀ t' : Int, t < t' → t' ≤ 887271 → s.arg0.toNat < forwardPrice t') ∧
      exec .sqrt2tick s = .next (completed s (BitVec.ofInt 256 t) 0#256 0#256 0#256)

/-- "this holds for t from -887272 to 887271": the inverse of the forward price of a tick is the tick
(44_tick_math.md R127). -/
def Obligations.TickRoundTrip : Prop :=
  ∀ s : State, -887272 ≤ tickOf s.arg0 → tickOf s.arg0 ≤ 887271 →
    ∃ t : State, exec .tick2sqrt s = .next t ∧
      exec .sqrt2tick { t with arg0 := t.res0 } = .next
        (completed { t with arg0 := t.res0 } (BitVec.ofInt 256 (tickOf s.arg0)) 0#256 0#256 0#256)

/-- The range faults of TICK2SQRT and SQRT2TICK (44_tick_math.md R122, R125). -/
def Obligations.TickRangeFaults : Prop :=
  ∀ s : State,
    (887272 < (tickOf s.arg0).natAbs → exec .tick2sqrt s = .next (faulted s 0x1085#32)) ∧
    ((s.arg0.toNat < 4295128739 ∨
        1461446703485210103287273052203988822378723970342 ≤ s.arg0.toNat) →
      exec .sqrt2tick s = .next (faulted s 0x1096#32))

/-! ### Next price from an amount -/

/-- The price or the liquidity is 0: NEXTIN and NEXTOUT fail, the price tested first
(45_sqrt_price_math.md R138, R139). -/
def Obligations.NextinNextoutZeroFaults : Prop :=
  ∀ (s : State) (zeroForOne : Bool),
    (s.arg0 = 0#256 →
      exec (.nextin zeroForOne) s = .next (faulted s 0x10AB#32) ∧
        exec (.nextout zeroForOne) s = .next (faulted s 0x10AB#32)) ∧
    (s.arg0 ≠ 0#256 → liquidityOf s.arg1 = 0 →
      exec (.nextin zeroForOne) s = .next (faulted s 0x10BC#32) ∧
        exec (.nextout zeroForOne) s = .next (faulted s 0x10BC#32))

/-- Token0 is added: NEXTA0.ADD, and NEXTIN.ZFO with price and liquidity not 0. The two paths, by
whether `n1 + amount * price` needs more than 256 bits, and their faults (45_sqrt_price_math.md R140,
R138). -/
def Obligations.PriceAfterAmount0Added : Prop :=
  ∀ (i : Instr) (s : State),
    (i = .nexta0 true ∨ (i = .nextin true ∧ s.arg0 ≠ 0#256 ∧ liquidityOf s.arg1 ≠ 0)) →
    let price := s.arg0.toNat
    let amount := s.arg2.toNat
    let n1 := liquidityOf s.arg1 * 2 ^ 96
    let sum := n1 + amount * price
    let divisor := (n1 / price + amount) % 2 ^ 256
    (amount = 0 → exec i s = .next (completed s s.arg0 0#256 0#256 0#256)) ∧
    (amount ≠ 0 → sum = 0 → exec i s = .next (faulted s 0x1052#32)) ∧
    (amount ≠ 0 → sum ≠ 0 → sum < 2 ^ 256 →
      exec i s = .next
        (completed s (BitVec.ofNat 256 (ceilQ (n1 * price) sum)) 0#256 0#256 0#256)) ∧
    (amount ≠ 0 → 2 ^ 256 ≤ sum → divisor ≠ 0 →
      exec i s = .next
        (completed s (BitVec.ofNat 256 (ceilQ n1 divisor)) 0#256 0#256 0#256)) ∧
    (amount ≠ 0 → 2 ^ 256 ≤ sum → divisor = 0 → exec i s = .next (faulted s 0x1112#32))

/-- Token0 is removed: NEXTA0.SUB, and NEXTOUT.OFZ with price and liquidity not 0
(45_sqrt_price_math.md R140, R139; NEXTOUT's body is log 18). -/
def Obligations.PriceAfterAmount0Removed : Prop :=
  ∀ (i : Instr) (s : State),
    (i = .nexta0 false ∨ (i = .nextout false ∧ s.arg0 ≠ 0#256 ∧ liquidityOf s.arg1 ≠ 0)) →
    let price := s.arg0.toNat
    let amount := s.arg2.toNat
    let n1 := liquidityOf s.arg1 * 2 ^ 96
    let d := n1 - amount * price
    (amount = 0 → exec i s = .next (completed s s.arg0 0#256 0#256 0#256)) ∧
    (amount ≠ 0 → n1 ≤ amount * price → exec i s = .next (faulted s 0x10C4#32)) ∧
    (amount ≠ 0 → amount * price < n1 → ceilQ (n1 * price) d < 2 ^ 256 →
      exec i s = .next
        (completed s (BitVec.ofNat 256 (ceilQ (n1 * price) d)) 0#256 0#256 0#256)) ∧
    (amount ≠ 0 → amount * price < n1 → 2 ^ 256 ≤ ceilQ (n1 * price) d →
      exec i s = .next
        (faulted s (if 2 ^ 256 ≤ n1 * price / d then 0x1063#32 else 0x1073#32)))

/-- Token1 is added: NEXTA1.ADD, and NEXTIN.OFZ with price and liquidity not 0; the quotient by either
form, the 160-bit ceiling on the true sum, and the faults (45_sqrt_price_math.md R141, R138). -/
def Obligations.PriceAfterAmount1Added : Prop :=
  ∀ (i : Instr) (s : State),
    (i = .nexta1 true ∨ (i = .nextin false ∧ s.arg0 ≠ 0#256 ∧ liquidityOf s.arg1 ≠ 0)) →
    let price := s.arg0.toNat
    let amount := s.arg2.toNat
    let liquidity := liquidityOf s.arg1
    let quotient := amount * 2 ^ 96 / liquidity
    (liquidity = 0 → amount < 2 ^ 160 → exec i s = .next (faulted s 0x1102#32)) ∧
    (liquidity = 0 → 2 ^ 160 ≤ amount → exec i s = .next (faulted s 0x1063#32)) ∧
    (liquidity ≠ 0 → price + quotient < 2 ^ 160 →
      exec i s = .next
        (completed s (BitVec.ofNat 256 (price + quotient)) 0#256 0#256 0#256)) ∧
    (liquidity ≠ 0 → quotient < 2 ^ 256 → 2 ^ 160 ≤ price + quotient →
      exec i s = .next (faulted s 0x10D3#32)) ∧
    (liquidity ≠ 0 → 2 ^ 256 ≤ quotient → exec i s = .next (faulted s 0x1063#32))

/-- Token1 is removed: NEXTA1.SUB, and NEXTOUT.ZFO with price and liquidity not 0. SITE 0x07 does not
occur (45_sqrt_price_math.md R141, R139; NEXTOUT's body is log 18). -/
def Obligations.PriceAfterAmount1Removed : Prop :=
  ∀ (i : Instr) (s : State),
    (i = .nexta1 false ∨ (i = .nextout true ∧ s.arg0 ≠ 0#256 ∧ liquidityOf s.arg1 ≠ 0)) →
    let price := s.arg0.toNat
    let amount := s.arg2.toNat
    let liquidity := liquidityOf s.arg1
    let quotient := ceilQ (amount * 2 ^ 96) liquidity
    (liquidity = 0 → amount < 2 ^ 160 → exec i s = .next (faulted s 0x1122#32)) ∧
    (liquidity = 0 → 2 ^ 160 ≤ amount → exec i s = .next (faulted s 0x1063#32)) ∧
    (liquidity ≠ 0 → quotient < price →
      exec i s = .next
        (completed s (BitVec.ofNat 256 (price - quotient)) 0#256 0#256 0#256)) ∧
    (liquidity ≠ 0 → price ≤ quotient → quotient < 2 ^ 256 →
      exec i s = .next (faulted s 0x10E4#32)) ∧
    (liquidity ≠ 0 → 2 ^ 256 ≤ quotient → exec i s = .next (faulted s 0x1063#32))

/-- The direction of the next price (45_sqrt_price_math.md R136, R139): NEXTIN.ZFO at most the price,
NEXTIN.OFZ at least, NEXTOUT.ZFO at most, NEXTOUT.OFZ at least. For NEXTIN.ZFO it is stated where the
divisor of the fall-back does not wrap; without that premise it is false of R140 (log 25). -/
def Obligations.NextPriceDirection : Prop :=
  ∀ s t : State, t.status = 0x1000#32 →
    (exec (.nextin true) s = .next t →
      liquidityOf s.arg1 * 2 ^ 96 / s.arg0.toNat + s.arg2.toNat < 2 ^ 256 → t.res0 ≤ s.arg0) ∧
    (exec (.nextin false) s = .next t → s.arg0 ≤ t.res0) ∧
    (exec (.nextout true) s = .next t → t.res0 ≤ s.arg0) ∧
    (exec (.nextout false) s = .next t → s.arg0 ≤ t.res0)

/-! ### Amounts over a price range -/

/-- AMT0 in both roundings, for prices in either order (45_sqrt_price_math.md R142, R143; both stages
round up: log 20). -/
def Obligations.Amt0ExactAmount : Prop :=
  ∀ (s : State) (up : Bool), s.arg0 ≠ 0#256 → s.arg1 ≠ 0#256 →
    exec (.amt0 up) s = .next
      (completed s
        (BitVec.ofNat 256 (amount0 up s.arg0.toNat s.arg1.toNat (liquidityOf s.arg2)))
        0#256 0#256 0#256)

/-- AMT1 in both roundings, for prices in either order (45_sqrt_price_math.md R142, R144). -/
def Obligations.Amt1ExactAmount : Prop :=
  ∀ (s : State) (up : Bool), s.arg0 ≠ 0#256 → s.arg1 ≠ 0#256 →
    amount1 up s.arg0.toNat s.arg1.toNat (liquidityOf s.arg2) < 2 ^ 256 →
    exec (.amt1 up) s = .next
      (completed s
        (BitVec.ofNat 256 (amount1 up s.arg0.toNat s.arg1.toNat (liquidityOf s.arg2)))
        0#256 0#256 0#256)

/-- SAMT0: rounded up for a change that is not negative, else the negated amount rounded down
(45_sqrt_price_math.md R145). -/
def Obligations.Samt0SignedAmount : Prop :=
  ∀ s : State, s.arg0 ≠ 0#256 → s.arg1 ≠ 0#256 →
    let magnitude := (deltaOf s.arg2).natAbs
    exec .samt0 s = .next
      (completed s
        (BitVec.ofInt 256
          (if 0 ≤ deltaOf s.arg2 then (amount0 true s.arg0.toNat s.arg1.toNat magnitude : Int)
            else -(amount0 false s.arg0.toNat s.arg1.toNat magnitude : Int)))
        0#256 0#256 0#256)

/-- SAMT1, likewise, where the unsigned amount fits 256 bits (45_sqrt_price_math.md R146). -/
def Obligations.Samt1SignedAmount : Prop :=
  ∀ s : State, s.arg0 ≠ 0#256 → s.arg1 ≠ 0#256 →
    let magnitude := (deltaOf s.arg2).natAbs
    let up := decide (0 ≤ deltaOf s.arg2)
    amount1 up s.arg0.toNat s.arg1.toNat magnitude < 2 ^ 256 →
    exec .samt1 s = .next
      (completed s
        (BitVec.ofInt 256
          (if 0 ≤ deltaOf s.arg2 then (amount1 true s.arg0.toNat s.arg1.toNat magnitude : Int)
            else -(amount1 false s.arg0.toNat s.arg1.toNat magnitude : Int)))
        0#256 0#256 0#256)

/-- The faults of AMT0, AMT1, SAMT0 and SAMT1: a lower price of 0, and an amount of token1 that does not
fit (45_sqrt_price_math.md R143 to R146). The clauses with STATUS 0x1073 are log 35's. -/
def Obligations.AmountFaults : Prop :=
  ∀ (s : State) (up : Bool),
    let a := s.arg0.toNat
    let b := s.arg1.toNat
    let delta := deltaOf s.arg2
    (a = 0 ∨ b = 0 →
      exec (.amt0 up) s = .next (faulted s 0x10FB#32) ∧
        exec .samt0 s = .next (faulted s 0x10FB#32) ∧
        exec (.amt1 up) s = .next (faulted s 0x11AB#32) ∧
        exec .samt1 s = .next (faulted s 0x11AB#32)) ∧
    (a ≠ 0 → b ≠ 0 → 2 ^ 256 ≤ amount1 false a b (liquidityOf s.arg2) →
      exec (.amt1 up) s = .next (faulted s 0x1063#32)) ∧
    (a ≠ 0 → b ≠ 0 → 2 ^ 256 ≤ amount1 false a b delta.natAbs →
      exec .samt1 s = .next (faulted s 0x1063#32)) ∧
    (a ≠ 0 → b ≠ 0 → amount1 false a b (liquidityOf s.arg2) < 2 ^ 256 →
      2 ^ 256 ≤ amount1 true a b (liquidityOf s.arg2) →
      exec (.amt1 true) s = .next (faulted s 0x1073#32)) ∧
    (a ≠ 0 → b ≠ 0 → 0 ≤ delta → amount1 false a b delta.natAbs < 2 ^ 256 →
      2 ^ 256 ≤ amount1 true a b delta.natAbs →
      exec .samt1 s = .next (faulted s 0x1073#32))

/-! ### Tick bitmap -/

/-- BMPOS succeeds for every operand: the word is the floor of the tick by 256, modulo 2^16 as an I16,
and the bit the non-negative remainder (46_tick_bitmap.md R160, R162). -/
def Obligations.BmposWordAndBit : Prop :=
  ∀ s : State,
    exec .bmpos s = .next
      (completed s (BitVec.ofInt 256 ((tickOf s.arg0 / 256).bmod (2 ^ 16)))
        (BitVec.ofInt 256 (tickOf s.arg0 % 256)) 0#256 0#256)

/-- FLIP inverts one bit of one word, for a positive spacing that divides the tick and a word read that
answers; and its faults, in their order, change no word (46_tick_bitmap.md R164). -/
def Obligations.FlipInvertsOneBit : Prop :=
  ∀ s : State,
    (∀ word : U256, 0 < tickOf s.arg1 → tickOf s.arg0 % tickOf s.arg1 = 0 →
      s.wordRead (wordOf (compressedOf s)) = .ok word →
      exec .flip s = .next { completed s 0#256 0#256 0#256 0#256 with
        portAnswers := s.portAnswers.tail
        words := s.words.write (wordOf (compressedOf s))
          (word ^^^ (1#256 <<< bitOf (compressedOf s))) }) ∧
    (tickOf s.arg1 ≤ 0 → exec .flip s = .next (faulted s 0x1134#32)) ∧
    (0 < tickOf s.arg1 → tickOf s.arg0 % tickOf s.arg1 ≠ 0 →
      exec .flip s = .next (faulted s 0x1149#32)) ∧
    (0 < tickOf s.arg1 → tickOf s.arg0 % tickOf s.arg1 = 0 →
      s.wordRead (wordOf (compressedOf s)) = .error .wordReadError →
      exec .flip s =
        .next (faulted { s with portAnswers := s.portAnswers.tail } 0x115A#32))

/-- "a second FLIP of the same tick and spacing restores the word" (46_tick_bitmap.md R164): with the
port answering the stored words, two FLIPs leave W as it was, and after the first one exactly the one
bit differs. -/
def Obligations.FlipTwice : Prop :=
  ∀ s : State, s.words.wf = true → s.portAnswers = [] → 0 < tickOf s.arg1 →
    tickOf s.arg0 % tickOf s.arg1 = 0 →
    ∃ t u : State, exec .flip s = .next t ∧ exec .flip t = .next u ∧ t.status = 0x1000#32 ∧
      u.status = 0x1000#32 ∧ u.words = s.words ∧
      ∀ (idx : I16) (b : Nat), b < 256 →
        ((t.words.read idx).getLsbD b ≠ (s.words.read idx).getLsbD b ↔
          idx = wordOf (compressedOf s) ∧ b = bitOf (compressedOf s))

/-- NEXTINIT.LTE: the highest set bit at or below the compressed tick in its word, or the word's left
edge (46_tick_bitmap.md R165, R166; the spacing multiplies the whole difference: log 22). -/
def Obligations.NextinitLteFindsBitAtOrBelow : Prop :=
  ∀ (s : State) (word : U256), 0 < tickOf s.arg1 →
    s.wordRead (wordOf (compressedOf s)) = .ok word →
    let ct := compressedOf s
    let b := bitOf ct
    (∀ i, i ≤ b → word.getLsbD i = true → (∀ j, i < j → j ≤ b → word.getLsbD j = false) →
      exec (.nextinit true) s = .next
        { completed s (tickResult ((ct - ((b : Int) - (i : Int))) * tickOf s.arg1)) 1#256 0#256 0#256 with
          portAnswers := s.portAnswers.tail }) ∧
    ((∀ j, j ≤ b → word.getLsbD j = false) →
      exec (.nextinit true) s = .next
        { completed s (tickResult ((ct - (b : Int)) * tickOf s.arg1)) 0#256 0#256 0#256 with
          portAnswers := s.portAnswers.tail })

/-- NEXTINIT.GT: the lowest set bit above the compressed tick in the word of its successor, or that
word's right edge (46_tick_bitmap.md R165, R166; the mask includes the successor's bit: log 22). -/
def Obligations.NextinitGtFindsBitAbove : Prop :=
  ∀ (s : State) (word : U256), 0 < tickOf s.arg1 →
    s.wordRead (wordOf (compressedOf s + 1)) = .ok word →
    let ct := compressedOf s + 1
    let b := bitOf ct
    (∀ i, b ≤ i → i ≤ 255 → word.getLsbD i = true → (∀ j, b ≤ j → j < i → word.getLsbD j = false) →
      exec (.nextinit false) s = .next
        { completed s (tickResult ((ct + ((i : Int) - (b : Int))) * tickOf s.arg1)) 1#256 0#256 0#256 with
          portAnswers := s.portAnswers.tail }) ∧
    ((∀ j, b ≤ j → j ≤ 255 → word.getLsbD j = false) →
      exec (.nextinit false) s = .next
        { completed s (tickResult ((ct + (255 - (b : Int))) * tickOf s.arg1)) 0#256 0#256 0#256 with
          portAnswers := s.portAnswers.tail })

/-- The faults of NEXTINIT in their order: the spacing, then the word read (46_tick_bitmap.md R161,
R166). -/
def Obligations.NextinitFaults : Prop :=
  ∀ (s : State) (lte : Bool),
    (tickOf s.arg1 ≤ 0 → exec (.nextinit lte) s = .next (faulted s 0x1134#32)) ∧
    (0 < tickOf s.arg1 →
      s.wordRead (wordOf (if lte then compressedOf s else compressedOf s + 1))
        = .error .wordReadError →
      exec (.nextinit lte) s =
        .next (faulted { s with portAnswers := s.portAnswers.tail } 0x115A#32))

/-! ### Liquidity -/

/-- ADDDELTA is the exact sum, and fails exactly when that is outside 0 to 2^128 - 1
(47_liquidity_math.md R175). -/
def Obligations.AdddeltaExactSum : Prop :=
  ∀ s : State,
    let sum := (liquidityOf s.arg0 : Int) + deltaOf s.arg1
    (0 ≤ sum → sum < 2 ^ 128 →
      exec .adddelta s = .next (completed s (BitVec.ofInt 256 sum) 0#256 0#256 0#256)) ∧
    (sum < 0 → exec .adddelta s = .next (faulted s 0x1167#32)) ∧
    (2 ^ 128 ≤ sum → exec .adddelta s = .next (faulted s 0x1178#32))

/-! ### Swap step -/

/-- SWAPSTEP, exact in, the remainder covers the distance: the target, the two amounts of the whole
distance and the fee by the second formula, wherever these fit (48_swap_step.md R180; the roundings are
log 23). -/
def Obligations.SwapReachesExactIn : Prop :=
  ∀ s : State, s.arg0 ≠ 0#256 → s.arg1 ≠ 0#256 → s.arg3.msb = false → lessFee s < 2 ^ 256 →
    let amountIn := stepIn s s.arg1.toNat s.arg0.toNat
    let amountOut := stepOut s s.arg1.toNat s.arg0.toNat
    amountIn ≤ lessFee s → amountOut < 2 ^ 256 → feeComplOf s ≠ 0 → fullFee s amountIn < 2 ^ 256 →
    exec .swapstep s = .next
      (completed s s.arg1 (BitVec.ofNat 256 amountIn) (BitVec.ofNat 256 amountOut)
        (BitVec.ofNat 256 (fullFee s amountIn)))

/-- SWAPSTEP, exact out, the wanted amount covers the distance (48_swap_step.md R180; log 23). -/
def Obligations.SwapReachesExactOut : Prop :=
  ∀ s : State, s.arg0 ≠ 0#256 → s.arg1 ≠ 0#256 → s.arg3.msb = true →
    let amountIn := stepIn s s.arg1.toNat s.arg0.toNat
    let amountOut := stepOut s s.arg1.toNat s.arg0.toNat
    amountOut ≤ wantOf s → amountIn < 2 ^ 256 → feeComplOf s ≠ 0 → fullFee s amountIn < 2 ^ 256 →
    exec .swapstep s = .next
      (completed s s.arg1 (BitVec.ofNat 256 amountIn) (BitVec.ofNat 256 amountOut)
        (BitVec.ofNat 256 (fullFee s amountIn)))

/-- SWAPSTEP, exact in, short of the target: the next price is NEXTIN's for `lessFee`, both amounts are
recomputed from it, and the whole remainder beyond the amount in is the fee. Such a step never lands
on the target: that follows from R180 and the rounding up of the amount in, and goes beyond R185
(48_swap_step.md R180; logs 19, 20, 23). -/
def Obligations.SwapShortExactIn : Prop :=
  ∀ (s : State) (next : U256), s.arg0 ≠ 0#256 → s.arg1 ≠ 0#256 → s.arg3.msb = false →
    lessFee s < 2 ^ 256 → stepIn s s.arg1.toNat s.arg0.toNat < 2 ^ 256 →
    lessFee s < stepIn s s.arg1.toNat s.arg0.toNat →
    exec (.nextin (swapDown s)) (nextPriceCall s (lessFee s)) = .next
      (completed (nextPriceCall s (lessFee s)) next 0#256 0#256 0#256) →
    let amountIn := stepIn s next.toNat s.arg0.toNat
    let amountOut := stepOut s next.toNat s.arg0.toNat
    amountOut < 2 ^ 256 →
    next ≠ s.arg1 ∧
      exec .swapstep s = .next
        (completed s next (BitVec.ofNat 256 amountIn) (BitVec.ofNat 256 amountOut)
          (s.arg3 - BitVec.ofNat 256 amountIn))

/-- SWAPSTEP, exact out, short of the target: the next price is NEXTOUT's for the wanted amount, both
amounts are taken from it, and the amount out is capped (48_swap_step.md R180; log 23). -/
def Obligations.SwapShortExactOut : Prop :=
  ∀ (s : State) (next : U256), s.arg0 ≠ 0#256 → s.arg1 ≠ 0#256 → s.arg3.msb = true →
    stepOut s s.arg1.toNat s.arg0.toNat < 2 ^ 256 →
    wantOf s < stepOut s s.arg1.toNat s.arg0.toNat →
    exec (.nextout (swapDown s)) (nextPriceCall s (wantOf s)) = .next
      (completed (nextPriceCall s (wantOf s)) next 0#256 0#256 0#256) →
    let amountIn := stepIn s next.toNat s.arg0.toNat
    let amountOut := stepOut s next.toNat s.arg0.toNat
    amountIn < 2 ^ 256 → amountOut < 2 ^ 256 → feeComplOf s ≠ 0 → fullFee s amountIn < 2 ^ 256 →
    exec .swapstep s = .next
      (completed s next (BitVec.ofNat 256 amountIn)
        (BitVec.ofNat 256 (min amountOut (wantOf s))) (BitVec.ofNat 256 (fullFee s amountIn)))

/-- SWAPSTEP inside the host's bounds always succeeds, ends between the two prices, pays no more than
is wanted and takes no more than is offered (48_swap_step.md R180 to R185; log 23). -/
def Obligations.SwapInBoundsIsSafe : Prop :=
  ∀ s : State, swapInBounds s →
    ∃ t : State, exec .swapstep s = .next t ∧ t.status = 0x1000#32 ∧
      (s.arg1 < s.arg0 → s.arg1 ≤ t.res0 ∧ t.res0 ≤ s.arg0) ∧
      (s.arg0 ≤ s.arg1 → s.arg0 ≤ t.res0 ∧ t.res0 ≤ s.arg1) ∧
      (s.arg3.msb = false →
        t.res1.toNat + t.res3.toNat ≤ s.arg3.toNat ∧
          (t.res0 ≠ s.arg1 → t.res1.toNat + t.res3.toNat = s.arg3.toNat)) ∧
      (s.arg3.msb = true → t.res2.toNat ≤ wantOf s)

/-- "whenever exactIn and next != target, RES1 +w RES3 == ARG3" (48_swap_step.md R184), for any
operands. -/
def Obligations.SwapFeeConservation : Prop :=
  ∀ s t : State, exec .swapstep s = .next t → t.status = 0x1000#32 → s.arg3.msb = false →
    t.res0 ≠ s.arg1 → t.res1 + t.res3 = s.arg3

/-- For any operands on which SWAPSTEP succeeds: a next price that is not the target is at most the
current price with zeroForOne and at least it without, and an exact-out step pays no more than is
wanted (48_swap_step.md R185). -/
def Obligations.SwapDirectionAndCap : Prop :=
  ∀ s t : State, exec .swapstep s = .next t → t.status = 0x1000#32 →
    (t.res0 ≠ s.arg1 → s.arg1 < s.arg0 → t.res0 ≤ s.arg0) ∧
    (t.res0 ≠ s.arg1 → s.arg0 ≤ s.arg1 → s.arg0 ≤ t.res0) ∧
    (s.arg3.msb = true → t.res2.toNat ≤ wantOf s)

/-- Where SWAPSTEP fails, and with which STATUS (48_swap_step.md R180, R182, R183); on every other operand
the four statements above give its results. Exact in: `lessFee` does not fit; a price is 0; the amount in
or out of the whole distance does not fit; the fee is 1000000 pips at the target, also with liquidity 0
(log 26); a token1 input lifts the price to 2^160 or more; the amount out at the next price does not fit.
Exact out: a price is 0; the amount out or in of the whole distance does not fit; the fee's second formula
fails, at the target or short of it. Which delta a zero price reaches first and the amounts rest on
logs 20 and 23, the next prices on logs 18 and 19, the faults of an amount of token1 on logs 21 and 35. -/
def Obligations.SwapFaults : Prop :=
  ∀ s : State,
    let current := s.arg0.toNat
    let target := s.arg1.toNat
    let whole := stepIn s target current
    let wholeOut := stepOut s target current
    let priced := s.arg0 ≠ 0#256 ∧ s.arg1 ≠ 0#256
    (s.arg3.msb = false →
      (2 ^ 256 ≤ lessFee s → exec .swapstep s = .next (faulted s 0x1063#32)) ∧
      (lessFee s < 2 ^ 256 → ¬priced →
        exec .swapstep s = .next (faulted s (if swapDown s then 0x10FB#32 else 0x11AB#32))) ∧
      (lessFee s < 2 ^ 256 → priced →
        (2 ^ 256 ≤ whole →
          exec .swapstep s = .next (faulted s (amountInFault s target current))) ∧
        (whole ≤ lessFee s → 2 ^ 256 ≤ wholeOut →
          exec .swapstep s = .next (faulted s 0x1063#32)) ∧
        (whole ≤ lessFee s → wholeOut < 2 ^ 256 → feeComplOf s = 0 →
          exec .swapstep s = .next (faulted s 0x1052#32)) ∧
        (lessFee s < whole → whole < 2 ^ 256 → swapDown s = false →
          2 ^ 160 ≤ current + lessFee s * 2 ^ 96 / swapLiquidity s →
          exec .swapstep s = .next (faulted s 0x10D3#32)) ∧
        (lessFee s < whole → whole < 2 ^ 256 →
          ∀ next : U256,
            exec (.nextin (swapDown s)) (nextPriceCall s (lessFee s)) = .next
              (completed (nextPriceCall s (lessFee s)) next 0#256 0#256 0#256) →
            2 ^ 256 ≤ stepOut s next.toNat current →
            exec .swapstep s = .next (faulted s 0x1063#32)))) ∧
    (s.arg3.msb = true →
      (¬priced →
        exec .swapstep s = .next (faulted s (if swapDown s then 0x11AB#32 else 0x10FB#32))) ∧
      (priced →
        (2 ^ 256 ≤ wholeOut → exec .swapstep s = .next (faulted s 0x1063#32)) ∧
        (wholeOut ≤ wantOf s → 2 ^ 256 ≤ whole →
          exec .swapstep s = .next (faulted s (amountInFault s target current))) ∧
        (wholeOut ≤ wantOf s → whole < 2 ^ 256 → feeFails s whole →
          exec .swapstep s = .next (faulted s (feeFault s whole))) ∧
        (wantOf s < wholeOut → wholeOut < 2 ^ 256 →
          ∀ next : U256,
            exec (.nextout (swapDown s)) (nextPriceCall s (wantOf s)) = .next
              (completed (nextPriceCall s (wantOf s)) next 0#256 0#256 0#256) →
            feeFails s (stepIn s next.toNat current) →
            exec .swapstep s = .next (faulted s (feeFault s (stepIn s next.toNat current))))))
end

