-- ==== Sys2Proof/Laws/BitScan.lean ====
section
/-! SUPPORT. What the two bit scans answer (41_bit_scan.md R90, R91). -/

namespace Sys2Proof.Machine

/-- A word that is not 0 has a set bit below bit 256. -/
theorem exists_bit_of_ne_zero {x : U256} (h : x ≠ 0#256) : ∃ i, i < 256 ∧ x.getLsbD i = true := by
  refine Classical.byContradiction fun hn => h ?_
  apply BitVec.eq_of_getLsbD_eq
  intro i hi
  cases hb : x.getLsbD i with
  | false => simp
  | true => exact absurd ⟨i, hi, hb⟩ hn

/-- The scan downward answers a bit up to `top`, above which no bit up to `top` is set, and which is
set if any is. -/
theorem scanDown_spec (x : U256) (top : Nat) :
    scanDown x top ≤ top ∧ (∀ j, scanDown x top < j → j ≤ top → x.getLsbD j = false) ∧
      ((∃ j, j ≤ top ∧ x.getLsbD j = true) → x.getLsbD (scanDown x top) = true) := by
  induction top with
  | zero =>
    refine ⟨Nat.le_refl _, fun j h1 h2 => by simp only [scanDown] at h1; omega, ?_⟩
    rintro ⟨j, hj, hb⟩
    have : j = 0 := by omega
    subst this
    exact hb
  | succ n ih =>
    by_cases hb : x.getLsbD (n + 1) = true
    · simp only [scanDown, hb, if_true]
      exact ⟨Nat.le_refl _, fun j h1 h2 => by omega, fun _ => trivial⟩
    · simp only [scanDown, hb]
      obtain ⟨h1, h2, h3⟩ := ih
      refine ⟨by simp; omega, fun j hj1 hj2 => ?_, ?_⟩
      · by_cases hj : j = n + 1
        · subst hj; simpa using hb
        · exact h2 j (by simpa using hj1) (by omega)
      · rintro ⟨j, hj, hjb⟩
        have : j ≠ n + 1 := fun he => hb (he ▸ hjb)
        simpa using h3 ⟨j, by omega, hjb⟩

/-- The scan upward answers a bit from `start` on, below which no bit from `start` on is set, and which
is set if one of the bits it looks at is. -/
theorem scanUp_spec (x : U256) (fuel start : Nat) :
    start ≤ scanUp x fuel start ∧ scanUp x fuel start ≤ start + fuel ∧
      (∀ j, start ≤ j → j < scanUp x fuel start → x.getLsbD j = false) ∧
      ((∃ j, start ≤ j ∧ j ≤ start + fuel ∧ x.getLsbD j = true) →
        x.getLsbD (scanUp x fuel start) = true) := by
  induction fuel generalizing start with
  | zero =>
    refine ⟨Nat.le_refl _, Nat.le_refl _, fun j h1 h2 => by simp only [scanUp] at h2; omega, ?_⟩
    rintro ⟨j, h1, h2, hb⟩
    have : j = start := by omega
    subst this
    exact hb
  | succ n ih =>
    by_cases hb : x.getLsbD start = true
    · simp only [scanUp, hb, if_true]
      exact ⟨Nat.le_refl _, by omega, fun j h1 h2 => by omega, fun _ => trivial⟩
    · have hs : scanUp x (n + 1) start = scanUp x n (start + 1) := by simp [scanUp, hb]
      obtain ⟨h1, h2, h3, h4⟩ := ih (start + 1)
      rw [hs]
      refine ⟨by omega, by omega, fun j hj1 hj2 => ?_, ?_⟩
      · by_cases hj : j = start
        · subst hj; simpa using hb
        · exact h3 j (by omega) hj2
      · rintro ⟨j, hj1, hj2, hjb⟩
        have : j ≠ start := fun he => hb (he ▸ hjb)
        exact h4 ⟨j, by omega, by omega, hjb⟩

/-- `highestBit` is the largest set bit (R90). -/
theorem highestBit_spec {x : U256} (h : x ≠ 0#256) :
    highestBit x < 256 ∧ x.getLsbD (highestBit x) = true ∧
      ∀ j, highestBit x < j → x.getLsbD j = false := by
  obtain ⟨i, hi, hb⟩ := exists_bit_of_ne_zero h
  obtain ⟨h1, h2, h3⟩ := scanDown_spec x 255
  refine ⟨by unfold highestBit; omega, h3 ⟨i, by omega, hb⟩, fun j hj => ?_⟩
  by_cases hj2 : j ≤ 255
  · exact h2 j hj hj2
  · exact BitVec.getLsbD_of_ge x j (by omega)

/-- `lowestBit` is the smallest set bit (R91). -/
theorem lowestBit_spec {x : U256} (h : x ≠ 0#256) :
    lowestBit x < 256 ∧ x.getLsbD (lowestBit x) = true ∧
      ∀ j, j < lowestBit x → x.getLsbD j = false := by
  obtain ⟨i, hi, hb⟩ := exists_bit_of_ne_zero h
  obtain ⟨h1, h2, h3, h4⟩ := scanUp_spec x 255 0
  refine ⟨by unfold lowestBit; omega, h4 ⟨i, by omega, by omega, hb⟩, fun j hj => h3 j (by omega) hj⟩

/-- A bit that is set with none above it is the highest. -/
theorem highestBit_unique {x : U256} {i : Nat} (hb : x.getLsbD i = true)
    (hup : ∀ j, i < j → x.getLsbD j = false) : highestBit x = i := by
  have hx : x ≠ 0#256 := fun h => by simp [h] at hb
  obtain ⟨-, h2, h3⟩ := highestBit_spec hx
  rcases Nat.lt_trichotomy (highestBit x) i with h | h | h
  · exact absurd hb (by simp [h3 i h])
  · exact h
  · exact absurd h2 (by simp [hup _ h])

/-- A bit that is set with none below it is the lowest. -/
theorem lowestBit_unique {x : U256} {i : Nat} (hb : x.getLsbD i = true)
    (hdown : ∀ j, j < i → x.getLsbD j = false) : lowestBit x = i := by
  have hx : x ≠ 0#256 := fun h => by simp [h] at hb
  obtain ⟨-, h2, h3⟩ := lowestBit_spec hx
  rcases Nat.lt_trichotomy (lowestBit x) i with h | h | h
  · exact absurd h2 (by simp [hdown _ h])
  · exact h
  · exact absurd hb (by simp [h3 i h])

end Sys2Proof.Machine
end

