-- ==== Sys2Proof/Laws/Memory.lean ====
section
/-! SUPPORT. The laws of the word space W: a read after a write, the canonical form, and that equal
reads make equal stores (20_memory.md R31 to R33, R39). -/

namespace Sys2Proof.Machine

/-- A key below every listed key is absent. -/
theorem lookup_of_canonicalFrom_lt {m : Memory} {low key : Nat} (h : m.canonicalFrom low = true)
    (hk : key < low) : m.lookup key = absentWord := by
  induction m generalizing low with
  | nil => rfl
  | cons e rest ih =>
    obtain ⟨k, w⟩ := e
    simp only [Memory.canonicalFrom, Bool.and_eq_true, decide_eq_true_eq] at h
    have hne : key ≠ k := by omega
    simp only [Memory.lookup, hne, if_false]
    exact ih h.2 (by omega)

/-- A weaker lower bound keeps the canonical form. -/
theorem canonicalFrom_mono {m : Memory} {low low' : Nat} (h : m.canonicalFrom low = true)
    (hl : low' ≤ low) : m.canonicalFrom low' = true := by
  cases m with
  | nil => rfl
  | cons e rest =>
    obtain ⟨k, w⟩ := e
    simp only [Memory.canonicalFrom, Bool.and_eq_true, decide_eq_true_eq] at h ⊢
    exact ⟨⟨⟨by omega, h.1.1.2⟩, h.1.2⟩, h.2⟩

/-- The key written reads back as the value written. -/
theorem lookup_insert_self {m : Memory} {low : Nat} (h : m.canonicalFrom low = true) (key : Nat)
    (v : U256) : (m.insert key v).lookup key = v := by
  induction m generalizing low with
  | nil =>
    by_cases hv : v = absentWord <;> simp [Memory.insert, Memory.lookup, hv]
  | cons e rest ih =>
    obtain ⟨k, w⟩ := e
    simp only [Memory.canonicalFrom, Bool.and_eq_true, decide_eq_true_eq] at h
    have hrest := h.2
    rcases Nat.lt_trichotomy key k with hlt | heq | hgt
    · by_cases hv : v = absentWord
      · have : key ≠ k := by omega
        simp only [Memory.insert, hlt, if_true, hv, Memory.lookup, this, if_false]
        exact lookup_of_canonicalFrom_lt hrest (by omega)
      · simp [Memory.insert, hlt, hv, Memory.lookup]
    · subst heq
      by_cases hv : v = absentWord
      · simp only [Memory.insert, Nat.lt_irrefl, if_false, if_true, hv]
        exact lookup_of_canonicalFrom_lt hrest (by omega)
      · simp [Memory.insert, hv, Memory.lookup]
    · have h1 : ¬ key < k := by omega
      have h2 : ¬ key = k := by omega
      simp only [Memory.insert, h1, h2, if_false, Memory.lookup]
      exact ih hrest

/-- Every other key reads as before. -/
theorem lookup_insert_other {m : Memory} {key other : Nat} (v : U256) (hne : other ≠ key) :
    (m.insert key v).lookup other = m.lookup other := by
  induction m with
  | nil =>
    by_cases hv : v = absentWord
    · simp [Memory.insert, hv]
    · simp [Memory.insert, hv, Memory.lookup, hne]
  | cons e rest ih =>
    obtain ⟨k, w⟩ := e
    by_cases hlt : key < k
    · by_cases hv : v = absentWord <;> simp [Memory.insert, hlt, hv, Memory.lookup, hne]
    · by_cases heq : key = k
      · subst heq
        by_cases hv : v = absentWord <;> simp [Memory.insert, hv, Memory.lookup, hne]
      · simp only [Memory.insert, hlt, heq, if_false, Memory.lookup, ih]

/-- A write keeps the canonical form. -/
theorem insert_canonicalFrom {m : Memory} {low key : Nat} (h : m.canonicalFrom low = true)
    (hlow : low ≤ key) (hkey : key < 65536) (v : U256) :
    (m.insert key v).canonicalFrom low = true := by
  induction m generalizing low with
  | nil =>
    by_cases hv : v = absentWord <;> simp [Memory.insert, hv, Memory.canonicalFrom, hlow, hkey]
  | cons e rest ih =>
    obtain ⟨k, w⟩ := e
    have h' := h
    simp only [Memory.canonicalFrom, Bool.and_eq_true, decide_eq_true_eq] at h'
    obtain ⟨⟨⟨hl, hk⟩, hw⟩, hrest⟩ := h'
    rcases Nat.lt_trichotomy key k with hlt | heq | hgt
    · by_cases hv : v = absentWord
      · simpa [Memory.insert, hlt, hv] using h
      · simp only [Memory.insert, hlt, if_true, hv, if_false, Memory.canonicalFrom, Bool.and_eq_true,
          decide_eq_true_eq]
        exact ⟨⟨⟨hlow, hkey⟩, hv⟩, ⟨⟨by omega, hk⟩, hw⟩, hrest⟩
    · subst heq
      by_cases hv : v = absentWord
      · simpa [Memory.insert, hv] using canonicalFrom_mono hrest (by omega)
      · simp only [Memory.insert, Nat.lt_irrefl, if_true, hv, if_false, Memory.canonicalFrom,
          Bool.and_eq_true, decide_eq_true_eq]
        exact ⟨⟨⟨hlow, hkey⟩, hv⟩, hrest⟩
    · have h1 : ¬ key < k := by omega
      have h2 : ¬ key = k := by omega
      simp only [Memory.insert, h1, h2, if_false, Memory.canonicalFrom, Bool.and_eq_true,
        decide_eq_true_eq]
      exact ⟨⟨⟨hl, hk⟩, hw⟩, ih hrest (by omega)⟩

/-- Two canonical stores that read the same at every key are the same list. -/
theorem canonicalFrom_ext {m m' : Memory} {low : Nat} (h : m.canonicalFrom low = true)
    (h' : m'.canonicalFrom low = true) (heq : ∀ key, m.lookup key = m'.lookup key) : m = m' := by
  induction m generalizing m' low with
  | nil =>
    cases m' with
    | nil => rfl
    | cons e rest =>
      obtain ⟨k, w⟩ := e
      simp only [Memory.canonicalFrom, Bool.and_eq_true, decide_eq_true_eq] at h'
      have := heq k
      simp only [Memory.lookup, if_true] at this
      exact absurd this.symm h'.1.2
  | cons e rest ih =>
    obtain ⟨k, w⟩ := e
    simp only [Memory.canonicalFrom, Bool.and_eq_true, decide_eq_true_eq] at h
    obtain ⟨⟨⟨hl, hk⟩, hw⟩, hrest⟩ := h
    cases m' with
    | nil =>
      have := heq k
      simp only [Memory.lookup, if_true] at this
      exact absurd this hw
    | cons e' rest' =>
      obtain ⟨k', w'⟩ := e'
      simp only [Memory.canonicalFrom, Bool.and_eq_true, decide_eq_true_eq] at h'
      obtain ⟨⟨⟨hl', hk'⟩, hw'⟩, hrest'⟩ := h'
      have hkk : k = k' := by
        rcases Nat.lt_trichotomy k k' with hlt | h0 | hgt
        · have := heq k
          have hne : k ≠ k' := by omega
          simp only [Memory.lookup, if_true, hne, if_false] at this
          rw [lookup_of_canonicalFrom_lt hrest' (by omega)] at this
          exact absurd this hw
        · exact h0
        · have := heq k'
          have hne : k' ≠ k := by omega
          simp only [Memory.lookup, if_true, hne, if_false] at this
          rw [lookup_of_canonicalFrom_lt hrest (by omega)] at this
          exact absurd this.symm hw'
      subst hkk
      have hww : w = w' := by
        have := heq k
        simpa only [Memory.lookup, if_true] using this
      subst hww
      have : rest = rest' := by
        refine ih hrest hrest' fun key => ?_
        by_cases hkey : key = k
        · subst hkey
          rw [lookup_of_canonicalFrom_lt hrest (by omega), lookup_of_canonicalFrom_lt hrest' (by omega)]
        · have := heq key
          simpa only [Memory.lookup, hkey, if_false] using this
      rw [this]

/-- `W(idx) = v` after a write of `v` to `idx` (20_memory.md R39). -/
theorem read_write_same {m : Memory} (h : m.wf = true) (idx : I16) (v : U256) :
    (m.write idx v).read idx = v := lookup_insert_self h _ _

/-- Every other word is as before. -/
@[simp] theorem read_write_other (m : Memory) {idx other : I16} (v : U256) (hne : other ≠ idx) :
    (m.write idx v).read other = m.read other :=
  lookup_insert_other v fun h => hne (BitVec.eq_of_toNat_eq h)

/-- A write keeps the canonical form. -/
theorem write_wf {m : Memory} (h : m.wf = true) (idx : I16) (v : U256) :
    (m.write idx v).wf = true :=
  insert_canonicalFrom h (Nat.zero_le _) idx.isLt v

/-- The empty store is canonical and reads as 0 everywhere (20_memory.md R32). -/
theorem empty_wf : Memory.wf [] = true := rfl

/-- W right after reset is in canonical form. -/
theorem reset_words_wf : State.reset.words.wf = true := rfl

@[simp] theorem empty_read (idx : I16) : Memory.read [] idx = 0#256 := rfl

/-- A key of a canonical store is a 16-bit pattern. -/
theorem lookup_ge_65536 {m : Memory} {low key : Nat} (h : m.canonicalFrom low = true)
    (hk : 65536 ≤ key) : m.lookup key = absentWord := by
  induction m generalizing low with
  | nil => rfl
  | cons e rest ih =>
    obtain ⟨k, w⟩ := e
    simp only [Memory.canonicalFrom, Bool.and_eq_true, decide_eq_true_eq] at h
    have hne : key ≠ k := by omega
    simp only [Memory.lookup, hne, if_false]
    exact ih h.2

/-- Two canonical stores with the same word at every index are equal. -/
theorem wf_ext {m m' : Memory} (h : m.wf = true) (h' : m'.wf = true)
    (heq : ∀ idx, m.read idx = m'.read idx) : m = m' := by
  refine canonicalFrom_ext h h' fun key => ?_
  by_cases hk : key < 65536
  · have := heq (BitVec.ofNat 16 key)
    simpa [Memory.read, Nat.mod_eq_of_lt hk] using this
  · rw [lookup_ge_65536 h (by omega), lookup_ge_65536 h' (by omega)]

/-- A second write to the same index replaces the first. -/
theorem write_write_same {m : Memory} (h : m.wf = true) (idx : I16) (v w : U256) :
    (m.write idx v).write idx w = m.write idx w := by
  refine wf_ext (write_wf (write_wf h _ _) _ _) (write_wf h _ _) fun other => ?_
  by_cases ho : other = idx
  · subst ho
    rw [read_write_same (write_wf h _ _), read_write_same h]
  · rw [read_write_other _ _ ho, read_write_other _ _ ho, read_write_other _ _ ho]

/-- Writing what is there changes nothing. -/
theorem write_read_self {m : Memory} (h : m.wf = true) (idx : I16) : m.write idx (m.read idx) = m := by
  refine wf_ext (write_wf h _ _) h fun other => ?_
  by_cases ho : other = idx
  · subst ho
    rw [read_write_same h]
  · rw [read_write_other _ _ ho]

/-- The buffered word write keeps the canonical form. -/
theorem performStore_wf {m : Memory} (h : m.wf = true) (store : Option (I16 × U256)) :
    (performStore m store).wf = true := by
  cases store with
  | none => exact h
  | some e => exact write_wf h e.1 e.2

end Sys2Proof.Machine
end

