-- ==== Sys2Proof/Laws/State.lean ====
section
/-! SUPPORT. One lemma per field per update of the state, true by definition, so that no later proof
unfolds a record update. -/

namespace Sys2Proof.Machine

section
variable (s : State) (r : Success)
@[simp] theorem succeed_cmd : (s.succeed r).cmd = s.cmd := rfl
@[simp] theorem succeed_status : (s.succeed r).status = statusOk := rfl
@[simp] theorem succeed_arg0 : (s.succeed r).arg0 = s.arg0 := rfl
@[simp] theorem succeed_arg1 : (s.succeed r).arg1 = s.arg1 := rfl
@[simp] theorem succeed_arg2 : (s.succeed r).arg2 = s.arg2 := rfl
@[simp] theorem succeed_arg3 : (s.succeed r).arg3 = s.arg3 := rfl
@[simp] theorem succeed_arg4 : (s.succeed r).arg4 = s.arg4 := rfl
@[simp] theorem succeed_res0 : (s.succeed r).res0 = r.res0 := rfl
@[simp] theorem succeed_res1 : (s.succeed r).res1 = r.res1 := rfl
@[simp] theorem succeed_res2 : (s.succeed r).res2 = r.res2 := rfl
@[simp] theorem succeed_res3 : (s.succeed r).res3 = r.res3 := rfl
@[simp] theorem succeed_words : (s.succeed r).words = performStore s.words r.store := rfl
@[simp] theorem succeed_platform : (s.succeed r).platform = s.platform := rfl
@[simp] theorem succeed_portAnswers : (s.succeed r).portAnswers = s.portAnswers := rfl
@[simp] theorem succeed_pending : (s.succeed r).pending = s.pending := rfl
@[simp] theorem succeed_replies : (s.succeed r).replies = s.replies := rfl
end

section
variable (s : State) (site : Site)
@[simp] theorem fail_cmd : (s.fail site).cmd = s.cmd := rfl
@[simp] theorem fail_status : (s.fail site).status = statusFault site := rfl
@[simp] theorem fail_arg0 : (s.fail site).arg0 = s.arg0 := rfl
@[simp] theorem fail_arg1 : (s.fail site).arg1 = s.arg1 := rfl
@[simp] theorem fail_arg2 : (s.fail site).arg2 = s.arg2 := rfl
@[simp] theorem fail_arg3 : (s.fail site).arg3 = s.arg3 := rfl
@[simp] theorem fail_arg4 : (s.fail site).arg4 = s.arg4 := rfl
@[simp] theorem fail_res0 : (s.fail site).res0 = 0#256 := rfl
@[simp] theorem fail_res1 : (s.fail site).res1 = 0#256 := rfl
@[simp] theorem fail_res2 : (s.fail site).res2 = 0#256 := rfl
@[simp] theorem fail_res3 : (s.fail site).res3 = 0#256 := rfl
@[simp] theorem fail_words : (s.fail site).words = s.words := rfl
@[simp] theorem fail_platform : (s.fail site).platform = s.platform := rfl
@[simp] theorem fail_portAnswers : (s.fail site).portAnswers = s.portAnswers := rfl
@[simp] theorem fail_pending : (s.fail site).pending = s.pending := rfl
@[simp] theorem fail_replies : (s.fail site).replies = s.replies := rfl
end

section
variable (s : State) (c : U32)
@[simp] theorem setCmd_cmd : (s.setCmd c).cmd = c := rfl
@[simp] theorem setCmd_status : (s.setCmd c).status = s.status := rfl
@[simp] theorem setCmd_arg0 : (s.setCmd c).arg0 = s.arg0 := rfl
@[simp] theorem setCmd_arg1 : (s.setCmd c).arg1 = s.arg1 := rfl
@[simp] theorem setCmd_arg2 : (s.setCmd c).arg2 = s.arg2 := rfl
@[simp] theorem setCmd_arg3 : (s.setCmd c).arg3 = s.arg3 := rfl
@[simp] theorem setCmd_arg4 : (s.setCmd c).arg4 = s.arg4 := rfl
@[simp] theorem setCmd_res0 : (s.setCmd c).res0 = s.res0 := rfl
@[simp] theorem setCmd_res1 : (s.setCmd c).res1 = s.res1 := rfl
@[simp] theorem setCmd_res2 : (s.setCmd c).res2 = s.res2 := rfl
@[simp] theorem setCmd_res3 : (s.setCmd c).res3 = s.res3 := rfl
@[simp] theorem setCmd_words : (s.setCmd c).words = s.words := rfl
@[simp] theorem setCmd_platform : (s.setCmd c).platform = s.platform := rfl
@[simp] theorem setCmd_portAnswers : (s.setCmd c).portAnswers = s.portAnswers := rfl
@[simp] theorem setCmd_pending : (s.setCmd c).pending = s.pending := rfl
@[simp] theorem setCmd_replies : (s.setCmd c).replies = s.replies := rfl
end

section
variable (s : State) (es : List Event)
@[simp] theorem setPending_cmd : (s.setPending es).cmd = s.cmd := rfl
@[simp] theorem setPending_status : (s.setPending es).status = s.status := rfl
@[simp] theorem setPending_arg0 : (s.setPending es).arg0 = s.arg0 := rfl
@[simp] theorem setPending_arg1 : (s.setPending es).arg1 = s.arg1 := rfl
@[simp] theorem setPending_arg2 : (s.setPending es).arg2 = s.arg2 := rfl
@[simp] theorem setPending_arg3 : (s.setPending es).arg3 = s.arg3 := rfl
@[simp] theorem setPending_arg4 : (s.setPending es).arg4 = s.arg4 := rfl
@[simp] theorem setPending_res0 : (s.setPending es).res0 = s.res0 := rfl
@[simp] theorem setPending_res1 : (s.setPending es).res1 = s.res1 := rfl
@[simp] theorem setPending_res2 : (s.setPending es).res2 = s.res2 := rfl
@[simp] theorem setPending_res3 : (s.setPending es).res3 = s.res3 := rfl
@[simp] theorem setPending_words : (s.setPending es).words = s.words := rfl
@[simp] theorem setPending_platform : (s.setPending es).platform = s.platform := rfl
@[simp] theorem setPending_portAnswers : (s.setPending es).portAnswers = s.portAnswers := rfl
@[simp] theorem setPending_pending : (s.setPending es).pending = es := rfl
@[simp] theorem setPending_replies : (s.setPending es).replies = s.replies := rfl
end

section
variable (s : State) (r : Reply)
@[simp] theorem reply_cmd : (s.reply r).cmd = s.cmd := rfl
@[simp] theorem reply_status : (s.reply r).status = s.status := rfl
@[simp] theorem reply_arg0 : (s.reply r).arg0 = s.arg0 := rfl
@[simp] theorem reply_arg1 : (s.reply r).arg1 = s.arg1 := rfl
@[simp] theorem reply_arg2 : (s.reply r).arg2 = s.arg2 := rfl
@[simp] theorem reply_arg3 : (s.reply r).arg3 = s.arg3 := rfl
@[simp] theorem reply_arg4 : (s.reply r).arg4 = s.arg4 := rfl
@[simp] theorem reply_res0 : (s.reply r).res0 = s.res0 := rfl
@[simp] theorem reply_res1 : (s.reply r).res1 = s.res1 := rfl
@[simp] theorem reply_res2 : (s.reply r).res2 = s.res2 := rfl
@[simp] theorem reply_res3 : (s.reply r).res3 = s.res3 := rfl
@[simp] theorem reply_words : (s.reply r).words = s.words := rfl
@[simp] theorem reply_platform : (s.reply r).platform = s.platform := rfl
@[simp] theorem reply_portAnswers : (s.reply r).portAnswers = s.portAnswers := rfl
@[simp] theorem reply_pending : (s.reply r).pending = s.pending := rfl
@[simp] theorem reply_replies : (s.reply r).replies = r :: s.replies := rfl
end

section
variable (s : State) (idx : I16) (v : U256)
@[simp] theorem hostWordWrite_cmd : (s.hostWordWrite idx v).cmd = s.cmd := rfl
@[simp] theorem hostWordWrite_status : (s.hostWordWrite idx v).status = s.status := rfl
@[simp] theorem hostWordWrite_arg0 : (s.hostWordWrite idx v).arg0 = s.arg0 := rfl
@[simp] theorem hostWordWrite_arg1 : (s.hostWordWrite idx v).arg1 = s.arg1 := rfl
@[simp] theorem hostWordWrite_arg2 : (s.hostWordWrite idx v).arg2 = s.arg2 := rfl
@[simp] theorem hostWordWrite_arg3 : (s.hostWordWrite idx v).arg3 = s.arg3 := rfl
@[simp] theorem hostWordWrite_arg4 : (s.hostWordWrite idx v).arg4 = s.arg4 := rfl
@[simp] theorem hostWordWrite_res0 : (s.hostWordWrite idx v).res0 = s.res0 := rfl
@[simp] theorem hostWordWrite_res1 : (s.hostWordWrite idx v).res1 = s.res1 := rfl
@[simp] theorem hostWordWrite_res2 : (s.hostWordWrite idx v).res2 = s.res2 := rfl
@[simp] theorem hostWordWrite_res3 : (s.hostWordWrite idx v).res3 = s.res3 := rfl
@[simp] theorem hostWordWrite_words : (s.hostWordWrite idx v).words = s.words.write idx v := rfl
@[simp] theorem hostWordWrite_platform : (s.hostWordWrite idx v).platform = s.platform := rfl
@[simp] theorem hostWordWrite_portAnswers : (s.hostWordWrite idx v).portAnswers = s.portAnswers := rfl
@[simp] theorem hostWordWrite_pending : (s.hostWordWrite idx v).pending = s.pending := rfl
@[simp] theorem hostWordWrite_replies : (s.hostWordWrite idx v).replies = s.replies := rfl
end

section
variable (s : State)
@[simp] theorem afterWordRead_cmd : (s.afterWordRead).cmd = s.cmd := rfl
@[simp] theorem afterWordRead_status : (s.afterWordRead).status = s.status := rfl
@[simp] theorem afterWordRead_arg0 : (s.afterWordRead).arg0 = s.arg0 := rfl
@[simp] theorem afterWordRead_arg1 : (s.afterWordRead).arg1 = s.arg1 := rfl
@[simp] theorem afterWordRead_arg2 : (s.afterWordRead).arg2 = s.arg2 := rfl
@[simp] theorem afterWordRead_arg3 : (s.afterWordRead).arg3 = s.arg3 := rfl
@[simp] theorem afterWordRead_arg4 : (s.afterWordRead).arg4 = s.arg4 := rfl
@[simp] theorem afterWordRead_res0 : (s.afterWordRead).res0 = s.res0 := rfl
@[simp] theorem afterWordRead_res1 : (s.afterWordRead).res1 = s.res1 := rfl
@[simp] theorem afterWordRead_res2 : (s.afterWordRead).res2 = s.res2 := rfl
@[simp] theorem afterWordRead_res3 : (s.afterWordRead).res3 = s.res3 := rfl
@[simp] theorem afterWordRead_words : (s.afterWordRead).words = s.words := rfl
@[simp] theorem afterWordRead_platform : (s.afterWordRead).platform = s.platform := rfl
@[simp] theorem afterWordRead_portAnswers : (s.afterWordRead).portAnswers = s.portAnswers.tail := rfl
@[simp] theorem afterWordRead_pending : (s.afterWordRead).pending = s.pending := rfl
@[simp] theorem afterWordRead_replies : (s.afterWordRead).replies = s.replies := rfl
end

section
variable (s : State)
@[simp] theorem resetRegisters_cmd : (s.resetRegisters).cmd = 0#32 := rfl
@[simp] theorem resetRegisters_status : (s.resetRegisters).status = 0#32 := rfl
@[simp] theorem resetRegisters_arg0 : (s.resetRegisters).arg0 = 0#256 := rfl
@[simp] theorem resetRegisters_arg1 : (s.resetRegisters).arg1 = 0#256 := rfl
@[simp] theorem resetRegisters_arg2 : (s.resetRegisters).arg2 = 0#256 := rfl
@[simp] theorem resetRegisters_arg3 : (s.resetRegisters).arg3 = 0#256 := rfl
@[simp] theorem resetRegisters_arg4 : (s.resetRegisters).arg4 = 0#256 := rfl
@[simp] theorem resetRegisters_res0 : (s.resetRegisters).res0 = 0#256 := rfl
@[simp] theorem resetRegisters_res1 : (s.resetRegisters).res1 = 0#256 := rfl
@[simp] theorem resetRegisters_res2 : (s.resetRegisters).res2 = 0#256 := rfl
@[simp] theorem resetRegisters_res3 : (s.resetRegisters).res3 = 0#256 := rfl
@[simp] theorem resetRegisters_words : (s.resetRegisters).words = s.words := rfl
@[simp] theorem resetRegisters_platform : (s.resetRegisters).platform = s.platform := rfl
@[simp] theorem resetRegisters_portAnswers : (s.resetRegisters).portAnswers = s.portAnswers := rfl
@[simp] theorem resetRegisters_pending : (s.resetRegisters).pending = s.pending := rfl
@[simp] theorem resetRegisters_replies : (s.resetRegisters).replies = s.replies := rfl
end

@[simp] theorem storeRegister_cmd (s : State) (n : Nat) (v : U256) :
    (s.storeRegister n v).cmd = s.cmd := by
  unfold State.storeRegister; split <;> rfl
@[simp] theorem storeRegister_status (s : State) (n : Nat) (v : U256) :
    (s.storeRegister n v).status = s.status := by
  unfold State.storeRegister; split <;> rfl
@[simp] theorem storeRegister_res0 (s : State) (n : Nat) (v : U256) :
    (s.storeRegister n v).res0 = s.res0 := by
  unfold State.storeRegister; split <;> rfl
@[simp] theorem storeRegister_res1 (s : State) (n : Nat) (v : U256) :
    (s.storeRegister n v).res1 = s.res1 := by
  unfold State.storeRegister; split <;> rfl
@[simp] theorem storeRegister_res2 (s : State) (n : Nat) (v : U256) :
    (s.storeRegister n v).res2 = s.res2 := by
  unfold State.storeRegister; split <;> rfl
@[simp] theorem storeRegister_res3 (s : State) (n : Nat) (v : U256) :
    (s.storeRegister n v).res3 = s.res3 := by
  unfold State.storeRegister; split <;> rfl
@[simp] theorem storeRegister_words (s : State) (n : Nat) (v : U256) :
    (s.storeRegister n v).words = s.words := by
  unfold State.storeRegister; split <;> rfl
@[simp] theorem storeRegister_platform (s : State) (n : Nat) (v : U256) :
    (s.storeRegister n v).platform = s.platform := by
  unfold State.storeRegister; split <;> rfl
@[simp] theorem storeRegister_portAnswers (s : State) (n : Nat) (v : U256) :
    (s.storeRegister n v).portAnswers = s.portAnswers := by
  unfold State.storeRegister; split <;> rfl
@[simp] theorem storeRegister_pending (s : State) (n : Nat) (v : U256) :
    (s.storeRegister n v).pending = s.pending := by
  unfold State.storeRegister; split <;> rfl
@[simp] theorem storeRegister_replies (s : State) (n : Nat) (v : U256) :
    (s.storeRegister n v).replies = s.replies := by
  unfold State.storeRegister; split <;> rfl

theorem finish_ok (s : State) (r : Success) : s.finish (.ok r) = s.succeed r := rfl

theorem finish_error (s : State) (site : Site) : s.finish (.error site) = s.fail site := rfl

end Sys2Proof.Machine
end

