-- ==== Sys2Proof/Laws/Ops.lean ====
section
/-! SUPPORT. What each shared operation can do, said once: how a command ends, what the word port
answers, what one step performs. -/

namespace Sys2Proof.Machine

@[simp] theorem cmd_map_ok {α β : Type} (f : α → β) (a : α) :
    (Except.ok a : Cmd α).map f = .ok (f a) := rfl

@[simp] theorem cmd_map_error {α β : Type} (f : α → β) (site : Site) :
    (Except.error site : Cmd α).map f = .error site := rfl

@[simp] theorem cmd_bind_ok {α β : Type} (f : α → Cmd β) (a : α) :
    (Except.ok a : Cmd α).bind f = f a := rfl

@[simp] theorem cmd_bind_error {α β : Type} (f : α → Cmd β) (site : Site) :
    (Except.error site : Cmd α).bind f = .error site := rfl

@[simp] theorem raise_eq {α : Type} (site : Site) : (raise site : Cmd α) = .error site := rfl

/-- A mapped computation succeeds exactly when it does, with the mapped value. -/
theorem cmd_map_eq_ok {α β : Type} {f : α → β} {r : Cmd α} {b : β} :
    r.map f = .ok b ↔ ∃ a, r = .ok a ∧ f a = b := by
  cases r <;> simp

/-- A mapped computation fails exactly when it does, at the same site (43_full_math.md R111). -/
theorem cmd_map_eq_error {α β : Type} {f : α → β} {r : Cmd α} {site : Site} :
    r.map f = .error site ↔ r = .error site := by
  cases r <;> simp

/-- A sequence succeeds exactly when both parts do. -/
theorem cmd_bind_eq_ok {α β : Type} {f : α → Cmd β} {r : Cmd α} {b : β} :
    r.bind f = .ok b ↔ ∃ a, r = .ok a ∧ f a = .ok b := by
  cases r <;> simp

/-- A sequence fails exactly when its first part fails, or its second after a first that succeeds. -/
theorem cmd_bind_eq_error {α β : Type} {f : α → Cmd β} {r : Cmd α} {site : Site} :
    r.bind f = .error site ↔ r = .error site ∨ ∃ a, r = .ok a ∧ f a = .error site := by
  cases r <;> simp

/-- Everything the end of a command can do: succeed with its outcome, or fail at its site. -/
theorem ends_next_iff {s t : State} {r : Cmd Success} :
    s.ends r = .next t ↔
      (∃ out, r = .ok out ∧ t = s.succeed out) ∨ ∃ site, r = .error site ∧ t = s.fail site := by
  cases r with
  | ok out => simp [State.ends, State.finish, eq_comm]
  | error site => simp [State.ends, State.finish, eq_comm]

theorem ends_ok (s : State) (out : Success) : s.ends (.ok out) = .next (s.succeed out) := rfl

theorem ends_error (s : State) (site : Site) : s.ends (.error site) = .next (s.fail site) := rfl

/-- A port that cannot fail answers the stored word (20_memory.md R38). -/
theorem wordRead_of_cannot_fail {s : State} (h : s.platform.wordReadMayFail = false) (idx : I16) :
    s.wordRead idx = .ok (s.words.read idx) := by
  unfold State.wordRead
  split <;> simp [h]

/-- With no answer scheduled the port answers the stored word. -/
theorem wordRead_of_no_answers {s : State} (h : s.portAnswers = []) (idx : I16) :
    s.wordRead idx = .ok (s.words.read idx) := by
  unfold State.wordRead State.portAnswer
  rw [h]
  rfl

/-- The one way a word read fails (20_memory.md R37, R38). -/
theorem wordRead_eq_error_iff {s : State} {idx : I16} {site : Site} :
    s.wordRead idx = .error site ↔
      site = .wordReadError ∧ s.platform.wordReadMayFail = true ∧ s.portAnswer = .error := by
  unfold State.wordRead
  split
  · simp_all
  · simp_all
  · rename_i hp
    by_cases h : s.platform.wordReadMayFail = true
    · rw [if_pos h, raise_eq]
      exact ⟨fun he => ⟨(Except.error.inj he).symm, h, hp⟩, fun he => by rw [he.1]⟩
    · rw [if_neg h]
      exact ⟨fun he => by simp at he, fun he => absurd he.2.1 h⟩

/-- One step performs the next event on the state that no longer has it pending. -/
theorem step_cons {s : State} {e : Event} {rest : List Event} (h : s.pending = e :: rest) :
    step s = perform (s.setPending rest) e := by
  simp [step, performNext, h]

/-- With nothing pending the machine is idle. -/
theorem step_nil {s : State} (h : s.pending = []) : step s = .next s := by
  simp [step, performNext, h]

/-- Everything a step can do: nothing, or perform its next event. -/
theorem step_cases {s t : State} (h : step s = .next t) :
    (s.pending = [] ∧ t = s) ∨
      ∃ e rest, s.pending = e :: rest ∧ perform (s.setPending rest) e = .next t := by
  cases hp : s.pending with
  | nil => rw [step_nil hp] at h; exact .inl ⟨rfl, by simpa using h.symm⟩
  | cons e rest => rw [step_cons hp] at h; exact .inr ⟨e, rest, rfl, h⟩

/-- Everything a register write can do: start a command, or store in an ARG register, or nothing. -/
theorem registerWrite_cases {s t : State} {n : Nat} {v : U256} (h : registerWrite s n v = .next t) :
    (n = cmdNumber ∧ runCommand s (low32 v) = .next t) ∨
      (n ≠ cmdNumber ∧ t = s.storeRegister n v) := by
  unfold registerWrite at h
  split at h
  · exact .inl ⟨‹_›, h⟩
  · exact .inr ⟨‹_›, by simpa using h.symm⟩

/-- Everything a write of a command word can do. -/
theorem runCommand_cases {s t : State} {c : U32} (h : runCommand s c = .next t) :
    (∃ i, decode c = .ok i ∧ exec i (s.setCmd c) = .next t) ∨
      ∃ why, decode c = .error why ∧ t = (s.setCmd c).fail (siteOfIllegal why) := by
  unfold runCommand at h
  split at h
  · exact .inl ⟨_, ‹_›, h⟩
  · exact .inr ⟨_, ‹_›, by simpa [State.ends, State.finish] using h.symm⟩

end Sys2Proof.Machine
end

