-- ==== Sys2Proof/Laws/FullMath.lean ====
section
/-! SUPPORT. The multiply-divide operations over natural numbers: when they answer, with what, and when
they fail (42_unsafe_math.md R100; 43_full_math.md R105, R106, R108). -/

namespace Sys2Proof.Machine

open Sys2Proof.Safety

theorem trueProduct_lt (a b : U256) : trueProduct a b < 2 ^ 256 * 2 ^ 256 :=
  Nat.mul_lt_mul'' a.isLt b.isLt

/-- "prod1 == 0": the product fits 256 bits. -/
theorem highLimb_eq_zero_iff (a b : U256) : highLimb a b = 0 ↔ a.toNat * b.toNat < 2 ^ 256 := by
  simp [highLimb, trueProduct, Nat.div_eq_zero_iff]

/-- "`floor(P / d) < 2^256` holds exactly when `prod1 < d`" (R106). -/
theorem highLimb_lt_iff (a b : U256) (d : Nat) (hd : 0 < d) :
    highLimb a b < d ↔ a.toNat * b.toNat / d < 2 ^ 256 := by
  rw [highLimb, trueProduct, Nat.div_lt_iff_lt_mul (by decide), Nat.div_lt_iff_lt_mul hd,
    Nat.mul_comm d]

theorem toNat_eq_zero_iff {w : Nat} (d : BitVec w) : d.toNat = 0 ↔ d = 0#w :=
  ⟨fun h => BitVec.eq_of_toNat_eq (by simpa using h), fun h => by simp [h]⟩

/-- A number below 2^256 is its own pattern. -/
theorem toNat_ofNat_of_lt {n : Nat} (h : n < 2 ^ 256) : (BitVec.ofNat 256 n).toNat = n := by
  rw [BitVec.toNat_ofNat, Nat.mod_eq_of_lt h]

/-- MULDIV answers exactly when the divisor is not 0 and the exact quotient fits, and then with the
exact quotient (R106, R109). -/
theorem mulDiv_eq_ok_iff {a b d q : U256} :
    mulDiv a b d = .ok q ↔ d.toNat ≠ 0 ∧ q.toNat = a.toNat * b.toNat / d.toNat := by
  have hz := toNat_eq_zero_iff d
  unfold mulDiv
  by_cases hp : highLimb a b = 0
  · have hfit := (highLimb_eq_zero_iff a b).1 hp
    by_cases hd : d = 0#256
    · simp [hp, hd]
    · have hd' : d.toNat ≠ 0 := fun h => hd (hz.1 h)
      have hq : a.toNat * b.toNat / d.toNat < 2 ^ 256 :=
        Nat.lt_of_le_of_lt (Nat.div_le_self _ _) hfit
      simp only [hp, if_true, hd, if_false, Except.ok.injEq, hd', ne_eq, not_false_eq_true, true_and]
      constructor
      · rintro rfl; exact toNat_ofNat_of_lt hq
      · intro h; exact BitVec.eq_of_toNat_eq ((toNat_ofNat_of_lt hq).trans h.symm)
  · by_cases hd : d.toNat ≤ highLimb a b
    · simp only [hp, if_false, hd, if_true, raise_eq, reduceCtorEq, false_iff, not_and]
      intro h0 hq
      have := (highLimb_lt_iff a b d.toNat (by omega)).2 (hq ▸ q.isLt)
      omega
    · have hd' : d.toNat ≠ 0 := by omega
      have hq := (highLimb_lt_iff a b d.toNat (by omega)).1 (by omega)
      simp only [hp, if_false, hd, Except.ok.injEq, hd', ne_eq, not_false_eq_true, true_and]
      constructor
      · rintro rfl; exact toNat_ofNat_of_lt hq
      · intro h; exact BitVec.eq_of_toNat_eq ((toNat_ofNat_of_lt hq).trans h.symm)

/-- The two faults of MULDIV (R106). -/
theorem mulDiv_eq_error_iff {a b d : U256} {site : Site} :
    mulDiv a b d = .error site ↔
      (site = .muldivByZero ∧ d.toNat = 0 ∧ a.toNat * b.toNat < 2 ^ 256) ∨
      (site = .muldivOverflow ∧ d.toNat = 0 ∧ 2 ^ 256 ≤ a.toNat * b.toNat) ∨
      (site = .muldivOverflow ∧ d.toNat ≠ 0 ∧ 2 ^ 256 ≤ a.toNat * b.toNat / d.toNat) := by
  have hz := toNat_eq_zero_iff d
  have hp := highLimb_eq_zero_iff a b
  have hl := highLimb_lt_iff a b d.toNat
  have hle := Nat.div_le_self (a.toNat * b.toNat) d.toNat
  unfold mulDiv
  split
  · have hfit := hp.1 ‹_›
    split
    · have hd := hz.2 ‹_›
      simp only [raise_eq, Except.error.injEq]
      constructor
      · intro h; exact .inl ⟨h.symm, hd, hfit⟩
      · rintro (h | h | h)
        · exact h.1.symm
        · omega
        · omega
    · have hd : d.toNat ≠ 0 := fun h => ‹¬d = 0#256› (hz.1 h)
      simp only [reduceCtorEq, false_iff]
      rintro (h | h | h) <;> omega
  · have hbig : ¬ a.toNat * b.toNat < 2 ^ 256 := fun h => ‹¬highLimb a b = 0› (hp.2 h)
    split
    · simp only [raise_eq, Except.error.injEq]
      constructor
      · intro h
        by_cases hd : d.toNat = 0
        · exact .inr (.inl ⟨h.symm, hd, by omega⟩)
        · refine .inr (.inr ⟨h.symm, hd, ?_⟩)
          have := mt (hl (by omega)).2 (by omega)
          omega
      · rintro (h | h | h)
        · omega
        · exact h.1.symm
        · exact h.1.symm
    · have := (hl (by omega)).1 (by omega)
      simp only [reduceCtorEq, false_iff]
      rintro (h | h | h) <;> omega

/-- The ceiling is the floor, plus one when there is a remainder. -/
theorem ceilQ_eq (n d : Nat) (hd : 0 < d) :
    ceilQ n d = n / d + (if n % d = 0 then 0 else 1) := by
  have h := Nat.div_add_mod n d
  have hlt := Nat.mod_lt n hd
  unfold ceilQ
  split
  · rename_i h0
    have h1 : n + d - 1 = d * (n / d) + (d - 1) := by
      rw [h0, Nat.add_zero] at h
      rw [h, Nat.add_sub_assoc hd]
    rw [h1, Nat.mul_add_div hd, Nat.div_eq_of_lt (a := d - 1) (by omega)]
  · rename_i h0
    have h1 : n + d - 1 = d * (n / d + 1) + (n % d - 1) := by
      have h2 : n = d * (n / d) + n % d := h.symm
      generalize n % d = r at h2 h0
      generalize n / d = q at h2
      rw [Nat.mul_add, h2]
      omega
    rw [h1, Nat.mul_add_div hd, Nat.div_eq_of_lt (a := n % d - 1) (by omega)]

theorem productMod_eq_zero_iff (a b d : U256) (hd : d.toNat ≠ 0) :
    productMod a b d = 0#256 ↔ a.toNat * b.toNat % d.toNat = 0 := by
  have hlt : a.toNat * b.toNat % d.toNat < 2 ^ 256 :=
    Nat.lt_trans (Nat.mod_lt _ (by omega)) d.isLt
  rw [← toNat_eq_zero_iff, productMod, trueProduct, toNat_ofNat_of_lt hlt]

/-- MULDIVRU answers exactly when the divisor is not 0 and the exact ceiling fits (R108). -/
theorem mulDivRoundingUp_eq_ok_iff {a b d q : U256} :
    mulDivRoundingUp a b d = .ok q ↔ d.toNat ≠ 0 ∧ q.toNat = ceilQ (a.toNat * b.toNat) d.toNat := by
  unfold mulDivRoundingUp
  rw [cmd_bind_eq_ok]
  constructor
  · rintro ⟨f, hf, hr⟩
    obtain ⟨hd, hq⟩ := mulDiv_eq_ok_iff.1 hf
    refine ⟨hd, ?_⟩
    rw [ceilQ_eq _ _ (by omega)]
    have hz := productMod_eq_zero_iff a b d hd
    unfold roundUpQuotient at hr
    split at hr
    · have := hz.1 ‹_›
      simp only [Except.ok.injEq] at hr
      subst hr
      simp [this, hq]
    · have hne : ¬ a.toNat * b.toNat % d.toNat = 0 := fun h => ‹¬_ = 0#256› (hz.2 h)
      split at hr
      · simp at hr
      · rename_i hmax
        simp only [Except.ok.injEq] at hr
        subst hr
        have hf' : f.toNat ≠ 2 ^ 256 - 1 := fun h => hmax (BitVec.eq_of_toNat_eq (by simp [maxU256, h]))
        have := f.isLt
        simp only [hne, if_false, BitVec.toNat_add]
        rw [← hq, Nat.mod_eq_of_lt (by simp; omega)]
        rfl
  · rintro ⟨hd, hq⟩
    rw [ceilQ_eq _ _ (by omega)] at hq
    have hz := productMod_eq_zero_iff a b d hd
    have hqlt := q.isLt
    have hfl : a.toNat * b.toNat / d.toNat < 2 ^ 256 := by omega
    refine ⟨BitVec.ofNat 256 (a.toNat * b.toNat / d.toNat),
      mulDiv_eq_ok_iff.2 ⟨hd, toNat_ofNat_of_lt hfl⟩, ?_⟩
    unfold roundUpQuotient
    by_cases h0 : a.toNat * b.toNat % d.toNat = 0
    · rw [if_pos (hz.2 h0)]
      rw [if_pos h0] at hq
      exact congrArg _ (BitVec.eq_of_toNat_eq ((toNat_ofNat_of_lt hfl).trans hq.symm))
    · rw [if_neg (fun h => h0 (hz.1 h))]
      rw [if_neg h0] at hq
      have hm : ¬ BitVec.ofNat 256 (a.toNat * b.toNat / d.toNat) = maxU256 := by
        intro h
        have := congrArg BitVec.toNat h
        rw [toNat_ofNat_of_lt hfl, show maxU256.toNat = 2 ^ 256 - 1 from rfl] at this
        omega
      rw [if_neg hm]
      refine congrArg _ (BitVec.eq_of_toNat_eq ?_)
      simp only [BitVec.toNat_add, BitVec.toNat_ofNat]
      rw [Nat.mod_eq_of_lt hfl, hq, Nat.mod_eq_of_lt (by simp; omega)]

/-- The third fault of MULDIVRU: the floor is `2^256 - 1` and there is a remainder (R108). -/
theorem mulDivRoundingUp_eq_error_iff {a b d : U256} {site : Site} :
    mulDivRoundingUp a b d = .error site ↔
      mulDiv a b d = .error site ∨
      (site = .muldivruIncrement ∧ d.toNat ≠ 0 ∧ a.toNat * b.toNat / d.toNat = 2 ^ 256 - 1 ∧
        a.toNat * b.toNat % d.toNat ≠ 0) := by
  unfold mulDivRoundingUp
  rw [cmd_bind_eq_error]
  refine or_congr_right ⟨?_, ?_⟩
  · rintro ⟨f, hf, hr⟩
    obtain ⟨hd, hq⟩ := mulDiv_eq_ok_iff.1 hf
    have hz := productMod_eq_zero_iff a b d hd
    unfold roundUpQuotient at hr
    split at hr
    · simp at hr
    · have hne : ¬ a.toNat * b.toNat % d.toNat = 0 := fun h => ‹¬_ = 0#256› (hz.2 h)
      split at hr
      · rename_i hmax
        have : f.toNat = 2 ^ 256 - 1 := by rw [hmax]; simp [maxU256]
        simp only [raise_eq, Except.error.injEq] at hr
        exact ⟨hr.symm, hd, by omega, hne⟩
      · simp at hr
  · rintro ⟨rfl, hd, hq, hne⟩
    have hz := productMod_eq_zero_iff a b d hd
    refine ⟨maxU256, mulDiv_eq_ok_iff.2 ⟨hd, by simp [maxU256, hq]⟩, ?_⟩
    unfold roundUpQuotient
    rw [if_neg (fun h => hne (hz.1 h)), if_pos rfl]
    rfl

/-- The ceiling division is exact for a divisor that is not 0, and its increment never wraps (R100). -/
theorem ceilDiv_toNat {a b : U256} (hb : b.toNat ≠ 0) :
    (ceilDiv a b).toNat = ceilQ a.toNat b.toNat := by
  have hz := toNat_eq_zero_iff (remW a b)
  rw [ceilQ_eq _ _ (by omega)]
  have ha := a.isLt
  simp only [BitVec.toNat_umod] at hz
  unfold ceilDiv
  by_cases h0 : a.toNat % b.toNat = 0
  · simp [hz.1 h0, h0, BitVec.toNat_udiv]
  · have hne : remW a b ≠ 0#256 := fun h => h0 (hz.2 h)
    have hb2 : 2 ≤ b.toNat := by
      rcases Nat.lt_or_ge b.toNat 2 with h | h
      · have : b.toNat = 1 := by omega
        simp [this, Nat.mod_one] at h0
      · exact h
    have hhalf : a.toNat / b.toNat ≤ a.toNat / 2 := Nat.div_le_div_left hb2 (by omega)
    simp only [hne, ne_eq, not_false_eq_true, if_true, h0, if_false, BitVec.toNat_add,
      BitVec.toNat_udiv]
    rw [Nat.mod_eq_of_lt]
    · rfl
    · simp; omega

/-- The checked ceiling division (R100, R101). -/
theorem divRoundingUp_eq {a b : U256} {site : Site} :
    divRoundingUp a b site = if b.toNat = 0 then .error site else .ok (ceilDiv a b) := by
  unfold divRoundingUp
  simp only [toNat_eq_zero_iff, raise_eq]

end Sys2Proof.Machine
end

