-- ==== Sys2Proof/Laws/PerInstr.lean ====
section
/-! SUPPORT. Statements about every command, one lemma per constructor (LAWS.json). -/

namespace Sys2Proof.Laws.EncodeLegal

/-- A command is well-formed, its encoding is a legal command word, and bit 8 of it is set only in a
command that takes the modifier (30_encoding.md R53, R54). -/
def Statement (i : Instr) : Prop :=
  i.wellFormed = true ∧ legalWord (encode i) = true ∧
    ((encode i).getLsbD 8 = true → i.takesM = true)

theorem msb : Statement .msb := ⟨rfl, by decide, fun h => absurd h (by decide)⟩

theorem lsb : Statement .lsb := ⟨rfl, by decide, fun h => absurd h (by decide)⟩

theorem divru : Statement .divru := ⟨rfl, by decide, fun h => absurd h (by decide)⟩

theorem mulmod : Statement .mulmod := ⟨rfl, by decide, fun h => absurd h (by decide)⟩

theorem muldiv : Statement .muldiv := ⟨rfl, by decide, fun h => absurd h (by decide)⟩

theorem muldivru : Statement .muldivru := ⟨rfl, by decide, fun h => absurd h (by decide)⟩

theorem tick2sqrt : Statement .tick2sqrt := ⟨rfl, by decide, fun h => absurd h (by decide)⟩

theorem sqrt2tick : Statement .sqrt2tick := ⟨rfl, by decide, fun h => absurd h (by decide)⟩

theorem nextin (zeroForOne : Bool) : Statement (.nextin zeroForOne) := by
  cases zeroForOne <;> exact ⟨rfl, by decide, fun _ => rfl⟩

theorem nextout (zeroForOne : Bool) : Statement (.nextout zeroForOne) := by
  cases zeroForOne <;> exact ⟨rfl, by decide, fun _ => rfl⟩

theorem nexta0 (add : Bool) : Statement (.nexta0 add) := by
  cases add <;> exact ⟨rfl, by decide, fun _ => rfl⟩

theorem nexta1 (add : Bool) : Statement (.nexta1 add) := by
  cases add <;> exact ⟨rfl, by decide, fun _ => rfl⟩

theorem amt0 (roundUp : Bool) : Statement (.amt0 roundUp) := by
  cases roundUp <;> exact ⟨rfl, by decide, fun _ => rfl⟩

theorem amt1 (roundUp : Bool) : Statement (.amt1 roundUp) := by
  cases roundUp <;> exact ⟨rfl, by decide, fun _ => rfl⟩

theorem samt0 : Statement .samt0 := ⟨rfl, by decide, fun h => absurd h (by decide)⟩

theorem samt1 : Statement .samt1 := ⟨rfl, by decide, fun h => absurd h (by decide)⟩

theorem bmpos : Statement .bmpos := ⟨rfl, by decide, fun h => absurd h (by decide)⟩

theorem flip : Statement .flip := ⟨rfl, by decide, fun h => absurd h (by decide)⟩

theorem nextinit (lte : Bool) : Statement (.nextinit lte) := by
  cases lte <;> exact ⟨rfl, by decide, fun _ => rfl⟩

theorem adddelta : Statement .adddelta := ⟨rfl, by decide, fun h => absurd h (by decide)⟩

theorem swapstep : Statement .swapstep := ⟨rfl, by decide, fun h => absurd h (by decide)⟩

end Sys2Proof.Laws.EncodeLegal
end

