-- ==== Sys2Proof/Laws/SqrtPriceMath.lean ====
section
/-! SUPPORT. The named parts of SqrtPriceMath over natural numbers: the numerator, the tests for a wrapped
product and a wrapped sum, the two orders of the prices, the delta functions
(45_sqrt_price_math.md R135, R140, R142 to R144). -/

namespace Sys2Proof.Machine

open Sys2Proof.Safety

@[simp] theorem low128_toNat (r : U256) : (low128 r).toNat = liquidityOf r := by
  simp [low128, liquidityOf]

@[simp] theorem zext128_toNat (l : U128) : (zext128 l).toNat = l.toNat := by
  have h := l.isLt
  simp only [zext128, BitVec.toNat_setWidth]
  exact Nat.mod_eq_of_lt (by omega)

/-- "`L * 2^96`, below 2^224, so the shift loses no bit" (R135). -/
theorem numerator1_toNat (l : U128) : (numerator1 l).toNat = l.toNat * 2 ^ 96 := by
  have h := l.isLt
  simp only [numerator1, BitVec.toNat_shiftLeft, zext128_toNat, Nat.shiftLeft_eq]
  exact Nat.mod_eq_of_lt (by omega)

/-- The round-trip division check of R140 detects exactly a product that needs more than 256 bits. -/
theorem productFits_iff {amount price : U256} (h : amount ≠ 0#256) :
    productFits amount price = true ↔ amount.toNat * price.toNat < 2 ^ 256 := by
  have ha : 0 < amount.toNat := Nat.pos_of_ne_zero fun h0 => h (toNat_eq_zero_iff _ |>.1 h0)
  simp only [productFits, decide_eq_true_eq]
  rw [← BitVec.toNat_inj, BitVec.toNat_udiv, BitVec.toNat_mul]
  constructor
  · intro heq
    rcases Nat.lt_or_ge (amount.toNat * price.toNat) (2 ^ 256) with hlt | hge
    · exact hlt
    · exfalso
      have hm : amount.toNat * price.toNat % 2 ^ 256 < amount.toNat * price.toNat := by
        have := Nat.mod_lt (amount.toNat * price.toNat) (show 0 < 2 ^ 256 by decide)
        omega
      have hlt : amount.toNat * price.toNat % 2 ^ 256 / amount.toNat < price.toNat :=
        (Nat.div_lt_iff_lt_mul ha).2 (by rwa [Nat.mul_comm price.toNat])
      omega
  · intro hlt
    rw [Nat.mod_eq_of_lt hlt, Nat.mul_div_cancel_left _ ha]

/-- The two tests of the `add` branch of R140 hold exactly when `n1 + amount * price` fits 256 bits. -/
theorem addDenominator_iff {amount price : U256} (l : U128) (h : amount ≠ 0#256) :
    (productFits amount price = true ∧
        numerator1 l ≤ addW (numerator1 l) (mulW amount price)) ↔
      (numerator1 l).toNat + amount.toNat * price.toNat < 2 ^ 256 := by
  rw [productFits_iff h, BitVec.le_def, BitVec.toNat_add, BitVec.toNat_mul]
  have hn := (numerator1 l).isLt
  generalize (numerator1 l).toNat = n at hn ⊢
  generalize amount.toNat * price.toNat = p
  omega

theorem lowerPrice_toNat (a b : U256) : (lowerPrice a b).toNat = min a.toNat b.toNat := by
  unfold lowerPrice
  split <;> rename_i h <;> simp only [BitVec.lt_def] at h <;> omega

theorem upperPrice_toNat (a b : U256) : (upperPrice a b).toNat = max a.toNat b.toNat := by
  unfold upperPrice
  split <;> rename_i h <;> simp only [BitVec.lt_def] at h <;> omega

theorem priceGap_toNat (a b : U256) :
    (subW (upperPrice a b) (lowerPrice a b)).toNat =
      max a.toNat b.toNat - min a.toNat b.toNat := by
  have ha := a.isLt
  have hb := b.isLt
  rw [BitVec.toNat_sub, upperPrice_toNat, lowerPrice_toNat]
  omega

/-- "every delta function is symmetric in its two price operands" (R142). -/
theorem lowerPrice_eq_zero_iff (a b : U256) :
    lowerPrice a b = 0#256 ↔ a.toNat = 0 ∨ b.toNat = 0 := by
  rw [← toNat_eq_zero_iff, lowerPrice_toNat]
  omega

/-- AMT1's value and when there is one (R144). -/
theorem amount1Delta_eq_ok_iff {a b q : U256} {l : U128} {up : Bool} :
    amount1Delta a b l up = .ok q ↔
      a.toNat ≠ 0 ∧ b.toNat ≠ 0 ∧ q.toNat = amount1 up a.toNat b.toNat l.toNat := by
  unfold amount1Delta
  have hz := lowerPrice_eq_zero_iff a b
  by_cases h0 : lowerPrice a b = 0#256
  · rw [if_pos h0]
    simp only [raise_eq, reduceCtorEq, false_iff]
    rintro ⟨ha, hb, -⟩
    exact (hz.1 h0).elim ha hb
  · rw [if_neg h0]
    have hne := mt hz.2 h0
    have hq : q96.toNat = 2 ^ 96 := rfl
    unfold amount1Between amount1 quot
    cases up
    · simp only [Bool.false_eq_true, if_false]
      rw [mulDiv_eq_ok_iff, zext128_toNat, priceGap_toNat, hq]
      constructor
      · rintro ⟨-, h⟩; exact ⟨by omega, by omega, h⟩
      · rintro ⟨-, -, h⟩; exact ⟨by decide, h⟩
    · simp only [if_true]
      rw [mulDivRoundingUp_eq_ok_iff, zext128_toNat, priceGap_toNat, hq]
      constructor
      · rintro ⟨-, h⟩; exact ⟨by omega, by omega, h⟩
      · rintro ⟨-, -, h⟩; exact ⟨by decide, h⟩

/-- The inner quotient of R143 is at most the numerator, in either rounding. -/
theorem quot_gap_le (up : Bool) (n gap high : Nat) (h : gap ≤ high) (hpos : 0 < high) :
    quot up (n * gap) high ≤ n := by
  have hle : n * gap ≤ n * high := Nat.mul_le_mul_left n h
  cases up
  · simp only [quot, Bool.false_eq_true, if_false]
    exact Nat.le_trans (Nat.div_le_div_right hle) (by rw [Nat.mul_div_cancel _ hpos])
  · simp only [quot, if_true, ceilQ]
    calc (n * gap + high - 1) / high ≤ (n * high + (high - 1)) / high :=
          Nat.div_le_div_right (by omega)
      _ = n := by
        rw [Nat.mul_comm, Nat.mul_add_div hpos, Nat.div_eq_of_lt (by omega), Nat.add_zero]

/-- AMT0 has a value exactly when neither price is 0, and which (R143). -/
theorem amount0Delta_eq_ok_iff {a b q : U256} {l : U128} {up : Bool} :
    amount0Delta a b l up = .ok q ↔
      a.toNat ≠ 0 ∧ b.toNat ≠ 0 ∧ q.toNat = amount0 up a.toNat b.toNat l.toNat := by
  unfold amount0Delta
  have hz := lowerPrice_eq_zero_iff a b
  by_cases h0 : lowerPrice a b = 0#256
  · rw [if_pos h0]
    simp only [raise_eq, reduceCtorEq, false_iff]
    rintro ⟨ha, hb, -⟩
    exact (hz.1 h0).elim ha hb
  · rw [if_neg h0]
    have hne := mt hz.2 h0
    have hlow : (lowerPrice a b).toNat ≠ 0 := mt (toNat_eq_zero_iff _).1 h0
    have hhigh : (upperPrice a b).toNat ≠ 0 := by rw [upperPrice_toNat]; omega
    have hgap : (subW (upperPrice a b) (lowerPrice a b)).toNat ≤ (upperPrice a b).toNat := by
      rw [priceGap_toNat, upperPrice_toNat]; omega
    have hle := quot_gap_le up (numerator1 l).toNat _ _ hgap (by omega)
    have hn := (numerator1 l).isLt
    have hval : amount0 up a.toNat b.toNat l.toNat =
        quot up (quot up ((numerator1 l).toNat *
          (subW (upperPrice a b) (lowerPrice a b)).toNat) (upperPrice a b).toNat)
          (lowerPrice a b).toNat := by
      rw [numerator1_toNat, priceGap_toNat, upperPrice_toNat, lowerPrice_toNat]; rfl
    rw [hval]
    unfold amount0Between
    cases up
    · simp only [Bool.false_eq_true, if_false, quot] at hle ⊢
      rw [cmd_map_eq_ok]
      constructor
      · rintro ⟨f, hf, rfl⟩
        obtain ⟨-, hf⟩ := mulDiv_eq_ok_iff.1 hf
        exact ⟨by omega, by omega, by rw [BitVec.toNat_udiv, hf]⟩
      · rintro ⟨-, -, hq⟩
        refine ⟨BitVec.ofNat 256 _, mulDiv_eq_ok_iff.2 ⟨hhigh, toNat_ofNat_of_lt (by omega)⟩, ?_⟩
        exact BitVec.eq_of_toNat_eq (by
          rw [BitVec.toNat_udiv, toNat_ofNat_of_lt (by omega), hq])
    · simp only [if_true, quot] at hle ⊢
      rw [cmd_map_eq_ok]
      constructor
      · rintro ⟨f, hf, rfl⟩
        obtain ⟨-, hf⟩ := mulDivRoundingUp_eq_ok_iff.1 hf
        exact ⟨by omega, by omega, by rw [ceilDiv_toNat hlow, hf]⟩
      · rintro ⟨-, -, hq⟩
        refine ⟨BitVec.ofNat 256 _,
          mulDivRoundingUp_eq_ok_iff.2 ⟨hhigh, toNat_ofNat_of_lt (by omega)⟩, ?_⟩
        exact BitVec.eq_of_toNat_eq (by
          rw [ceilDiv_toNat hlow, toNat_ofNat_of_lt (by omega), hq])

/-- The quotient of the `add` branch of R141 is `floor(amount * 2^96 / L)` in both its forms, where
that fits. -/
theorem amount1QuotientDown_eq_ok_iff {l : U128} {amount q : U256} :
    amount1QuotientDown l amount = .ok q ↔
      l.toNat ≠ 0 ∧ q.toNat = amount.toNat * 2 ^ 96 / l.toNat := by
  unfold amount1QuotientDown
  have hq96 : q96.toNat = 2 ^ 96 := rfl
  have hz : zext128 l = 0#256 ↔ l.toNat = 0 := by rw [← toNat_eq_zero_iff, zext128_toNat]
  by_cases hfit : amount ≤ maxU160
  · rw [if_pos hfit]
    have hle : amount.toNat ≤ 2 ^ 160 - 1 := by simpa [BitVec.le_def, maxU160] using hfit
    have hshift : (shlW amount 96).toNat = amount.toNat * 2 ^ 96 := by
      rw [BitVec.toNat_shiftLeft, Nat.shiftLeft_eq]
      exact Nat.mod_eq_of_lt (by omega)
    by_cases h0 : l.toNat = 0
    · rw [if_pos (hz.2 h0)]
      simp [h0]
    · rw [if_neg (mt hz.1 h0)]
      simp only [Except.ok.injEq, ne_eq, h0, not_false_eq_true, true_and]
      rw [← BitVec.toNat_inj, BitVec.toNat_udiv, hshift, zext128_toNat]
      exact eq_comm
  · rw [if_neg hfit, mulDiv_eq_ok_iff, zext128_toNat, hq96]

/-- The quotient of the `!add` branch of R141 is `ceil(amount * 2^96 / L)` in both its forms, where
that fits. -/
theorem amount1QuotientUp_eq_ok_iff {l : U128} {amount q : U256} :
    amount1QuotientUp l amount = .ok q ↔
      l.toNat ≠ 0 ∧ q.toNat = ceilQ (amount.toNat * 2 ^ 96) l.toNat := by
  unfold amount1QuotientUp
  have hq96 : q96.toNat = 2 ^ 96 := rfl
  by_cases hfit : amount ≤ maxU160
  · rw [if_pos hfit, divRoundingUp_eq, zext128_toNat]
    have hle : amount.toNat ≤ 2 ^ 160 - 1 := by simpa [BitVec.le_def, maxU160] using hfit
    have hshift : (shlW amount 96).toNat = amount.toNat * 2 ^ 96 := by
      rw [BitVec.toNat_shiftLeft, Nat.shiftLeft_eq]
      exact Nat.mod_eq_of_lt (by omega)
    by_cases h0 : l.toNat = 0
    · rw [if_pos h0]
      simp [h0]
    · rw [if_neg h0]
      simp only [Except.ok.injEq, ne_eq, h0, not_false_eq_true, true_and]
      rw [← BitVec.toNat_inj, ceilDiv_toNat (by rw [zext128_toNat]; exact h0), hshift,
        zext128_toNat]
      exact eq_comm
  · rw [if_neg hfit, mulDivRoundingUp_eq_ok_iff, zext128_toNat, hq96]

end Sys2Proof.Machine
end

