-- ==== Sys2Proof/Laws/TickBitmap.lean ====
section
/-! SUPPORT. The named parts of TickBitmap over integers: the position of a compressed tick, compression
and the two masks (46_tick_bitmap.md R160, R163, R165). -/

namespace Sys2Proof.Machine

open Sys2Proof.Safety

/-- The word index is the floor of the compressed tick by 256, modulo 2^16 (R160). -/
theorem wordIndex_eq (ct : I32) : wordIndex ct = wordOf ct.toInt := by
  have h : (sar32 ct 8).toInt = ct.toInt / 256 := by
    rw [BitVec.toInt_sshiftRight, Int.shiftRight_eq_div_pow]
    norm_num
  rw [wordOf, ← h]
  apply BitVec.eq_of_toInt_eq
  rw [BitVec.toInt_ofInt, wordIndex, BitVec.toInt_setWidth, BitVec.toInt_eq_toNat_bmod (sar32 ct 8),
    Int.bmod_bmod_of_dvd (by decide)]

/-- The bit position is the non-negative remainder by 256 (R160). -/
theorem bitPosition_toNat (ct : I32) : (bitPosition ct).toNat = bitOf ct.toInt := by
  simp only [bitPosition, bitOf, mod256, BitVec.toNat_setWidth]
  have h := BitVec.toInt_eq_toNat_cond ct
  have hlt := ct.isLt
  split at h <;> omega

theorem rem32_eq_zero_iff (tick spacing : I32) :
    rem32 tick spacing = 0#32 ↔ spacing.toInt ∣ tick.toInt := by
  rw [← BitVec.toInt_inj, BitVec.toInt_srem]
  exact (Int.dvd_iff_tmod_eq_zero).symm

theorem toInt_bounds32 (x : I32) : -2147483648 ≤ x.toInt ∧ x.toInt < 2147483648 := by
  have h1 := BitVec.le_toInt x
  have h2 := BitVec.toInt_lt (x := x)
  constructor
  · simpa using h1
  · simpa using h2

/-- The quotient by a positive spacing never wraps (R83, R163). -/
theorem div32_toInt (tick spacing : I32) (h : 0 < spacing.toInt) :
    (div32 tick spacing).toInt = tick.toInt.tdiv spacing.toInt := by
  rw [BitVec.toInt_sdiv_of_ne_or_ne]
  right
  intro hm
  subst hm
  simp at h

/-- "The result is `floor(tick / spacing)`", for every tick and positive spacing (R163). -/
theorem compress_toInt (tick spacing : I32) (h : 0 < spacing.toInt) :
    (compress tick spacing).toInt = tick.toInt / spacing.toInt := by
  have hb := toInt_bounds32 tick
  have hq := div32_toInt tick spacing h
  have hr := rem32_eq_zero_iff tick spacing
  have hdiv : tick.toInt.tdiv spacing.toInt =
      tick.toInt / spacing.toInt +
        (if 0 ≤ tick.toInt ∨ spacing.toInt ∣ tick.toInt then 0 else 1) := by
    rw [Int.tdiv_eq_ediv, Int.sign_eq_one_of_pos h]
  unfold compress
  split
  · rename_i hc
    have hn : ¬ spacing.toInt ∣ tick.toInt := fun hd => hc.2 (hr.2 hd)
    rw [if_neg (fun h0 => h0.elim (fun h1 => by omega) hn)] at hdiv
    have hlow : tick.toInt ≤ tick.toInt / spacing.toInt := by
      rw [Int.le_ediv_iff_mul_le h]; nlinarith
    have hup : tick.toInt / spacing.toInt < 0 := Int.ediv_neg_of_neg_of_pos hc.1 h
    rw [BitVec.toInt_sub, hq, hdiv]
    rw [show (1#32).toInt = 1 from rfl, Int.bmod_eq_of_le (by omega) (by omega)]
    omega
  · rename_i hc
    rw [hq, hdiv, if_pos, Int.add_zero]
    by_contra hcon
    push Not at hcon
    exact hc ⟨hcon.1, fun h0 => hcon.2 (hr.1 h0)⟩

/-- FLIP's two checks and its exact division (R161, R164). -/
theorem flipTarget_eq_ok_iff {tick spacing ct : I32} :
    flipTarget tick spacing = .ok ct ↔
      0 < spacing.toInt ∧ spacing.toInt ∣ tick.toInt ∧ ct.toInt = tick.toInt / spacing.toInt := by
  unfold flipTarget
  simp only [spacingBad, decide_eq_true_eq, raise_eq]
  by_cases hs : spacing.toInt ≤ 0
  · rw [if_pos hs]
    simp only [reduceCtorEq, false_iff]
    omega
  · rw [if_neg hs]
    have hpos : 0 < spacing.toInt := by omega
    by_cases hr : rem32 tick spacing = 0#32
    · have hd := (rem32_eq_zero_iff tick spacing).1 hr
      rw [if_neg (not_not.2 hr)]
      simp only [Except.ok.injEq, hpos, hd, true_and]
      rw [← BitVec.toInt_inj, div32_toInt tick spacing hpos, Int.tdiv_eq_ediv_of_dvd hd]
      exact eq_comm
    · rw [if_pos hr]
      simp only [reduceCtorEq, false_iff]
      rintro ⟨-, hd, -⟩
      exact hr ((rem32_eq_zero_iff tick spacing).2 hd)

/-- `1 << b` is the one bit `b`. -/
theorem bitMask_getLsbD (b : U8) (i : Nat) : (bitMask b).getLsbD i = decide (i = b.toNat) := by
  have hb := b.isLt
  by_cases h : i = b.toNat
  · subst h; simp [bitMask]; omega
  · simp [bitMask, h]
    omega

theorem bitMask_toNat (b : U8) : (bitMask b).toNat = 2 ^ b.toNat := by
  have hb : b.toNat ≤ 255 := by have := b.isLt; omega
  have hp : 2 ^ b.toNat ≤ 2 ^ 255 := Nat.pow_le_pow_right (by decide) hb
  rw [bitMask, BitVec.toNat_shiftLeft, Nat.shiftLeft_eq, show (1#256).toNat = 1 from rfl,
    Nat.one_mul, Nat.mod_eq_of_lt (by omega)]

theorem belowMask_toNat (b : U8) : (subW (bitMask b) 1#256).toNat = 2 ^ b.toNat - 1 := by
  have hpos : 0 < 2 ^ b.toNat := Nat.pow_pos (by decide)
  have hlt := (bitMask b).isLt
  rw [BitVec.toNat_sub, bitMask_toNat] at *
  rw [show (1#256).toNat = 1 from rfl]
  omega

/-- `mask_lte(b)`: "the bits 0 to `b` inclusive" (R165). -/
theorem maskLte_getLsbD (b : U8) (i : Nat) : (maskLte b).getLsbD i = decide (i ≤ b.toNat) := by
  have hb : b.toNat ≤ 255 := by have := b.isLt; omega
  have hpos : 0 < 2 ^ b.toNat := Nat.pow_pos (by decide)
  have hp : 2 ^ b.toNat ≤ 2 ^ 255 := Nat.pow_le_pow_right (by decide) hb
  have h : (maskLte b).toNat = 2 ^ (b.toNat + 1) - 1 := by
    rw [maskLte, BitVec.toNat_add, belowMask_toNat, bitMask_toNat, Nat.pow_succ]
    omega
  rw [BitVec.getLsbD, h, Nat.testBit_two_pow_sub_one]
  simp

/-- `mask_gt(b)`: "the bits `b` to 255 inclusive" (R165). -/
theorem maskGt_getLsbD (b : U8) (i : Nat) :
    (maskGt b).getLsbD i = (decide (b.toNat ≤ i) && decide (i < 256)) := by
  have h : (subW (bitMask b) 1#256).getLsbD i = decide (i < b.toNat) := by
    rw [BitVec.getLsbD, belowMask_toNat, Nat.testBit_two_pow_sub_one]
  have hm : maxU256.getLsbD i = decide (i < 256) := by
    rw [BitVec.getLsbD, show maxU256.toNat = 2 ^ 256 - 1 from rfl, Nat.testBit_two_pow_sub_one]
  rw [maskGt, BitVec.getLsbD_xor, h, hm]
  have hb := b.isLt
  by_cases h1 : i < b.toNat <;> by_cases h2 : i < 256 <;> simp [h1, h2] <;> omega

end Sys2Proof.Machine
end

