-- ==== Sys2Proof/Laws/TickMath.lean ====
section
/-! SUPPORT. What the search of SQRT2TICK finds, with no assumption on the forward function: an offset that
reaches the price whose successor does not (44_tick_math.md R125). -/

namespace Sys2Proof.Machine

/-- The search stays in its interval and ends at an offset that reaches `p`, or where it began, with a
successor that does not reach `p`. -/
theorem searchOffset_spec (p : U256) (n offset : Nat)
    (h : offsetReaches p (offset + 2 ^ n) = false) :
    offset ≤ searchOffset p n offset ∧ searchOffset p n offset < offset + 2 ^ n ∧
      offsetReaches p (searchOffset p n offset + 1) = false ∧
      (searchOffset p n offset = offset ∨ offsetReaches p (searchOffset p n offset) = true) := by
  induction n generalizing offset with
  | zero => exact ⟨Nat.le_refl _, Nat.lt_succ_self _, h, .inl rfl⟩
  | succ n ih =>
    have hpow : (2 : Nat) ^ (n + 1) = 2 ^ n + 2 ^ n := by rw [Nat.pow_succ]; omega
    unfold searchOffset
    split
    · rename_i hr
      obtain ⟨h1, h2, h3, h4⟩ := ih (offset + 2 ^ n) (by rwa [Nat.add_assoc, ← hpow])
      refine ⟨by omega, by omega, h3, .inr ?_⟩
      rcases h4 with h4 | h4
      · rw [h4]; exact hr
      · exact h4
    · rename_i hr
      obtain ⟨h1, h2, h3, h4⟩ := ih offset (by simpa using hr)
      exact ⟨h1, by omega, h3, h4⟩

end Sys2Proof.Machine
end

