-- ==== Sys2Proof/Machine/Assembler.lean ====
section
/-! DEFINITION. The listing syntax of host programs (30_encoding.md R58) and the pseudo-instructions
(R59), as what each line expands to: events of the host. None is an encoding, and the engine has no
part in them. -/

namespace Sys2Proof.Machine

/-- A line of a host program (R58). Numbers are integers: "a leading - on a number written to a register
means the two's-complement 256-bit pattern". -/
inductive AsmLine where
  /-- `wr ARGi, value`. -/
  | wrArg (i : Fin 5) (value : Int)
  /-- `ex MNEMONIC` or `ex MNEMONIC.SUFFIX`. -/
  | ex (i : Instr)
  /-- `wr CMD, word`. -/
  | wrCmd (word : U32)
  /-- `rd STATUS`. -/
  | rdStatus
  /-- `rd RESi`. -/
  | rdRes (i : Fin 4)
  /-- `rd ARGi`. -/
  | rdArg (i : Fin 5)
  /-- `rd CMD`. -/
  | rdCmd
  /-- `ww idx, value`. -/
  | ww (idx : Int) (value : Int)
  /-- `rw idx`. -/
  | rw (idx : Int)
deriving DecidableEq, Repr

/-- The transaction a line stands for (R58). -/
def AsmLine.event : AsmLine → Event
  | .wrArg i value => .regWrite (0x08 + i.val) (BitVec.ofInt 256 value)
  | .ex i => .regWrite 0x00 (zext32 (encode i))
  | .wrCmd word => .regWrite 0x00 (zext32 word)
  | .rdStatus => .regRead 0x01
  | .rdRes i => .regRead (0x10 + i.val)
  | .rdArg i => .regRead (0x08 + i.val)
  | .rdCmd => .regRead 0x00
  | .ww idx value => .wordWrite (BitVec.ofInt 16 idx) (BitVec.ofInt 256 value)
  | .rw idx => .wordRead (BitVec.ofInt 16 idx)

/-- The `wr` lines of a list of operands, from ARG`first` upward; a sixth operand has no register. -/
def wrArgs : Nat → List Int → List AsmLine
  | _, [] => []
  | first, v :: vs => (if h : first < 5 then [.wrArg ⟨first, h⟩ v] else []) ++ wrArgs (first + 1) vs

/-- `call MNEMONIC(a0, a1, ...)` (R59). -/
def callLines (i : Instr) (operands : List Int) : List AsmLine :=
  wrArgs 0 operands ++ [.ex i, .rdStatus]

/-- `mv ARGi, RESj` (R59): the host reads the result register and writes the value it got, in a state
in which the read returns the value RESj then holds. -/
def mvLines (s : State) (i : Fin 5) (j : Fin 4) : List AsmLine :=
  [.rdRes j, .wrArg i (s.readRegister (0x10 + j.val)).toNat]

/-- The condition of `abort_if_err` (R59): the last `rd STATUS` had `ERR != 0`. -/
def abortIfErr (statusRead : U32) : Bool := decide (errField statusRead ≠ 0#4)

/-- The mnemonic of a command with its suffix (R52, R53, R58). -/
def mnemonicText : Instr → String
  | .msb => "MSB"
  | .lsb => "LSB"
  | .divru => "DIVRU"
  | .mulmod => "MULMOD"
  | .muldiv => "MULDIV"
  | .muldivru => "MULDIVRU"
  | .tick2sqrt => "TICK2SQRT"
  | .sqrt2tick => "SQRT2TICK"
  | .nextin m => if m then "NEXTIN.ZFO" else "NEXTIN.OFZ"
  | .nextout m => if m then "NEXTOUT.ZFO" else "NEXTOUT.OFZ"
  | .nexta0 m => if m then "NEXTA0.ADD" else "NEXTA0.SUB"
  | .nexta1 m => if m then "NEXTA1.ADD" else "NEXTA1.SUB"
  | .amt0 m => if m then "AMT0.RU" else "AMT0.RD"
  | .amt1 m => if m then "AMT1.RU" else "AMT1.RD"
  | .samt0 => "SAMT0"
  | .samt1 => "SAMT1"
  | .bmpos => "BMPOS"
  | .flip => "FLIP"
  | .nextinit m => if m then "NEXTINIT.LTE" else "NEXTINIT.GT"
  | .adddelta => "ADDDELTA"
  | .swapstep => "SWAPSTEP"

end Sys2Proof.Machine
end

