-- ==== Sys2Proof/Tests/Slice0.lean ====
section
/-! SUPPORT. The model's own tests, and for each statement with hypotheses a witness that they can be met
together. Expected values come from the spec: a comment names the rule, or the section of
95_test_vectors.md. -/

namespace Sys2Proof.Tests

open Sys2Proof.Machine Sys2Proof.Safety

/-- A state with these five operands, the port answering the stored words. -/
def regs (a0 a1 a2 a3 a4 : Nat) : State :=
  { State.reset with
    arg0 := BitVec.ofNat 256 a0, arg1 := BitVec.ofNat 256 a1, arg2 := BitVec.ofNat 256 a2
    arg3 := BitVec.ofNat 256 a3, arg4 := BitVec.ofNat 256 a4 }

/-- A state in which one event is pending. -/
def host (e : Event) : State := State.reset.setPending [e]

/-- A state whose platform is known: the port's next answer is an error, the engine's base is 512. -/
def remote (a0 a1 : Nat) : State :=
  { regs a0 a1 0 0 0 with platform := ⟨true, 1⟩, portAnswers := [.error] }

/-- STATUS and RES0 to RES3 of an outcome, as numbers. -/
def outcome : Host.Outcome State Fault Refusal → List Nat
  | .next t => [t.status.toNat, t.res0.toNat, t.res1.toNat, t.res2.toNat, t.res3.toNat]
  | .fault _ => []
  | .refused _ => []

/-- W of an outcome. -/
def wordsOf : Host.Outcome State Fault Refusal → Memory
  | .next t => t.words
  | .fault _ => []
  | .refused _ => []

/-! ### WellFormed: each check of R54 refuses a word -/

theorem test_unassigned_opcode_refused : wordHasOpcode 0x00000022#32 = false := by decide

theorem test_reserved_bit_refused : wordReservedZero 0x00000220#32 = false := by decide

theorem test_modifier_refused : wordModifierAllowed 0x00000120#32 = false := by decide

theorem test_illegal_words :
    legalWord 0x00000022#32 = false ∧ legalWord 0x00000220#32 = false ∧
      legalWord 0x00000120#32 = false ∧ legalWord 0x00000000#32 = false := by decide

/-! ### Decode: every command's word, written out bit by bit from R51 to R53 -/

theorem test_decode_msb :
    decode 0b00000000000000000000000000100000#32 = .ok .msb := by decide

theorem test_decode_lsb :
    decode 0b00000000000000000000000000100001#32 = .ok .lsb := by decide

theorem test_decode_divru :
    decode 0b00000000000000000000000000110000#32 = .ok .divru := by decide

theorem test_decode_mulmod :
    decode 0b00000000000000000000000001000000#32 = .ok .mulmod := by decide

theorem test_decode_muldiv :
    decode 0b00000000000000000000000001000001#32 = .ok .muldiv := by decide

theorem test_decode_muldivru :
    decode 0b00000000000000000000000001000010#32 = .ok .muldivru := by decide

theorem test_decode_tick2sqrt :
    decode 0b00000000000000000000000001010000#32 = .ok .tick2sqrt := by decide

theorem test_decode_sqrt2tick :
    decode 0b00000000000000000000000001010001#32 = .ok .sqrt2tick := by decide

theorem test_decode_nextin :
    decode 0b00000000000000000000000101100000#32 = .ok (.nextin true) ∧
      decode 0b00000000000000000000000001100000#32 = .ok (.nextin false) := by decide

theorem test_decode_nextout :
    decode 0b00000000000000000000000101100001#32 = .ok (.nextout true) ∧
      decode 0b00000000000000000000000001100001#32 = .ok (.nextout false) := by decide

theorem test_decode_nexta0 :
    decode 0b00000000000000000000000101100010#32 = .ok (.nexta0 true) ∧
      decode 0b00000000000000000000000001100010#32 = .ok (.nexta0 false) := by decide

theorem test_decode_nexta1 :
    decode 0b00000000000000000000000101100011#32 = .ok (.nexta1 true) ∧
      decode 0b00000000000000000000000001100011#32 = .ok (.nexta1 false) := by decide

theorem test_decode_amt0 :
    decode 0b00000000000000000000000101100100#32 = .ok (.amt0 true) ∧
      decode 0b00000000000000000000000001100100#32 = .ok (.amt0 false) := by decide

theorem test_decode_amt1 :
    decode 0b00000000000000000000000101100101#32 = .ok (.amt1 true) ∧
      decode 0b00000000000000000000000001100101#32 = .ok (.amt1 false) := by decide

theorem test_decode_samt0 :
    decode 0b00000000000000000000000001100110#32 = .ok .samt0 := by decide

theorem test_decode_samt1 :
    decode 0b00000000000000000000000001100111#32 = .ok .samt1 := by decide

theorem test_decode_bmpos :
    decode 0b00000000000000000000000001110000#32 = .ok .bmpos := by decide

theorem test_decode_flip :
    decode 0b00000000000000000000000001110001#32 = .ok .flip := by decide

theorem test_decode_nextinit :
    decode 0b00000000000000000000000101110010#32 = .ok (.nextinit true) ∧
      decode 0b00000000000000000000000001110010#32 = .ok (.nextinit false) := by decide

theorem test_decode_adddelta :
    decode 0b00000000000000000000000010000000#32 = .ok .adddelta := by decide

theorem test_decode_swapstep :
    decode 0b00000000000000000000000010010000#32 = .ok .swapstep := by decide

theorem test_decode_illegal :
    decode 0x00000022#32 = .error .unassignedOpcode ∧ decode 0xFFFFFF22#32 = .error .unassignedOpcode ∧
      decode 0x00000220#32 = .error .reservedBits ∧ decode 0x00000120#32 = .error .reservedBits := by
  decide

theorem test_decode_bytes :
    decodeBytes [0x64#8, 0x01#8, 0x00#8, 0x00#8] = .ok (.amt0 true) ∧
      decodeBytes [0x64#8] = .error .notFourBytes ∧
      decodeBytes [0x00#8, 0x00#8, 0x00#8, 0x20#8] = .error (.illegal .unassignedOpcode) := by
  decide

theorem test_decode_table_word :
    decodeTableWord 32 0x172 = some (.nextinit true) ∧ decodeTableWord 9 0x160 = some (.nextin true) ∧
      decodeTableWord 32 0x1A0 = none := by decide

/-! ### One command at a time -/

/-- R90. -/
theorem test_msb_0x50 :
    outcome (exec .msb (regs 0x50 0 0 0 0)) =
      [0x1000, 6, 0, 0, 0] := by decide +kernel

/-- section 2.1. -/
theorem test_msb_zero :
    outcome (exec .msb (regs 0 0 0 0 0)) =
      [0x1011, 0, 0, 0, 0] := by decide +kernel

/-- R91. -/
theorem test_lsb_0x50 :
    outcome (exec .lsb (regs 0x50 0 0 0 0)) =
      [0x1000, 4, 0, 0, 0] := by decide +kernel

/-- section 1.5. -/
theorem test_lsb_top :
    outcome (exec .lsb (regs (2 ^ 255) 0 0 0 0)) =
      [0x1000, 255, 0, 0, 0] := by decide +kernel

/-- R100. -/
theorem test_divru_7_2 :
    outcome (exec .divru (regs 7 2 0 0 0)) =
      [0x1000, 4, 0, 0, 0] := by decide +kernel

/-- R100. -/
theorem test_divru_by_one :
    outcome (exec .divru (regs (2 ^ 256 - 1) 1 0 0 0)) =
      [0x1000, 2 ^ 256 - 1, 0, 0, 0] := by decide +kernel

/-- R105. -/
theorem test_mulmod_wide :
    outcome (exec .mulmod (regs (2 ^ 255) 4 7 0 0)) =
      [0x1000, 4, 0, 0, 0] := by decide +kernel

/-- R105. -/
theorem test_mulmod_by_zero :
    outcome (exec .mulmod (regs 3 4 0 0 0)) =
      [0x1042, 0, 0, 0, 0] := by decide +kernel

/-- section 1.2. -/
theorem test_muldiv_wide :
    outcome (exec .muldiv (regs (2 ^ 255) 4 3 0 0)) =
      [0x1000, 77194726158210796949047323339125271902179989777093709359638389338608753093290, 0, 0, 0] := by
  decide +kernel

/-- section 1.2. -/
theorem test_muldiv_too_wide :
    outcome (exec .muldiv (regs (2 ^ 256 - 1) (2 ^ 256 - 1) (2 ^ 256 - 2) 0 0)) =
      [0x1063, 0, 0, 0, 0] := by decide +kernel

/-- R108. -/
theorem test_muldivru_35_4 :
    outcome (exec .muldivru (regs 5 7 4 0 0)) =
      [0x1000, 9, 0, 0, 0] := by decide +kernel

/-- R108. -/
theorem test_muldivru_max :
    outcome (exec .muldivru (regs (2 ^ 256 - 1) 2 2 0 0)) =
      [0x1000, 2 ^ 256 - 1, 0, 0, 0] := by decide +kernel

/-- section 1.1. -/
theorem test_tick2sqrt_least :
    outcome (exec .tick2sqrt (regs (2 ^ 256 - 887272) 0 0 0 0)) =
      [0x1000, 4295128739, 0, 0, 0] := by decide +kernel

/-- section 1.1. -/
theorem test_tick2sqrt_greatest :
    outcome (exec .tick2sqrt (regs 887272 0 0 0 0)) =
      [0x1000, 1461446703485210103287273052203988822378723970342, 0, 0, 0] := by decide +kernel

/-- section 1.1. -/
theorem test_sqrt2tick_last :
    outcome (exec .sqrt2tick (regs 1461446703485210103287273052203988822378723970341 0 0 0 0)) =
      [0x1000, 887271, 0, 0, 0] := by decide +kernel

/-- section 1.1. -/
theorem test_sqrt2tick_first :
    outcome (exec .sqrt2tick (regs 4295128739 0 0 0 0)) =
      [0x1000, 2 ^ 256 - 887272, 0, 0, 0] := by decide +kernel

/-- section 2.5. -/
theorem test_nextin_token0 :
    outcome (exec (.nextin true) (regs (2 ^ 96) 1000000000000000000 100000000000000000 0 0)) =
      [0x1000, 72025602285694852357767227579, 0, 0, 0] := by decide +kernel

/-- section 2.5. -/
theorem test_nextin_token1 :
    outcome (exec (.nextin false) (regs (2 ^ 96) 1000000000000000000 100000000000000000 0 0)) =
      [0x1000, 87150978765690771352898345369, 0, 0, 0] := by decide +kernel

/-- section 2.5. -/
theorem test_nextout_token1 :
    outcome (exec (.nextout true) (regs (2 ^ 96) 1000000000000000000 100000000000000000 0 0)) =
      [0x1000, 71305346262837903834189555302, 0, 0, 0] := by decide +kernel

/-- section 2.5. -/
theorem test_nextout_token0 :
    outcome (exec (.nextout false) (regs (2 ^ 96) 1000000000000000000 100000000000000000 0 0)) =
      [0x1000, 88031291682515930659493278152, 0, 0, 0] := by decide +kernel

/-- section 2.5. -/
theorem test_nexta0_fall_back :
    outcome (exec (.nexta0 true) (regs (2 ^ 256 - 1) 1 2 0 0)) =
      [0x1000, 2 ^ 95, 0, 0, 0] := by decide +kernel

/-- section 2.5. -/
theorem test_nexta0_removed :
    outcome (exec (.nexta0 false) (regs (2 ^ 96) 1000 999 0 0)) =
      [0x1000, 79228162514264337593543950336000, 0, 0, 0] := by decide +kernel

/-- section 2.5. -/
theorem test_nexta1_ceiling :
    outcome (exec (.nexta1 true) (regs (2 ^ 160) 1 0 0 0)) =
      [0x10D3, 0, 0, 0, 0] := by decide +kernel

/-- section 2.5. -/
theorem test_nexta1_removed :
    outcome (exec (.nexta1 false) (regs (2 ^ 96) 1000 999 0 0)) =
      [0x1000, 79228162514264337593543950, 0, 0, 0] := by decide +kernel

/-- section 2.6. -/
theorem test_amt0_up :
    outcome (exec (.amt0 true) (regs (2 ^ 96) 87150978765690771352898345369 1000000000000000000 0 0)) =
      [0x1000, 90909090909090910, 0, 0, 0] := by decide +kernel

/-- section 2.6. -/
theorem test_amt0_down :
    outcome (exec (.amt0 false) (regs 3 7 10 0 0)) =
      [0x1000, 150910785741455881130559905401, 0, 0, 0] := by decide +kernel

/-- section 2.6. -/
theorem test_amt1_up :
    outcome (exec (.amt1 true) (regs (2 ^ 96) (2 ^ 96 + 1) 1 0 0)) =
      [0x1000, 1, 0, 0, 0] := by decide +kernel

/-- section 2.6. -/
theorem test_amt1_down :
    outcome (exec (.amt1 false) (regs 87150978765690771352898345369 (2 ^ 96) 1000000000000000000 0 0)) =
      [0x1000, 99999999999999999, 0, 0, 0] := by decide +kernel

/-- section 2.6. -/
theorem test_samt0_negative :
    outcome (exec .samt0 (regs (2 ^ 96) 87150978765690771352898345369 (2 ^ 256 - 1000000000000000000) 0 0)) =
      [0x1000, 2 ^ 256 - 90909090909090909, 0, 0, 0] := by decide +kernel

/-- section 2.6. -/
theorem test_samt1_negative :
    outcome (exec .samt1 (regs (2 ^ 96) 87150978765690771352898345369 (2 ^ 256 - 1000000000000000000) 0 0)) =
      [0x1000, 2 ^ 256 - 99999999999999999, 0, 0, 0] := by decide +kernel

/-- R162. -/
theorem test_bmpos_negative :
    outcome (exec .bmpos (regs (2 ^ 256 - 200) 0 0 0 0)) =
      [0x1000, 2 ^ 256 - 1, 56, 0, 0] := by decide +kernel

/-- R162. -/
theorem test_bmpos_535 :
    outcome (exec .bmpos (regs 535 0 0 0 0)) =
      [0x1000, 2, 23, 0, 0] := by decide +kernel

/-- section 2.7. -/
theorem test_flip_mismatch :
    outcome (exec .flip (regs (2 ^ 256 - 5) 2 0 0 0)) =
      [0x1149, 0, 0, 0, 0] := by decide +kernel

/-- section 1.4. -/
theorem test_adddelta_down :
    outcome (exec .adddelta (regs 10 (2 ^ 256 - 3) 0 0 0)) =
      [0x1000, 7, 0, 0, 0] := by decide +kernel

/-- section 1.4. -/
theorem test_adddelta_over :
    outcome (exec .adddelta (regs (2 ^ 128 - 15) 15 0 0 0)) =
      [0x1178, 0, 0, 0, 0] := by decide +kernel

/-- section 1.6. -/
theorem test_swapstep_short :
    outcome (exec .swapstep (regs (2 ^ 96) 250541448375047931186413801569 2000000000000000000 1000000000000000000 600)) =
      [0x1000, 118818475322642227089037862318, 999400000000000000, 666399946655997866, 600000000000000] := by
  decide +kernel

/-- section 2.9. -/
theorem test_swapstep_exact_out :
    outcome (exec .swapstep (regs (2 ^ 96) 792281625142643375935439503360 2000000000000000000 (2 ^ 256 - 1000000000000000000) 600)) =
      [0x1000, 2 ^ 97, 2000000000000000000, 1000000000000000000, 1200720432259356] := by
  decide +kernel

/-- R164: with W all zero, tick -200 and spacing 1 set bit 56 of word -1. -/
theorem test_flip_writes :
    wordsOf (exec .flip (regs (2 ^ 256 - 200) 1 0 0 0)) = [(65535, BitVec.ofNat 256 (2 ^ 56))] := by
  decide +kernel

/-- R168, sections 1.3 and 2.7: word 0 holds bits 70, 78, 84, 139 and 240. -/
def searched (tick : Nat) : State :=
  { regs tick 1 0 0 0 with
    words := [(0, BitVec.ofNat 256 (2 ^ 70 + 2 ^ 78 + 2 ^ 84 + 2 ^ 139 + 2 ^ 240))] }

theorem test_nextinit_gt : outcome (exec (.nextinit false) (searched 78)) = [0x1000, 84, 1, 0, 0] := by
  decide +kernel

theorem test_nextinit_lte : outcome (exec (.nextinit true) (searched 69)) = [0x1000, 0, 0, 0, 0] := by
  decide +kernel

/-- R198, program 4: an error answer ends the command, and W stays. -/
theorem test_port_error :
    outcome (exec .flip (remote 5 1)) = [0x115A, 0, 0, 0, 0] ∧
      wordsOf (exec .flip (remote 5 1)) = [] := by decide +kernel

/-! ### The engine and its host -/

/-- Program 5: the word 0 written to CMD. -/
theorem test_step_illegal : outcome (step (host (.regWrite 0 0#256))) = [0x118D, 0, 0, 0, 0] := by
  decide +kernel

/-- R42, R43: the four bytes of LSB at the engine's base, with ARG0 = 0. -/
theorem test_bus_command :
    outcome (step ((remote 0 0).setPending [.busWrite 512 [0x21#8, 0#8, 0#8, 0#8]])) =
      [0x1021, 0, 0, 0, 0] := by decide +kernel

theorem test_step_fetch_word :
    outcome (step ((regs 9 2 0 0 0).withFetchWord 32 0x30)) = [0x1000, 5, 0, 0, 0] := by
  decide +kernel

/-- R58, R59: the lines of a call, and the mnemonics. -/
theorem test_call_lines :
    (callLines .divru [7, 2]).map AsmLine.event =
      [.regWrite 0x08 7#256, .regWrite 0x09 2#256, .regWrite 0x00 0x30#256, .regRead 0x01] := by
  decide +kernel

/-- R42, R43: a 32-byte write at offset 0x020 is a write of ARG0, first byte least significant. -/
theorem test_bus_write :
    registerAtOffset 0x020 = some (0x08, 32) ∧ natOfBytes [0x34#8, 0x12#8] = 0x1234 := by decide

/-- R107: the procedure on the example that the source's own words get wrong. -/
theorem test_procedure_correction :
    mulDivProcedure (BitVec.ofNat 256 (2 ^ 255)) 4#256 3#256 =
      .ok 77194726158210796949047323339125271902179989777093709359638389338608753093290#256 := by
  decide +kernel

/-- R126: the logarithm procedure agrees with the contract at both ends. -/
theorem test_tick_procedure :
    tickAtSqrtRatioProcedure log2FracLow minSqrtRatio = BitVec.ofInt 32 (-887272) ∧
      tickAtSqrtRatioProcedure log2FracLow (maxSqrtRatio - 1#256) = BitVec.ofInt 32 887271 := by
  decide +kernel

/-! ### Witnesses: the hypotheses of each statement, each clause at a boundary, met by a concrete state -/

theorem witness_DecodeIffEncode :
    decode 0x00000172#32 = .ok (.nextinit true) ∧
    encode (.nextinit true) = 0x00000172#32 := by decide +kernel

theorem witness_IllegalWordFails :
    (host (.regWrite 0 0x91#256)).pending = [.regWrite 0 0x91#256] ∧
    (0x91#32).setWidth 8 ∉ assignedOpcodes ∧
    (0x290#32).setWidth 8 ∈ assignedOpcodes ∧ 0x290#32 >>> 9 ≠ 0#32 ∧
    (0x190#32).setWidth 8 ∈ assignedOpcodes ∧ (0x190#32).getLsbD 8 = true ∧
      (0x190#32).setWidth 8 ∉ modifierOpcodes := by decide +kernel

theorem witness_StepRunsDecodedCommand :
    (host (.regWrite 0 0x172#256)).pending = .regWrite 0 0x172#256 :: [] ∧
    decode ((0x172#256).setWidth 32) = .ok (.nextinit true) ∧
    ((remote 0 0).setPending [.busWrite 512 [0x72#8, 1#8, 0#8, 0#8]]).pending =
      .busWrite (512 * (remote 0 0).platform.basePage) [0x72#8, 1#8, 0#8, 0#8] :: [] ∧
    decodeBytes [0x72#8, 1#8, 0#8, 0#8] = .ok (.nextinit true) ∧
    0x172 < 2 ^ 32 ∧ decode (BitVec.ofNat 32 0x172) = .ok (.nextinit true) ∧
    Instr.wellFormed (.nextinit true) = true := by decide +kernel

theorem witness_RegisterWriteAccess :
    (host (.regWrite 0x08 7#256)).pending = .regWrite 0x08 7#256 :: [] ∧
    (host (.regWrite 0x0C 7#256)).pending = .regWrite 0x0C 7#256 :: [] ∧
    (host (.regWrite 0x01 7#256)).pending = .regWrite 0x01 7#256 :: [] ∧
    0x01 ∉ [0x00, 0x08, 0x09, 0x0A, 0x0B, 0x0C] ∧ 0x0D ∉ [0x00, 0x08, 0x09, 0x0A, 0x0B, 0x0C] := by
  decide +kernel

theorem witness_RegisterReadAccess :
    (host (.regRead 0x13)).pending = .regRead 0x13 :: [] := by decide +kernel

/-- A bus whose engine is at address 512. -/
def bus (e : Event) : State := (remote 0 0).setPending [e]

theorem witness_BusBindingIsRegisterTransaction :
    (0x160, 32, 0x13) ∈ busMap ∧ (0x004, 4, 0x01) ∈ busMap ∧
    (bus (.busRead 0x360 32)).pending = .busRead (512 * (remote 0 0).platform.basePage + 0x160) 32 :: [] ∧
    (bus (.busWrite 0x200 [0x21#8, 0#8, 0#8, 0#8])).pending =
      .busWrite (512 * (remote 0 0).platform.basePage + 0x000) [0x21#8, 0#8, 0#8, 0#8] :: [] ∧
    (0x000, 4, 0x00) ∈ busMap ∧ (0x21#256).toNat < 2 ^ (8 * 4) ∧
    ∀ k, k < 4 → [0x21#8, 0#8, 0#8, 0#8][k]? = some ((0x21#256).extractLsb' (8 * k) 8) := by
  decide +kernel

theorem witness_BusBindingIsRegisterTransaction_uncovered :
    ∀ e ∈ busMap, e.2.1 = 4 → 0x208 ≠ 512 * (remote 0 0).platform.basePage + e.1 ∧
    ∀ e ∈ busMap, e.2.1 = 4 → 0x1FC ≠ 512 * (remote 0 0).platform.basePage + e.1 ∧
    (bus (.busRead 0x208 4)).pending = .busRead 0x208 4 :: [] ∧
    (bus (.busWrite 0x1FC [1#8, 0#8, 0#8, 0#8])).pending = .busWrite 0x1FC [1#8, 0#8, 0#8, 0#8] :: [] := by
  decide +kernel

theorem witness_HostWordAccess :
    (searched 0).words.wf = true ∧
    ((searched 0).setPending [.wordWrite 0 5#256]).pending = .wordWrite 0 5#256 :: [] ∧
    ((searched 0).setPending [.wordRead 0]).pending = .wordRead 0 :: [] := by decide +kernel

theorem witness_WordPortAnswers :
    (regs 0 0 0 0 0).portAnswers = [] ∧
    ({ remote 0 0 with platform := ⟨false, 0⟩ } : State).platform.wordReadMayFail = false ∧
    (remote 0 0).platform.wordReadMayFail = true ∧ (remote 0 0).portAnswers = .error :: [] ∧
    ({ remote 0 0 with portAnswers := [.word 7#256] } : State).platform.wordReadMayFail = true ∧
      ({ remote 0 0 with portAnswers := [.word 7#256] } : State).portAnswers = .word 7#256 :: [] ∧
    ({ remote 0 0 with portAnswers := [.stored] } : State).portAnswers = .stored :: [] := by
  decide +kernel

theorem witness_ResetEventClearsRegisters :
    (host .reset).pending = .reset :: [] := rfl

/-- A next state for each statement that has one as a hypothesis: CommandFrame, FaultIsAtomic,
FaultsWithinRowOrAmount1Ceiling, SwapStepUnreachableFaults, SwapFeeConservation and the like. -/
theorem witness_CommandFrame :
    (∃ t, exec .divru (regs 7 2 0 0 0) = .next t) ∧ (∃ t, exec .flip (regs 5 1 0 0 0) = .next t) ∧
      flipTarget 5#32 1#32 = .ok 5#32 ∧ flipTarget 5#32 2#32 = .error .spacingMismatch :=
  ⟨⟨_, rfl⟩, ⟨_, rfl⟩, by decide, by decide⟩

theorem witness_FaultIsAtomic :
    ∃ t, exec .msb (regs 0 0 0 0 0) = .next t ∧ t.status ≠ 0x1000#32 := ⟨_, rfl, by decide⟩

theorem witness_FaultsWithinRowOrAmount1Ceiling :
    ∃ t, exec .msb (regs 0 0 0 0 0) = .next t ∧ t.status = 0x1011#32 := ⟨_, rfl, by decide⟩

theorem witness_FaultsWithinRowOrAmount1Ceiling_pastRow :
    (∃ t, exec (.amt1 true) (regs 1 115792089237316195423570985007226406215939081747436879206759747732330906648576
      (2 ^ 96 + 1) 0 0) = .next t ∧ t.status = 0x1073#32) ∧
    (∃ t, exec .samt1 (regs 1 115792089237316195423570985007226406215939081747436879206759747732330906648576
      (2 ^ 96 + 1) 0 0) = .next t ∧ t.status = 0x1073#32) :=
  ⟨⟨_, rfl, by decide +kernel⟩, ⟨_, rfl, by decide +kernel⟩⟩

/-- The arithmetic behind log 35, of unbounded integers only: for prices 1 and the one above, and
liquidity 2^96 + 1, the product of R144 has `prod1 < 2^96`, so SITE 0x06 does not catch it (R106), and
its quotient by 2^96 is 2^256 - 1 with a remainder, which is the case of SITE 0x07 (R108). -/
theorem test_amt1_product_past_row :
    let product := (2 ^ 96 + 1) *
      (115792089237316195423570985007226406215939081747436879206759747732330906648576 - 1)
    product < 2 ^ 352 ∧ product / 2 ^ 256 = 2 ^ 96 - 1 ∧ product / 2 ^ 96 = 2 ^ 256 - 1 ∧
      product % 2 ^ 96 ≠ 0 := by decide +kernel

theorem witness_SwapStepUnreachableFaults :
    ∃ t, exec .swapstep (regs 0 0 0 0 0) = .next t ∧ t.status = 0x11AB#32 := ⟨_, rfl, by decide +kernel⟩

theorem witness_ResultsDependOnOperandsOnly :
    operandView .adddelta (regs (2 ^ 128 + 5) 3 1 0 0) = operandView .adddelta (regs 5 3 0 9 0) ∧
      operandView .flip (regs 5 1 7 0 0) = operandView .flip (regs (2 ^ 32 + 5) 1 0 0 0) ∧
      (regs 5 1 7 0 0).words = (regs (2 ^ 32 + 5) 1 0 0 0).words ∧
      (regs 5 1 7 0 0).portAnswers = (regs (2 ^ 32 + 5) 1 0 0 0).portAnswers ∧
      (regs 5 1 7 0 0).platform = (regs (2 ^ 32 + 5) 1 0 0 0).platform :=
  ⟨by decide +kernel, by decide +kernel, rfl, rfl, rfl⟩

/-- MSB of 0 has just failed, word 0 of W holds 1, and the next event writes LSB to CMD. -/
def afterMsb : State :=
  { State.reset with
    cmd := 0x20#32, status := 0x1011#32, words := [(0, 1#256)], pending := [.regWrite 0 0x21#256] }

theorem witness_OutcomeInvariantKept :
    Inv afterMsb ∧ ∃ t, step afterMsb = .next t :=
  ⟨⟨by decide +kernel, .inr (.inr (.inl ⟨.msb, by decide, by decide, rfl, rfl, rfl, rfl⟩))⟩,
    ⟨_, rfl⟩⟩

theorem witness_MsbHighestSetBit :
    (regs 1 0 0 0 0).arg0 ≠ 0#256 ∧ (regs (2 ^ 255) 0 0 0 0).arg0 ≠ 0#256 ∧ (regs 0 0 0 0 0).arg0 = 0#256 := by
  decide +kernel

theorem witness_LsbLowestSetBit :
    (regs 1 0 0 0 0).arg0 ≠ 0#256 ∧ (regs (2 ^ 255) 0 0 0 0).arg0 ≠ 0#256 ∧ (regs 0 0 0 0 0).arg0 = 0#256 := by
  decide +kernel

theorem witness_DivruExactCeiling :
    (regs (2 ^ 256 - 1) 1 0 0 0).arg1.toNat ≠ 0 ∧ (regs 1 0 0 0 0).arg1.toNat = 0 := by
  decide +kernel

theorem witness_MulmodExactRemainder :
    (regs 5 7 1 0 0).arg2.toNat ≠ 0 ∧ (regs 5 7 0 0 0).arg2.toNat = 0 := by decide +kernel

/-- The product and the divisor of the three operands of MULDIV. -/
def product (s : State) : Nat := s.arg0.toNat * s.arg1.toNat

theorem witness_MuldivExactFloor :
    (regs (2 ^ 256 - 1) (2 ^ 256 - 1) (2 ^ 256 - 1) 0 0).arg2.toNat ≠ 0 ∧ product (regs (2 ^ 256 - 1) (2 ^ 256 - 1) (2 ^ 256 - 1) 0 0) / (regs (2 ^ 256 - 1) (2 ^ 256 - 1) (2 ^ 256 - 1) 0 0).arg2.toNat < 2 ^ 256 ∧
    (regs (2 ^ 255) 2 1 0 0).arg2.toNat ≠ 0 ∧ 2 ^ 256 ≤ product (regs (2 ^ 255) 2 1 0 0) / (regs (2 ^ 255) 2 1 0 0).arg2.toNat ∧
    (regs (2 ^ 256 - 1) 1 0 0 0).arg2.toNat = 0 ∧ product (regs (2 ^ 256 - 1) 1 0 0 0) < 2 ^ 256 ∧
    (regs (2 ^ 255) 2 0 0 0).arg2.toNat = 0 ∧ 2 ^ 256 ≤ product (regs (2 ^ 255) 2 0 0 0) := by
  decide +kernel

theorem witness_MuldivruExactCeiling :
    (regs (2 ^ 256 - 1) (2 ^ 256 - 1) (2 ^ 256 - 1) 0 0).arg2.toNat ≠ 0 ∧ ceilQ (product (regs (2 ^ 256 - 1) (2 ^ 256 - 1) (2 ^ 256 - 1) 0 0)) (regs (2 ^ 256 - 1) (2 ^ 256 - 1) (2 ^ 256 - 1) 0 0).arg2.toNat < 2 ^ 256 ∧
    (regs 535006138814359 432862656469423142931042426214547535783388063929571229938474969 2 0 0).arg2.toNat ≠ 0 ∧ product (regs 535006138814359 432862656469423142931042426214547535783388063929571229938474969 2 0 0) / (regs 535006138814359 432862656469423142931042426214547535783388063929571229938474969 2 0 0).arg2.toNat < 2 ^ 256 ∧
      2 ^ 256 ≤ ceilQ (product (regs 535006138814359 432862656469423142931042426214547535783388063929571229938474969 2 0 0)) (regs 535006138814359 432862656469423142931042426214547535783388063929571229938474969 2 0 0).arg2.toNat ∧
    (regs (2 ^ 255) 2 1 0 0).arg2.toNat ≠ 0 ∧ 2 ^ 256 ≤ product (regs (2 ^ 255) 2 1 0 0) / (regs (2 ^ 255) 2 1 0 0).arg2.toNat ∧
    (regs (2 ^ 256 - 1) 1 0 0 0).arg2.toNat = 0 ∧ product (regs (2 ^ 256 - 1) 1 0 0 0) < 2 ^ 256 ∧
    (regs (2 ^ 255) 2 0 0 0).arg2.toNat = 0 ∧ 2 ^ 256 ≤ product (regs (2 ^ 255) 2 0 0 0) := by
  decide +kernel

/-- Tick2sqrtForwardPrice and Tick2sqrtIncreasing. -/
theorem witness_Tick2sqrtForwardPrice :
    (tickOf (regs 887272 0 0 0 0).arg0).natAbs ≤ 887272 ∧
    tickOf (regs (2 ^ 32 - 887272) 0 0 0 0).arg0 = -887272 ∧
    tickOf (regs (2 ^ 32 - 1) 0 0 0 0).arg0 < tickOf (regs 0 0 0 0 0).arg0 := by decide +kernel

theorem witness_Sqrt2tickGreatestTick :
    4295128739 ≤ (regs 4295128739 0 0 0 0).arg0.toNat ∧
    (regs 4295128739 0 0 0 0).arg0.toNat < 1461446703485210103287273052203988822378723970342 := by
  decide +kernel

theorem witness_TickRoundTrip :
    -887272 ≤ tickOf (regs 887271 0 0 0 0).arg0 ∧ tickOf (regs 887271 0 0 0 0).arg0 ≤ 887271 ∧
    tickOf (regs (2 ^ 32 - 887272) 0 0 0 0).arg0 = -887272 := by decide +kernel

theorem witness_TickRangeFaults :
    887272 < (tickOf (regs 887273 0 0 0 0).arg0).natAbs ∧
    887272 < (tickOf (regs (2 ^ 31) 0 0 0 0).arg0).natAbs ∧
    (regs 4295128738 0 0 0 0).arg0.toNat < 4295128739 ∧
    1461446703485210103287273052203988822378723970342 ≤
      (regs 1461446703485210103287273052203988822378723970342 0 0 0 0).arg0.toNat := by
  decide +kernel

theorem witness_NextinNextoutZeroFaults :
    (regs 0 0 5 0 0).arg0 = 0#256 ∧
    (regs 1 (2 ^ 128) 5 0 0).arg0 ≠ 0#256 ∧ liquidityOf (regs 1 (2 ^ 128) 5 0 0).arg1 = 0 := by
  decide +kernel

/-- The price and the liquidity are not 0, as NEXTIN and NEXTOUT ask. -/
def pricedLiquid (s : State) : Prop := s.arg0 ≠ 0#256 ∧ liquidityOf s.arg1 ≠ 0

/-- `n1`, `amount * price` and the fall-back's divisor (R140). -/
def n1Of (s : State) : Nat := liquidityOf s.arg1 * 2 ^ 96

/-- The exact product of the price and the amount. -/
def paid (s : State) : Nat := s.arg2.toNat * s.arg0.toNat

/-- The divisor of the fall-back of R140, wrapped. -/
def fallBackDivisor (s : State) : Nat := (n1Of s / s.arg0.toNat + s.arg2.toNat) % 2 ^ 256

theorem witness_PriceAfterAmount0Added :
    pricedLiquid (regs (2 ^ 96) 1000 0 0 0) ∧ (regs (2 ^ 96) 1000 0 0 0).arg2.toNat = 0 ∧
    (regs 0 0 1 0 0).arg2.toNat ≠ 0 ∧ n1Of (regs 0 0 1 0 0) + paid (regs 0 0 1 0 0) = 0 ∧
    pricedLiquid (regs 1 1 (2 ^ 256 - 2 ^ 96 - 1) 0 0) ∧ n1Of (regs 1 1 (2 ^ 256 - 2 ^ 96 - 1) 0 0) + paid (regs 1 1 (2 ^ 256 - 2 ^ 96 - 1) 0 0) = 2 ^ 256 - 1 ∧
    pricedLiquid (regs 1 1 (2 ^ 256 - 2 ^ 96 + 1) 0 0) ∧ n1Of (regs 1 1 (2 ^ 256 - 2 ^ 96 + 1) 0 0) + paid (regs 1 1 (2 ^ 256 - 2 ^ 96 + 1) 0 0) = 2 ^ 256 + 1 ∧
      fallBackDivisor (regs 1 1 (2 ^ 256 - 2 ^ 96 + 1) 0 0) = 1 ∧
    pricedLiquid (regs 1 1 (2 ^ 256 - 2 ^ 96) 0 0) ∧ n1Of (regs 1 1 (2 ^ 256 - 2 ^ 96) 0 0) + paid (regs 1 1 (2 ^ 256 - 2 ^ 96) 0 0) = 2 ^ 256 ∧
      fallBackDivisor (regs 1 1 (2 ^ 256 - 2 ^ 96) 0 0) = 0 := by
  unfold pricedLiquid; decide +kernel

theorem witness_PriceAfterAmount0Removed :
    pricedLiquid (regs (2 ^ 96) 1000 0 0 0) ∧ (regs (2 ^ 96) 1000 0 0 0).arg2.toNat = 0 ∧
    pricedLiquid (regs (2 ^ 96) 1 1 0 0) ∧ (regs (2 ^ 96) 1 1 0 0).arg2.toNat ≠ 0 ∧ paid (regs (2 ^ 96) 1 1 0 0) = n1Of (regs (2 ^ 96) 1 1 0 0) ∧
    pricedLiquid (regs (2 ^ 96 - 1) 1 1 0 0) ∧ paid (regs (2 ^ 96 - 1) 1 1 0 0) + 1 = n1Of (regs (2 ^ 96 - 1) 1 1 0 0) ∧
      ceilQ (n1Of (regs (2 ^ 96 - 1) 1 1 0 0) * (regs (2 ^ 96 - 1) 1 1 0 0).arg0.toNat) 1 < 2 ^ 256 ∧
    pricedLiquid (regs (2 ^ 196 - 1) (2 ^ 100) 1 0 0) ∧
      paid (regs (2 ^ 196 - 1) (2 ^ 100) 1 0 0) + 1 = n1Of (regs (2 ^ 196 - 1) (2 ^ 100) 1 0 0) ∧
      2 ^ 256 ≤ ceilQ (n1Of (regs (2 ^ 196 - 1) (2 ^ 100) 1 0 0) * (2 ^ 196 - 1)) 1 := by
  unfold pricedLiquid; decide +kernel

theorem witness_PriceAfterAmount1Added :
    liquidityOf (regs 1 0 (2 ^ 160 - 1) 0 0).arg1 = 0 ∧ (regs 1 0 (2 ^ 160 - 1) 0 0).arg2.toNat < 2 ^ 160 ∧
    liquidityOf (regs 1 0 (2 ^ 160) 0 0).arg1 = 0 ∧ 2 ^ 160 ≤ (regs 1 0 (2 ^ 160) 0 0).arg2.toNat ∧
    pricedLiquid (regs (2 ^ 160 - 1) (2 ^ 128 - 1) 0 0 0) ∧ 2 ^ 160 - 1 + 0 * 2 ^ 96 / (2 ^ 128 - 1) < 2 ^ 160 ∧
    pricedLiquid (regs 1 1 (2 ^ 160 - 1) 0 0) ∧ (2 ^ 160 - 1) * 2 ^ 96 / 1 < 2 ^ 256 ∧ 2 ^ 160 ≤ 1 + (2 ^ 160 - 1) * 2 ^ 96 / 1 ∧
    pricedLiquid (regs 1 1 (2 ^ 160) 0 0) ∧ 2 ^ 256 ≤ 2 ^ 160 * 2 ^ 96 / 1 := by
  unfold pricedLiquid; decide +kernel

theorem witness_PriceAfterAmount1Removed :
    liquidityOf (regs 1 0 (2 ^ 160 - 1) 0 0).arg1 = 0 ∧ (regs 1 0 (2 ^ 160 - 1) 0 0).arg2.toNat < 2 ^ 160 ∧
    liquidityOf (regs 1 0 (2 ^ 160) 0 0).arg1 = 0 ∧ 2 ^ 160 ≤ (regs 1 0 (2 ^ 160) 0 0).arg2.toNat ∧
    pricedLiquid (regs (2 ^ 96 + 1) 1 1 0 0) ∧ ceilQ (1 * 2 ^ 96) 1 < 2 ^ 96 + 1 ∧
    pricedLiquid (regs (2 ^ 96) 1 1 0 0) ∧ 2 ^ 96 ≤ ceilQ (1 * 2 ^ 96) 1 ∧ ceilQ (1 * 2 ^ 96) 1 < 2 ^ 256 ∧
    pricedLiquid (regs 1 1 (2 ^ 160) 0 0) ∧ 2 ^ 256 ≤ ceilQ (2 ^ 160 * 2 ^ 96) 1 := by
  unfold pricedLiquid; decide +kernel

theorem witness_NextPriceDirection :
    (∃ t, exec (.nextin true) (regs (2 ^ 96) 1000 500 0 0) = .next t ∧ t.status = 0x1000#32) ∧
    liquidityOf (regs (2 ^ 96) 1000 500 0 0).arg1 * 2 ^ 96 / (regs (2 ^ 96) 1000 500 0 0).arg0.toNat + (regs (2 ^ 96) 1000 500 0 0).arg2.toNat < 2 ^ 256 ∧
    (∃ t, exec (.nextin false) (regs (2 ^ 96) 1000 500 0 0) = .next t ∧ t.status = 0x1000#32) ∧
    (∃ t, exec (.nextout true) (regs (2 ^ 96) 1000 500 0 0) = .next t ∧ t.status = 0x1000#32) ∧
    (∃ t, exec (.nextout false) (regs (2 ^ 96) 1000 500 0 0) = .next t ∧ t.status = 0x1000#32) :=
  ⟨⟨_, rfl, by decide +kernel⟩, by decide +kernel, ⟨_, rfl, by decide +kernel⟩,
    ⟨_, rfl, by decide +kernel⟩, ⟨_, rfl, by decide +kernel⟩⟩

theorem witness_Amt0ExactAmount :
    (regs (2 ^ 256 - 1) 1 (2 ^ 128 - 1) 0 0).arg0 ≠ 0#256 ∧ (regs (2 ^ 256 - 1) 1 (2 ^ 128 - 1) 0 0).arg1 ≠ 0#256 := by
  decide +kernel

theorem witness_Amt1ExactAmount :
    (regs 1 (2 ^ 256 - 1) (2 ^ 96) 0 0).arg0 ≠ 0#256 ∧ (regs 1 (2 ^ 256 - 1) (2 ^ 96) 0 0).arg1 ≠ 0#256 ∧
    amount1 true 1 (2 ^ 256 - 1) (liquidityOf (regs 1 (2 ^ 256 - 1) (2 ^ 96) 0 0).arg2) < 2 ^ 256 := by
  decide +kernel

theorem witness_Samt0SignedAmount :
    (regs 1 2 (2 ^ 127) 0 0).arg0 ≠ 0#256 ∧ (regs 1 2 (2 ^ 127) 0 0).arg1 ≠ 0#256 ∧
    deltaOf (regs 1 2 (2 ^ 127) 0 0).arg2 = -(2 ^ 127) ∧
    deltaOf (regs 1 2 (2 ^ 127 - 1) 0 0).arg2 = 2 ^ 127 - 1 := by decide +kernel

theorem witness_Samt1SignedAmount :
    (regs 1 2 (2 ^ 127) 0 0).arg0 ≠ 0#256 ∧ (regs 1 2 (2 ^ 127) 0 0).arg1 ≠ 0#256 ∧
    amount1 false 1 2 (2 ^ 127) < 2 ^ 256 ∧ amount1 true 1 2 (2 ^ 127 - 1) < 2 ^ 256 := by
  decide +kernel

theorem witness_AmountFaults :
    (regs 0 5 1 0 0).arg0.toNat = 0 ∧ (regs 5 0 1 0 0).arg1.toNat = 0 ∧
    2 ^ 256 ≤ amount1 false 1 (2 ^ 256 - 1) (liquidityOf (regs 1 (2 ^ 256 - 1) (2 ^ 96 + 1) 0 0).arg2) ∧
    2 ^ 256 ≤ amount1 false 1 (2 ^ 256 - 1) (deltaOf (regs 1 (2 ^ 256 - 1) (2 ^ 127) 0 0).arg2).natAbs ∧
    amount1 false 1 115792089237316195423570985007226406215939081747436879206759747732330906648576 (2 ^ 96 + 1) = 2 ^ 256 - 1 ∧
    2 ^ 256 ≤ amount1 true 1 115792089237316195423570985007226406215939081747436879206759747732330906648576 (2 ^ 96 + 1) ∧
    deltaOf (regs 1 115792089237316195423570985007226406215939081747436879206759747732330906648576 (2 ^ 96 + 1) 0 0).arg2 = 2 ^ 96 + 1 := by
  decide +kernel

/-- FlipInvertsOneBit, its first clause, and FlipTwice. -/
theorem witness_FlipInvertsOneBit :
    0 < tickOf (regs (2 ^ 32 - 50) 10 0 0 0).arg1 ∧ tickOf (regs (2 ^ 32 - 50) 10 0 0 0).arg0 % tickOf (regs (2 ^ 32 - 50) 10 0 0 0).arg1 = 0 ∧
    (regs (2 ^ 32 - 50) 10 0 0 0).wordRead (wordOf (compressedOf (regs (2 ^ 32 - 50) 10 0 0 0))) = .ok 0#256 ∧
    (regs (2 ^ 32 - 50) 10 0 0 0).words.wf = true ∧ (regs (2 ^ 32 - 50) 10 0 0 0).portAnswers = [] := by
  decide +kernel

theorem witness_NextinitLteFindsBitAtOrBelow :
    0 < tickOf (searched 79).arg1 ∧
    (searched 79).wordRead (wordOf (compressedOf (searched 79))) = .ok ((searched 79).words.read 0#16) ∧
    bitOf (compressedOf (searched 79)) = 79 ∧ ((searched 79).words.read 0#16).getLsbD 78 = true ∧
      ((searched 79).words.read 0#16).getLsbD 79 = false ∧
    ∀ j : Fin 70, ((searched 69).words.read 0#16).getLsbD j = false := by decide +kernel

theorem witness_NextinitGtFindsBitAbove :
    0 < tickOf (searched 78).arg1 ∧
    (searched 78).wordRead (wordOf (compressedOf (searched 78) + 1)) = .ok ((searched 78).words.read 0#16) ∧
    bitOf (compressedOf (searched 83) + 1) = 84 ∧ ((searched 83).words.read 0#16).getLsbD 84 = true ∧
    ∀ j : Fin 15, ((searched 240).words.read 0#16).getLsbD (241 + j) = false := by decide +kernel

theorem witness_FlipInvertsOneBit_faults :
    tickOf (regs 5 0 0 0 0).arg1 ≤ 0 ∧ tickOf (regs 5 (2 ^ 31) 0 0 0).arg1 ≤ 0 ∧
    0 < tickOf (regs 5 2 0 0 0).arg1 ∧ tickOf (regs 5 2 0 0 0).arg0 % tickOf (regs 5 2 0 0 0).arg1 ≠ 0 ∧
    0 < tickOf (remote 5 1).arg1 ∧ tickOf (remote 5 1).arg0 % tickOf (remote 5 1).arg1 = 0 ∧
    (remote 5 1).wordRead (wordOf (compressedOf (remote 5 1))) = .error .wordReadError := by
  decide +kernel

theorem witness_NextinitFaults :
    tickOf (regs 5 0 0 0 0).arg1 ≤ 0 ∧ 0 < tickOf (remote 5 1).arg1 ∧
    (remote 5 1).wordRead (wordOf (compressedOf (remote 5 1))) = .error .wordReadError ∧
    (remote 5 1).wordRead (wordOf (compressedOf (remote 5 1) + 1)) = .error .wordReadError := by
  decide +kernel

theorem witness_AdddeltaExactSum :
    (liquidityOf (regs (2 ^ 128 - 1) 0 0 0 0).arg0 : Int) + deltaOf (regs (2 ^ 128 - 1) 0 0 0 0).arg1 = 2 ^ 128 - 1 ∧
    (liquidityOf (regs 0 (2 ^ 128 - 1) 0 0 0).arg0 : Int) + deltaOf (regs 0 (2 ^ 128 - 1) 0 0 0).arg1 = -1 ∧
    (liquidityOf (regs (2 ^ 128 - 1) 1 0 0 0).arg0 : Int) + deltaOf (regs (2 ^ 128 - 1) 1 0 0 0).arg1 = 2 ^ 128 := by
  decide +kernel

/-- The swap of section 2.9 with this target, remainder and fee. -/
def swap (target remaining fee : Nat) : State :=
  regs (2 ^ 96) target 2000000000000000000 remaining fee

theorem witness_SwapReachesExactIn :
    (swap 79623317895830914510639640423 1000000000000000000 600).arg3.msb = false ∧
    lessFee (swap 79623317895830914510639640423 1000000000000000000 600) < 2 ^ 256 ∧
    stepIn (swap 79623317895830914510639640423 1000000000000000000 600) 79623317895830914510639640423 (2 ^ 96) ≤ lessFee (swap 79623317895830914510639640423 1000000000000000000 600) ∧
    stepOut (swap 79623317895830914510639640423 1000000000000000000 600) 79623317895830914510639640423 (2 ^ 96) < 2 ^ 256 ∧
    feeComplOf (swap 79623317895830914510639640423 1000000000000000000 600) ≠ 0 ∧
    fullFee (swap 79623317895830914510639640423 1000000000000000000 600)
      (stepIn (swap 79623317895830914510639640423 1000000000000000000 600) 79623317895830914510639640423 (2 ^ 96)) < 2 ^ 256 := by
  decide +kernel

theorem witness_SwapReachesExactOut :
    (swap 79623317895830914510639640423 (2 ^ 256 - 1000000000000000000) 600).arg3.msb = true ∧
    stepOut (swap 79623317895830914510639640423 (2 ^ 256 - 1000000000000000000) 600) 79623317895830914510639640423 (2 ^ 96) ≤ wantOf (swap 79623317895830914510639640423 (2 ^ 256 - 1000000000000000000) 600) ∧
    stepIn (swap 79623317895830914510639640423 (2 ^ 256 - 1000000000000000000) 600) 79623317895830914510639640423 (2 ^ 96) < 2 ^ 256 ∧
    feeComplOf (swap 79623317895830914510639640423 (2 ^ 256 - 1000000000000000000) 600) ≠ 0 ∧
    fullFee (swap 79623317895830914510639640423 (2 ^ 256 - 1000000000000000000) 600) (stepIn (swap 79623317895830914510639640423 (2 ^ 256 - 1000000000000000000) 600) 79623317895830914510639640423 (2 ^ 96)) < 2 ^ 256 := by
  decide +kernel

theorem witness_SwapShortExactIn :
    (swap 250541448375047931186413801569 1000000000000000000 600).arg3.msb = false ∧ lessFee (swap 250541448375047931186413801569 1000000000000000000 600) = 999400000000000000 ∧
    lessFee (swap 250541448375047931186413801569 1000000000000000000 600) < stepIn (swap 250541448375047931186413801569 1000000000000000000 600) 250541448375047931186413801569 (2 ^ 96) ∧ stepIn (swap 250541448375047931186413801569 1000000000000000000 600) 250541448375047931186413801569 (2 ^ 96) < 2 ^ 256 ∧
    exec (.nextin (swapDown (swap 250541448375047931186413801569 1000000000000000000 600))) (nextPriceCall (swap 250541448375047931186413801569 1000000000000000000 600) (lessFee (swap 250541448375047931186413801569 1000000000000000000 600))) = .next
      (completed (nextPriceCall (swap 250541448375047931186413801569 1000000000000000000 600) (lessFee (swap 250541448375047931186413801569 1000000000000000000 600)))
        118818475322642227089037862318#256 0#256 0#256 0#256) ∧
    stepOut (swap 250541448375047931186413801569 1000000000000000000 600) 118818475322642227089037862318 (2 ^ 96) < 2 ^ 256 := by
  refine ⟨by decide +kernel, by decide +kernel, by decide +kernel, by decide +kernel, ?_,
    by decide +kernel⟩
  rfl

theorem witness_SwapShortExactOut :
    (swap 792281625142643375935439503360 (2 ^ 256 - 1000000000000000000) 600).arg3.msb = true ∧
    wantOf (swap 792281625142643375935439503360 (2 ^ 256 - 1000000000000000000) 600) < stepOut (swap 792281625142643375935439503360 (2 ^ 256 - 1000000000000000000) 600) 792281625142643375935439503360 (2 ^ 96) ∧ stepOut (swap 792281625142643375935439503360 (2 ^ 256 - 1000000000000000000) 600) 792281625142643375935439503360 (2 ^ 96) < 2 ^ 256 ∧
    exec (.nextout (swapDown (swap 792281625142643375935439503360 (2 ^ 256 - 1000000000000000000) 600))) (nextPriceCall (swap 792281625142643375935439503360 (2 ^ 256 - 1000000000000000000) 600) (wantOf (swap 792281625142643375935439503360 (2 ^ 256 - 1000000000000000000) 600))) = .next
      (completed (nextPriceCall (swap 792281625142643375935439503360 (2 ^ 256 - 1000000000000000000) 600) (wantOf (swap 792281625142643375935439503360 (2 ^ 256 - 1000000000000000000) 600)))
        158456325028528675187087900672#256 0#256 0#256 0#256) ∧
    stepIn (swap 792281625142643375935439503360 (2 ^ 256 - 1000000000000000000) 600) (2 ^ 97) (2 ^ 96) < 2 ^ 256 ∧ stepOut (swap 792281625142643375935439503360 (2 ^ 256 - 1000000000000000000) 600) (2 ^ 97) (2 ^ 96) < 2 ^ 256 ∧
    feeComplOf (swap 792281625142643375935439503360 (2 ^ 256 - 1000000000000000000) 600) ≠ 0 ∧ fullFee (swap 792281625142643375935439503360 (2 ^ 256 - 1000000000000000000) 600) (stepIn (swap 792281625142643375935439503360 (2 ^ 256 - 1000000000000000000) 600) (2 ^ 97) (2 ^ 96)) < 2 ^ 256 := by
  refine ⟨by decide +kernel, by decide +kernel, by decide +kernel, ?_, by decide +kernel⟩
  rfl

theorem witness_SwapInBoundsIsSafe :
    swapInBounds (regs 1 (2 ^ 160 - 1) (2 ^ 128 - 1) (2 ^ 256 - 1) 999999) := by
  unfold swapInBounds; decide +kernel

theorem witness_SwapFeeConservation :
    ∃ t, exec .swapstep (swap 250541448375047931186413801569 1000000000000000000 600) = .next t ∧ t.status = 0x1000#32 ∧ (swap 250541448375047931186413801569 1000000000000000000 600).arg3.msb = false ∧
      t.res0 ≠ (swap 250541448375047931186413801569 1000000000000000000 600).arg1 :=
  ⟨_, rfl, by decide +kernel, by decide +kernel, by decide +kernel⟩

theorem witness_SwapDirectionAndCap :
    ∃ t, exec .swapstep (swap 792281625142643375935439503360 (2 ^ 256 - 1000000000000000000) 600) = .next t ∧ t.status = 0x1000#32 ∧ (swap 792281625142643375935439503360 (2 ^ 256 - 1000000000000000000) 600).arg3.msb = true ∧
      t.res0 ≠ (swap 792281625142643375935439503360 (2 ^ 256 - 1000000000000000000) 600).arg1 :=
  ⟨_, rfl, by decide +kernel, by decide +kernel, by decide +kernel⟩

/-- The next two groups meet the clauses of SwapFaults, in their order, exact in and exact out. -/
theorem witness_SwapFaults :
    2 ^ 256 ≤ lessFee (regs 1 1 1 (2 ^ 255 - 1) 1000001) ∧
      (regs 1 1 1 (2 ^ 255 - 1) 1000001).arg3.msb = false ∧
    (regs 0 0 1 0 0).arg0 = 0#256 ∧ swapDown (regs 0 0 1 0 0) = false ∧ swapDown (regs 1 0 1 0 0) = true ∧
      lessFee (regs 1 0 1 0 0) < 2 ^ 256 ∧
    lessFee (regs 1 (2 ^ 256 - 1) (2 ^ 128 - 1) 0 0) < 2 ^ 256 ∧ 2 ^ 256 ≤ stepIn (regs 1 (2 ^ 256 - 1) (2 ^ 128 - 1) 0 0) (2 ^ 256 - 1) 1 ∧
      amountInFault (regs 1 (2 ^ 256 - 1) (2 ^ 128 - 1) 0 0) (2 ^ 256 - 1) 1 = 0x1063#32 ∧
    lessFee (regs 1 115792089237316195423570985007226406215939081747436879206759747732330906648576 (2 ^ 96 + 1) 0 0) < 2 ^ 256 ∧
      2 ^ 256 ≤ stepIn (regs 1 115792089237316195423570985007226406215939081747436879206759747732330906648576 (2 ^ 96 + 1) 0 0)
        115792089237316195423570985007226406215939081747436879206759747732330906648576 1 ∧
      amountInFault (regs 1 115792089237316195423570985007226406215939081747436879206759747732330906648576 (2 ^ 96 + 1) 0 0)
        115792089237316195423570985007226406215939081747436879206759747732330906648576 1 = 0x1073#32 ∧
    lessFee (regs (2 ^ 256 - 1) 1 (2 ^ 128 - 1) (2 ^ 255 - 1) 0) < 2 ^ 256 ∧
      stepIn (regs (2 ^ 256 - 1) 1 (2 ^ 128 - 1) (2 ^ 255 - 1) 0) 1 (2 ^ 256 - 1) ≤ lessFee (regs (2 ^ 256 - 1) 1 (2 ^ 128 - 1) (2 ^ 255 - 1) 0) ∧
      2 ^ 256 ≤ stepOut (regs (2 ^ 256 - 1) 1 (2 ^ 128 - 1) (2 ^ 255 - 1) 0) 1 (2 ^ 256 - 1) ∧
    feeComplOf (regs 1 2 0 5 1000000) = 0 ∧ stepIn (regs 1 2 0 5 1000000) 2 1 ≤ lessFee (regs 1 2 0 5 1000000) ∧
      stepOut (regs 1 2 0 5 1000000) 2 1 < 2 ^ 256 ∧
    swapDown (regs (2 ^ 160 - 1) (2 ^ 200) 1 1 0) = false ∧ lessFee (regs (2 ^ 160 - 1) (2 ^ 200) 1 1 0) = 1 ∧
      1 < stepIn (regs (2 ^ 160 - 1) (2 ^ 200) 1 1 0) (2 ^ 200) (2 ^ 160 - 1) ∧
      stepIn (regs (2 ^ 160 - 1) (2 ^ 200) 1 1 0) (2 ^ 200) (2 ^ 160 - 1) < 2 ^ 256 ∧
      2 ^ 160 ≤ 2 ^ 160 - 1 + 1 * 2 ^ 96 / swapLiquidity (regs (2 ^ 160 - 1) (2 ^ 200) 1 1 0) := by
  decide +kernel

theorem witness_SwapFaults_shortExactIn :
    lessFee (regs (2 ^ 256 - 1) 1 (2 ^ 128 - 1) 1 0) < stepIn (regs (2 ^ 256 - 1) 1 (2 ^ 128 - 1) 1 0) 1 (2 ^ 256 - 1) ∧
      stepIn (regs (2 ^ 256 - 1) 1 (2 ^ 128 - 1) 1 0) 1 (2 ^ 256 - 1) < 2 ^ 256 ∧
      ∃ next : U256,
        exec (.nextin (swapDown (regs (2 ^ 256 - 1) 1 (2 ^ 128 - 1) 1 0))) (nextPriceCall (regs (2 ^ 256 - 1) 1 (2 ^ 128 - 1) 1 0) (lessFee (regs (2 ^ 256 - 1) 1 (2 ^ 128 - 1) 1 0))) = .next
          (completed (nextPriceCall (regs (2 ^ 256 - 1) 1 (2 ^ 128 - 1) 1 0) (lessFee (regs (2 ^ 256 - 1) 1 (2 ^ 128 - 1) 1 0))) next 0#256 0#256 0#256) ∧
        2 ^ 256 ≤ stepOut (regs (2 ^ 256 - 1) 1 (2 ^ 128 - 1) 1 0) next.toNat (2 ^ 256 - 1) :=
  ⟨by decide +kernel, by decide +kernel, 26959946667150639794667015087019630673557916260026308143510066298880#256, rfl, by decide +kernel⟩

theorem witness_SwapFaults_exactInOperands :
    ∀ q ∈ [regs 1 (2 ^ 256 - 1) (2 ^ 128 - 1) 0 0,
      regs 1 115792089237316195423570985007226406215939081747436879206759747732330906648576 (2 ^ 96 + 1) 0 0,
      regs (2 ^ 256 - 1) 1 (2 ^ 128 - 1) (2 ^ 255 - 1) 0,
      regs 1 2 0 5 1000000,
      regs (2 ^ 160 - 1) (2 ^ 200) 1 1 0,
      regs (2 ^ 256 - 1) 1 (2 ^ 128 - 1) 1 0],
      q.arg3.msb = false ∧ q.arg0 ≠ 0#256 ∧ q.arg1 ≠ 0#256 := by decide +kernel

theorem witness_SwapFaults_exactOut :
    ∀ q ∈ [regs (2 ^ 256 - 1) 1 (2 ^ 128 - 1) (2 ^ 255) 0,
      regs 1 (2 ^ 256 - 1) (2 ^ 128 - 1) (2 ^ 255) 0,
      regs 1 115792089237316195423570985007226406215939081747436879206759747732330906648576 (2 ^ 96 + 1) (2 ^ 255) 0,
      regs (2 ^ 96) (2 ^ 97) 1000 (2 ^ 256 - 2000) 1000000,
      regs 1 (2 ^ 256 - 1) (2 ^ 96) (2 ^ 255) 1000000,
      regs 1 (2 ^ 256 - 1) (2 ^ 96) (2 ^ 255) 999999,
      regs 1 115791626069885581020018097830522229432995412134846963064403376285992541828594 (2 ^ 96) (2 ^ 255) 500001,
      regs (2 ^ 96) (2 ^ 97) 1000 (2 ^ 256 - 100) 1000000],
      q.arg3.msb = true ∧ q.arg0 ≠ 0#256 ∧ q.arg1 ≠ 0#256 ∧
    (regs 1 0 1 (2 ^ 255) 0).arg3.msb = true ∧ swapDown (regs 1 0 1 (2 ^ 255) 0) = true ∧ (regs 1 0 1 (2 ^ 255) 0).arg1 = 0#256 ∧
    swapDown (regs 0 1 1 (2 ^ 255) 0) = false ∧ (regs 0 1 1 (2 ^ 255) 0).arg0 = 0#256 ∧
    2 ^ 256 ≤ stepOut (regs (2 ^ 256 - 1) 1 (2 ^ 128 - 1) (2 ^ 255) 0) 1 (2 ^ 256 - 1) ∧
    stepOut (regs 1 (2 ^ 256 - 1) (2 ^ 128 - 1) (2 ^ 255) 0) (2 ^ 256 - 1) 1 ≤ wantOf (regs 1 (2 ^ 256 - 1) (2 ^ 128 - 1) (2 ^ 255) 0) ∧
      2 ^ 256 ≤ stepIn (regs 1 (2 ^ 256 - 1) (2 ^ 128 - 1) (2 ^ 255) 0) (2 ^ 256 - 1) 1 ∧
      amountInFault (regs 1 (2 ^ 256 - 1) (2 ^ 128 - 1) (2 ^ 255) 0) (2 ^ 256 - 1) 1 = 0x1063#32 ∧
    stepOut (regs 1 115792089237316195423570985007226406215939081747436879206759747732330906648576 (2 ^ 96 + 1) (2 ^ 255) 0)
        115792089237316195423570985007226406215939081747436879206759747732330906648576 1 ≤ wantOf (regs 1 115792089237316195423570985007226406215939081747436879206759747732330906648576 (2 ^ 96 + 1) (2 ^ 255) 0) ∧
      2 ^ 256 ≤ stepIn (regs 1 115792089237316195423570985007226406215939081747436879206759747732330906648576 (2 ^ 96 + 1) (2 ^ 255) 0)
        115792089237316195423570985007226406215939081747436879206759747732330906648576 1 ∧
      amountInFault (regs 1 115792089237316195423570985007226406215939081747436879206759747732330906648576 (2 ^ 96 + 1) (2 ^ 255) 0)
        115792089237316195423570985007226406215939081747436879206759747732330906648576 1 = 0x1073#32 ∧
    stepOut (regs (2 ^ 96) (2 ^ 97) 1000 (2 ^ 256 - 2000) 1000000) (2 ^ 97) (2 ^ 96) ≤ wantOf (regs (2 ^ 96) (2 ^ 97) 1000 (2 ^ 256 - 2000) 1000000) ∧
      stepIn (regs (2 ^ 96) (2 ^ 97) 1000 (2 ^ 256 - 2000) 1000000) (2 ^ 97) (2 ^ 96) < 2 ^ 256 ∧ feeComplOf (regs (2 ^ 96) (2 ^ 97) 1000 (2 ^ 256 - 2000) 1000000) = 0 ∧
      feeFault (regs (2 ^ 96) (2 ^ 97) 1000 (2 ^ 256 - 2000) 1000000)
        (stepIn (regs (2 ^ 96) (2 ^ 97) 1000 (2 ^ 256 - 2000) 1000000) (2 ^ 97) (2 ^ 96)) = 0x1052#32 ∧
    stepOut (regs 1 (2 ^ 256 - 1) (2 ^ 96) (2 ^ 255) 1000000) (2 ^ 256 - 1) 1 ≤ wantOf (regs 1 (2 ^ 256 - 1) (2 ^ 96) (2 ^ 255) 1000000) ∧
      stepIn (regs 1 (2 ^ 256 - 1) (2 ^ 96) (2 ^ 255) 1000000) (2 ^ 256 - 1) 1 < 2 ^ 256 ∧ feeComplOf (regs 1 (2 ^ 256 - 1) (2 ^ 96) (2 ^ 255) 1000000) = 0 ∧
      feeFault (regs 1 (2 ^ 256 - 1) (2 ^ 96) (2 ^ 255) 1000000)
        (stepIn (regs 1 (2 ^ 256 - 1) (2 ^ 96) (2 ^ 255) 1000000) (2 ^ 256 - 1) 1) = 0x1063#32 ∧
    stepOut (regs 1 (2 ^ 256 - 1) (2 ^ 96) (2 ^ 255) 999999) (2 ^ 256 - 1) 1 ≤ wantOf (regs 1 (2 ^ 256 - 1) (2 ^ 96) (2 ^ 255) 999999) ∧
      stepIn (regs 1 (2 ^ 256 - 1) (2 ^ 96) (2 ^ 255) 999999) (2 ^ 256 - 1) 1 < 2 ^ 256 ∧ 2 ^ 256 ≤ fullFee (regs 1 (2 ^ 256 - 1) (2 ^ 96) (2 ^ 255) 999999) (stepIn (regs 1 (2 ^ 256 - 1) (2 ^ 96) (2 ^ 255) 999999) (2 ^ 256 - 1) 1) ∧
      feeFault (regs 1 (2 ^ 256 - 1) (2 ^ 96) (2 ^ 255) 999999)
        (stepIn (regs 1 (2 ^ 256 - 1) (2 ^ 96) (2 ^ 255) 999999) (2 ^ 256 - 1) 1) = 0x1063#32 ∧
    stepOut (regs 1 115791626069885581020018097830522229432995412134846963064403376285992541828594 (2 ^ 96) (2 ^ 255) 500001) 115791626069885581020018097830522229432995412134846963064403376285992541828594 1 ≤ wantOf (regs 1 115791626069885581020018097830522229432995412134846963064403376285992541828594 (2 ^ 96) (2 ^ 255) 500001) ∧
      stepIn (regs 1 115791626069885581020018097830522229432995412134846963064403376285992541828594 (2 ^ 96) (2 ^ 255) 500001) 115791626069885581020018097830522229432995412134846963064403376285992541828594 1 < 2 ^ 256 ∧ 2 ^ 256 ≤ fullFee (regs 1 115791626069885581020018097830522229432995412134846963064403376285992541828594 (2 ^ 96) (2 ^ 255) 500001) (stepIn (regs 1 115791626069885581020018097830522229432995412134846963064403376285992541828594 (2 ^ 96) (2 ^ 255) 500001) 115791626069885581020018097830522229432995412134846963064403376285992541828594 1) ∧
      feeFault (regs 1 115791626069885581020018097830522229432995412134846963064403376285992541828594 (2 ^ 96) (2 ^ 255) 500001)
        (stepIn (regs 1 115791626069885581020018097830522229432995412134846963064403376285992541828594 (2 ^ 96) (2 ^ 255) 500001) 115791626069885581020018097830522229432995412134846963064403376285992541828594 1) = 0x1073#32 := by
  decide +kernel

theorem witness_SwapFaults_shortExactOut :
    (regs (2 ^ 96) (2 ^ 97) 1000 (2 ^ 256 - 100) 1000000).arg3.msb = true ∧
      wantOf (regs (2 ^ 96) (2 ^ 97) 1000 (2 ^ 256 - 100) 1000000) < stepOut (regs (2 ^ 96) (2 ^ 97) 1000 (2 ^ 256 - 100) 1000000) (2 ^ 97) (2 ^ 96) ∧
      feeComplOf (regs (2 ^ 96) (2 ^ 97) 1000 (2 ^ 256 - 100) 1000000) = 0 ∧
      ∃ next : U256,
        exec (.nextout (swapDown (regs (2 ^ 96) (2 ^ 97) 1000 (2 ^ 256 - 100) 1000000))) (nextPriceCall (regs (2 ^ 96) (2 ^ 97) 1000 (2 ^ 256 - 100) 1000000) (wantOf (regs (2 ^ 96) (2 ^ 97) 1000 (2 ^ 256 - 100) 1000000))) = .next
          (completed (nextPriceCall (regs (2 ^ 96) (2 ^ 97) 1000 (2 ^ 256 - 100) 1000000) (wantOf (regs (2 ^ 96) (2 ^ 97) 1000 (2 ^ 256 - 100) 1000000))) next 0#256 0#256 0#256) ∧
        feeFault (regs (2 ^ 96) (2 ^ 97) 1000 (2 ^ 256 - 100) 1000000) (stepIn (regs (2 ^ 96) (2 ^ 97) 1000 (2 ^ 256 - 100) 1000000) next.toNat (2 ^ 96)) = 0x1052#32 :=
  ⟨by decide +kernel, by decide +kernel, by decide +kernel, 88031291682515930659493278152#256, rfl, by decide +kernel⟩

end Sys2Proof.Tests
end

section
/-! ### Every command, said once

What a command answers, what of the state it may change, which sites it raises, and the invariant of
the outcome registers (10_state.md sections 2, 3, 5 and 6). -/

namespace Sys2Proof.Machine

open Sys2Proof.Safety

/-! #### The fields of a finished command -/

section
variable (s : State) (r : Cmd Success)

@[simp] theorem finish_cmd : (s.finish r).cmd = s.cmd := by cases r <;> rfl
@[simp] theorem finish_arg0 : (s.finish r).arg0 = s.arg0 := by cases r <;> rfl
@[simp] theorem finish_arg1 : (s.finish r).arg1 = s.arg1 := by cases r <;> rfl
@[simp] theorem finish_arg2 : (s.finish r).arg2 = s.arg2 := by cases r <;> rfl
@[simp] theorem finish_arg3 : (s.finish r).arg3 = s.arg3 := by cases r <;> rfl
@[simp] theorem finish_arg4 : (s.finish r).arg4 = s.arg4 := by cases r <;> rfl
@[simp] theorem finish_platform : (s.finish r).platform = s.platform := by cases r <;> rfl
@[simp] theorem finish_portAnswers : (s.finish r).portAnswers = s.portAnswers := by cases r <;> rfl
@[simp] theorem finish_pending : (s.finish r).pending = s.pending := by cases r <;> rfl
@[simp] theorem finish_replies : (s.finish r).replies = s.replies := by cases r <;> rfl

end

/-- Without a buffered word write W stays as it is (20_memory.md R39). -/
theorem finish_words_of_no_store {s : State} {r : Cmd Success}
    (h : ∀ out, r = .ok out → out.store = none) : (s.finish r).words = s.words := by
  cases r with
  | ok out => rw [finish_ok, succeed_words, h out rfl]; rfl
  | error site => rfl

theorem finish_words_wf {s : State} (h : s.words.wf = true) (r : Cmd Success) :
    (s.finish r).words.wf = true := by
  cases r with
  | ok out => exact performStore_wf h out.store
  | error site => exact h

/-- STATUS after a success, as one word (10_state.md R15). -/
theorem statusOk_eq : statusOk = 0x1000#32 := by decide

/-- DONE is set after a fault too (60_exceptions.md R196). -/
theorem statusFault_done (site : Site) : (statusFault site).getLsbD 12 = true := by
  cases site <;> decide

/-- However a command finishes, DONE is set (10_state.md R20). -/
theorem finish_done (s : State) (r : Cmd Success) : (s.finish r).status.getLsbD 12 = true := by
  cases r with
  | ok out => exact congrArg (·.getLsbD 12) statusOk_eq
  | error site => exact statusFault_done site

/-- Finishing the same outcome gives the same outcome registers, whatever the state was. -/
theorem finish_results (u u' : State) (r : Cmd Success) :
    (u.finish r).status = (u'.finish r).status ∧ (u.finish r).res0 = (u'.finish r).res0 ∧
      (u.finish r).res1 = (u'.finish r).res1 ∧ (u.finish r).res2 = (u'.finish r).res2 ∧
      (u.finish r).res3 = (u'.finish r).res3 := by
  cases r <;> exact ⟨rfl, rfl, rfl, rfl, rfl⟩

/-- Finishing the same outcome on the same W gives the same W. -/
theorem finish_words_congr {u u' : State} (h : u.words = u'.words) (r : Cmd Success) :
    (u.finish r).words = (u'.finish r).words := by
  cases r with
  | ok out => exact congrArg (performStore · out.store) h
  | error site => exact h

/-! #### The outcome of a command, apart from the state it ends in -/

/-- What a command computes before it ends: its buffered results, or the site it fails at. -/
def commandOutcome (i : Instr) (s : State) : Cmd Success :=
  match i with
  | .msb => (msbOf s.arg0).map fun n => oneResult (zext8 n)
  | .lsb => (lsbOf s.arg0).map fun n => oneResult (zext8 n)
  | .divru => (divRoundingUp s.arg0 s.arg1 .divruByZero).map oneResult
  | .mulmod => (mulMod s.arg0 s.arg1 s.arg2).map oneResult
  | .muldiv => (mulDiv s.arg0 s.arg1 s.arg2).map oneResult
  | .muldivru => (mulDivRoundingUp s.arg0 s.arg1 s.arg2).map oneResult
  | .tick2sqrt => (getSqrtRatioAtTick (low32 s.arg0)).map oneResult
  | .sqrt2tick => (getTickAtSqrtRatio s.arg0).map fun t => oneResult (sext32 t)
  | .nextin m => (nextPriceFromInput s.arg0 (low128 s.arg1) s.arg2 m).map oneResult
  | .nextout m => (nextPriceFromOutput s.arg0 (low128 s.arg1) s.arg2 m).map oneResult
  | .nexta0 m => (nextFromAmount0 s.arg0 (low128 s.arg1) s.arg2 m).map oneResult
  | .nexta1 m => (nextFromAmount1 s.arg0 (low128 s.arg1) s.arg2 m).map oneResult
  | .amt0 m => (amount0Delta s.arg0 s.arg1 (low128 s.arg2) m).map oneResult
  | .amt1 m => (amount1Delta s.arg0 s.arg1 (low128 s.arg2) m).map oneResult
  | .samt0 => (signedAmount0Delta s.arg0 s.arg1 (low128 s.arg2)).map oneResult
  | .samt1 => (signedAmount1Delta s.arg0 s.arg1 (low128 s.arg2)).map oneResult
  | .bmpos =>
    .ok { res0 := sext16 (wordIndex (low32 s.arg0)), res1 := zext8 (bitPosition (low32 s.arg0)) }
  | .flip =>
    (flipTarget (low32 s.arg0) (low32 s.arg1)).bind fun ct =>
      (s.wordRead (wordIndex ct)).map (flipStore ct)
  | .nextinit lte =>
    if spacingBad (low32 s.arg1) then raise .spacingNotPositive
    else
      (s.wordRead (wordIndex (searchStart lte (low32 s.arg0) (low32 s.arg1)))).map
        (searchResults lte (searchStart lte (low32 s.arg0) (low32 s.arg1)) (low32 s.arg1))
  | .adddelta => (addDelta (low128 s.arg0) (low128 s.arg1)).map fun z => oneResult (zext128 z)
  | .swapstep => computeSwapStep s.swapOperands

/-- Whether a command gets as far as its read of the word port (20_memory.md R34). -/
def readsPort (i : Instr) (s : State) : Bool :=
  match i with
  | .flip => (flipTarget (low32 s.arg0) (low32 s.arg1)).toBool
  | .nextinit _ => !spacingBad (low32 s.arg1)
  | _ => false

/-- Every command ends in its outcome, on the state with the port's answer spent if it read one. -/
theorem exec_eq_ends (i : Instr) (s : State) :
    exec i s = (if readsPort i s then s.afterWordRead else s).ends (commandOutcome i s) := by
  cases i with
  | flip =>
    cases h : flipTarget (low32 s.arg0) (low32 s.arg1) <;>
      simp [exec, execFlip, commandOutcome, readsPort, h, Except.toBool]
  | nextinit lte =>
    cases h : spacingBad (low32 s.arg1) <;>
      simp [exec, execNextinit, commandOutcome, readsPort, h]
  | _ => rfl

theorem reachesW_of_readsPort {i : Instr} {s : State} (h : readsPort i s = true) :
    reachesW i = true := by
  cases i with
  | flip => rfl
  | nextinit lte => rfl
  | _ => exact absurd h Bool.false_ne_true

/-- Everything a command can do: finish its outcome, after at most one answer of the port. -/
theorem exec_cases {i : Instr} {s t : State} (h : exec i s = .next t) :
    ∃ u : State, (u = s ∨ reachesW i = true ∧ u = s.afterWordRead) ∧
      t = u.finish (commandOutcome i s) := by
  rw [exec_eq_ends] at h
  obtain rfl := Host.Outcome.next.inj h
  refine ⟨_, ?_, rfl⟩
  split
  · exact .inr ⟨reachesW_of_readsPort ‹_›, rfl⟩
  · exact .inl rfl

theorem computeSwapStep_store {o : SwapOperands} {out : Success} (h : computeSwapStep o = .ok out) :
    out.store = none := by
  obtain ⟨r, -, h⟩ := cmd_bind_eq_ok.1 h
  obtain ⟨amountIn, -, h⟩ := cmd_bind_eq_ok.1 h
  obtain ⟨amountOut, -, h⟩ := cmd_bind_eq_ok.1 h
  obtain ⟨fee, -, rfl⟩ := cmd_map_eq_ok.1 h
  rfl

theorem commandOutcome_nextinit_ok {lte : Bool} {s : State} {out : Success}
    (h : commandOutcome (.nextinit lte) s = .ok out) :
    ∃ word, out =
      searchResults lte (searchStart lte (low32 s.arg0) (low32 s.arg1)) (low32 s.arg1) word := by
  simp only [commandOutcome] at h
  split at h
  · cases h
  · obtain ⟨word, -, rfl⟩ := cmd_map_eq_ok.1 h
    exact ⟨word, rfl⟩

/-- Only FLIP buffers a word write (20_memory.md R34). -/
theorem commandOutcome_store_eq_none {i : Instr} {s : State} {out : Success} (hi : i ≠ .flip)
    (h : commandOutcome i s = .ok out) : out.store = none := by
  cases i with
  | flip => exact absurd rfl hi
  | bmpos => cases h; rfl
  | nextinit lte => obtain ⟨word, rfl⟩ := commandOutcome_nextinit_ok h; rfl
  | swapstep => exact computeSwapStep_store h
  | _ => obtain ⟨v, -, rfl⟩ := cmd_map_eq_ok.1 h; rfl

/-- A command that succeeds leaves 0 in every RES register it does not name (10_state.md R13). -/
theorem unnamedZero_succeed {i : Instr} {s u : State} {out : Success}
    (h : commandOutcome i s = .ok out) : unnamedZero i (u.succeed out) := by
  cases i with
  | flip =>
    obtain ⟨ct, -, h⟩ := cmd_bind_eq_ok.1 h
    obtain ⟨word, -, rfl⟩ := cmd_map_eq_ok.1 h
    exact ⟨rfl, rfl, rfl, rfl⟩
  | bmpos => cases h; exact ⟨rfl, rfl⟩
  | nextinit lte => obtain ⟨word, rfl⟩ := commandOutcome_nextinit_ok h; exact ⟨rfl, rfl⟩
  | swapstep => trivial
  | _ => obtain ⟨v, -, rfl⟩ := cmd_map_eq_ok.1 h; exact ⟨rfl, rfl, rfl⟩

/-! #### The frame of a command -/

/-- A command leaves CMD, the ARG registers, the platform and the host's lists alone (10_state.md
R12). -/
theorem exec_frame {i : Instr} {s t : State} (h : exec i s = .next t) :
    t.cmd = s.cmd ∧ t.arg0 = s.arg0 ∧ t.arg1 = s.arg1 ∧ t.arg2 = s.arg2 ∧ t.arg3 = s.arg3 ∧
      t.arg4 = s.arg4 ∧ t.platform = s.platform ∧ t.pending = s.pending ∧
      t.replies = s.replies := by
  obtain ⟨u, hu, rfl⟩ := exec_cases h
  obtain rfl | ⟨-, rfl⟩ := hu <;> simp

/-- A command spends at most one answer of the port, and only where it reaches W (20_memory.md
R34). -/
theorem exec_portAnswers {i : Instr} {s t : State} (h : exec i s = .next t) :
    t.portAnswers = s.portAnswers ∨
      (reachesW i = true ∧ t.portAnswers = s.portAnswers.tail) := by
  obtain ⟨u, rfl | ⟨hW, rfl⟩, rfl⟩ := exec_cases h
  · exact .inl (finish_portAnswers _ _)
  · exact .inr ⟨hW, finish_portAnswers _ _⟩

/-- W at the end of a command is W with the command's buffered write, whether it read a word or
not. -/
theorem exec_words {i : Instr} {s t : State} (h : exec i s = .next t) :
    t.words = (s.finish (commandOutcome i s)).words := by
  obtain ⟨u, rfl | ⟨-, rfl⟩, rfl⟩ := exec_cases h
  · rfl
  · exact finish_words_congr (afterWordRead_words s) _

/-- A command that is not FLIP leaves W alone (20_memory.md R34). -/
theorem exec_words_of_ne_flip {i : Instr} {s t : State} (hi : i ≠ .flip)
    (h : exec i s = .next t) : t.words = s.words := by
  rw [exec_words h, finish_words_of_no_store fun out => commandOutcome_store_eq_none hi]

/-- FLIP with a fault before its word read leaves W alone (46_tick_bitmap.md R164). -/
theorem exec_flip_words_of_error {s t : State} {site : Site} (h : exec .flip s = .next t)
    (htarget : flipTarget (low32 s.arg0) (low32 s.arg1) = .error site) : t.words = s.words := by
  rw [exec_words h, commandOutcome, htarget]
  rfl

/-- FLIP changes no word but the one of its compressed tick (20_memory.md R33; 46_tick_bitmap.md
R164). -/
theorem exec_flip_read_other {s t : State} {ct : I32} {idx : I16} (h : exec .flip s = .next t)
    (htarget : flipTarget (low32 s.arg0) (low32 s.arg1) = .ok ct) (hidx : idx ≠ wordIndex ct) :
    t.words.read idx = s.words.read idx := by
  rw [exec_words h, commandOutcome, htarget, cmd_bind_ok]
  cases s.wordRead (wordIndex ct) with
  | ok word => exact read_write_other _ _ hidx
  | error site => rfl

/-! #### The sites a legal command can raise -/

/-- The two sites of an illegal command word are not a legal command's (60_exceptions.md R192). -/
def Site.ofLegalCommand : Site → Bool
  | .opcodeUnassigned | .reservedEncoding => false
  | _ => true

/-- Their STATUS words are the 24 of a legal command's faults. -/
theorem statusFault_mem_commandFaults {site : Site} (h : site.ofLegalCommand = true) :
    statusFault site ∈ commandFaults := by
  cases site with
  | opcodeUnassigned => cases h
  | reservedEncoding => cases h
  | _ => decide

theorem statusFault_mem_illegalFaults (why : Illegal) :
    statusFault (siteOfIllegal why) ∈ illegalFaults := by
  cases why <;> decide

/-- A computation that raises only sites of a legal command. -/
def RaisesLegal {α : Type} (r : Cmd α) : Prop :=
  ∀ site, r = .error site → site.ofLegalCommand = true

namespace RaisesLegal

variable {α β : Type}

theorem ok {a : α} : RaisesLegal (.ok a) := fun _ h => by cases h

theorem raise {site : Site} (h : site.ofLegalCommand = true) :
    RaisesLegal (Machine.raise site : Cmd α) := fun _ he => by cases he; exact h

theorem ite {c : Prop} [Decidable c] {r r' : Cmd α} (h : RaisesLegal r) (h' : RaisesLegal r') :
    RaisesLegal (if c then r else r') := by
  split
  · exact h
  · exact h'

theorem map {f : α → β} {r : Cmd α} (h : RaisesLegal r) : RaisesLegal (r.map f) :=
  fun site he => h site (cmd_map_eq_error.1 he)

theorem bind {f : α → Cmd β} {r : Cmd α} (h : RaisesLegal r) (hf : ∀ a, RaisesLegal (f a)) :
    RaisesLegal (r.bind f) := fun site he => by
  obtain he | ⟨a, -, he⟩ := cmd_bind_eq_error.1 he
  · exact h site he
  · exact hf a site he

end RaisesLegal

section
variable (a b d price amount quotient : U256) (liquidity : U128) (o : SwapOperands)

theorem msbOf_raisesLegal : RaisesLegal (msbOf a) := .ite (.raise rfl) .ok

theorem lsbOf_raisesLegal : RaisesLegal (lsbOf a) := .ite (.raise rfl) .ok

theorem divRoundingUp_raisesLegal {site : Site} (h : site.ofLegalCommand = true) :
    RaisesLegal (divRoundingUp a b site) := .ite (.raise h) .ok

theorem mulMod_raisesLegal : RaisesLegal (mulMod a b d) := .ite (.raise rfl) .ok

theorem mulDiv_raisesLegal : RaisesLegal (mulDiv a b d) :=
  .ite (.ite (.raise rfl) .ok) (.ite (.raise rfl) .ok)

theorem mulDivRoundingUp_raisesLegal : RaisesLegal (mulDivRoundingUp a b d) :=
  .bind (mulDiv_raisesLegal a b d) fun _ => .ite .ok (.ite (.raise rfl) .ok)

theorem addDelta_raisesLegal (x : U128) (y : I128) : RaisesLegal (addDelta x y) :=
  .ite (.ite .ok (.raise rfl)) (.ite .ok (.raise rfl))

theorem getSqrtRatioAtTick_raisesLegal (tick : I32) : RaisesLegal (getSqrtRatioAtTick tick) :=
  .ite (.raise rfl) .ok

theorem getTickAtSqrtRatio_raisesLegal : RaisesLegal (getTickAtSqrtRatio price) :=
  .ite (.raise rfl) .ok

theorem nextFromAmount0_raisesLegal (add : Bool) :
    RaisesLegal (nextFromAmount0 price liquidity amount add) :=
  .ite .ok (.ite
    (.ite (mulDivRoundingUp_raisesLegal _ _ _) (divRoundingUp_raisesLegal _ _ rfl))
    (.ite (mulDivRoundingUp_raisesLegal _ _ _) (.raise rfl)))

theorem amount1QuotientDown_raisesLegal : RaisesLegal (amount1QuotientDown liquidity amount) :=
  .ite (.ite (.raise rfl) .ok) (mulDiv_raisesLegal _ _ _)

theorem amount1QuotientUp_raisesLegal : RaisesLegal (amount1QuotientUp liquidity amount) :=
  .ite (divRoundingUp_raisesLegal _ _ rfl) (mulDivRoundingUp_raisesLegal _ _ _)

theorem nextFromAmount1_raisesLegal (add : Bool) :
    RaisesLegal (nextFromAmount1 price liquidity amount add) :=
  .ite
    (.bind (amount1QuotientDown_raisesLegal _ _) fun _ => .ite (.raise rfl) .ok)
    (.bind (amount1QuotientUp_raisesLegal _ _) fun _ => .ite (.raise rfl) .ok)

theorem checkPriceLiquidity_raisesLegal : RaisesLegal (checkPriceLiquidity price liquidity) :=
  .ite (.raise rfl) (.ite (.raise rfl) .ok)

theorem nextPriceFromInput_raisesLegal (m : Bool) :
    RaisesLegal (nextPriceFromInput price liquidity amount m) :=
  .bind (checkPriceLiquidity_raisesLegal _ _) fun _ =>
    .ite (nextFromAmount0_raisesLegal _ _ _ _) (nextFromAmount1_raisesLegal _ _ _ _)

theorem nextPriceFromOutput_raisesLegal (m : Bool) :
    RaisesLegal (nextPriceFromOutput price liquidity amount m) :=
  .bind (checkPriceLiquidity_raisesLegal _ _) fun _ =>
    .ite (nextFromAmount1_raisesLegal _ _ _ _) (nextFromAmount0_raisesLegal _ _ _ _)

theorem amount0Delta_raisesLegal (up : Bool) : RaisesLegal (amount0Delta a b liquidity up) :=
  .ite (.raise rfl)
    (.ite (.map (mulDivRoundingUp_raisesLegal _ _ _)) (.map (mulDiv_raisesLegal _ _ _)))

theorem amount1Delta_raisesLegal (up : Bool) : RaisesLegal (amount1Delta a b liquidity up) :=
  .ite (.raise rfl) (.ite (mulDivRoundingUp_raisesLegal _ _ _) (mulDiv_raisesLegal _ _ _))

theorem signedAmount0Delta_raisesLegal (delta : I128) :
    RaisesLegal (signedAmount0Delta a b delta) :=
  .ite (.map (amount0Delta_raisesLegal _ _ _ _)) (amount0Delta_raisesLegal _ _ _ _)

theorem signedAmount1Delta_raisesLegal (delta : I128) :
    RaisesLegal (signedAmount1Delta a b delta) :=
  .ite (.map (amount1Delta_raisesLegal _ _ _ _)) (amount1Delta_raisesLegal _ _ _ _)

theorem swapAmountIn_raisesLegal : RaisesLegal (swapAmountIn o a b) :=
  .ite (amount0Delta_raisesLegal _ _ _ _) (amount1Delta_raisesLegal _ _ _ _)

theorem swapAmountOut_raisesLegal : RaisesLegal (swapAmountOut o a b) :=
  .ite (amount1Delta_raisesLegal _ _ _ _) (amount0Delta_raisesLegal _ _ _ _)

theorem reachExactIn_raisesLegal : RaisesLegal (reachExactIn o) :=
  .bind (mulDiv_raisesLegal _ _ _) fun _ => .bind (swapAmountIn_raisesLegal _ _ _) fun _ =>
    .ite .ok (.map (nextPriceFromInput_raisesLegal _ _ _ _))

theorem reachExactOut_raisesLegal : RaisesLegal (reachExactOut o) :=
  .bind (swapAmountOut_raisesLegal _ _ _) fun _ =>
    .ite .ok (.map (nextPriceFromOutput_raisesLegal _ _ _ _))

theorem computeSwapStep_raisesLegal : RaisesLegal (computeSwapStep o) :=
  .bind (.ite (reachExactIn_raisesLegal o) (reachExactOut_raisesLegal o)) fun _ =>
    .bind (.ite .ok (swapAmountIn_raisesLegal _ _ _)) fun _ =>
      .bind (.ite .ok (swapAmountOut_raisesLegal _ _ _)) fun _ =>
        .map (.ite .ok (mulDivRoundingUp_raisesLegal _ _ _))

theorem flipTarget_raisesLegal (tick spacing : I32) : RaisesLegal (flipTarget tick spacing) :=
  .ite (.raise rfl) (.ite (.raise rfl) .ok)

theorem wordRead_raisesLegal (s : State) (idx : I16) : RaisesLegal (s.wordRead idx) :=
  fun _ h => (wordRead_eq_error_iff.1 h).1 ▸ rfl

end

/-- No legal command ends at a site of an illegal word (60_exceptions.md R192, R194). -/
theorem commandOutcome_raisesLegal (i : Instr) (s : State) : RaisesLegal (commandOutcome i s) := by
  cases i with
  | msb => exact .map (msbOf_raisesLegal _)
  | lsb => exact .map (lsbOf_raisesLegal _)
  | divru => exact .map (divRoundingUp_raisesLegal _ _ rfl)
  | mulmod => exact .map (mulMod_raisesLegal _ _ _)
  | muldiv => exact .map (mulDiv_raisesLegal _ _ _)
  | muldivru => exact .map (mulDivRoundingUp_raisesLegal _ _ _)
  | tick2sqrt => exact .map (getSqrtRatioAtTick_raisesLegal _)
  | sqrt2tick => exact .map (getTickAtSqrtRatio_raisesLegal _)
  | nextin m => exact .map (nextPriceFromInput_raisesLegal _ _ _ _)
  | nextout m => exact .map (nextPriceFromOutput_raisesLegal _ _ _ _)
  | nexta0 m => exact .map (nextFromAmount0_raisesLegal _ _ _ _)
  | nexta1 m => exact .map (nextFromAmount1_raisesLegal _ _ _ _)
  | amt0 m => exact .map (amount0Delta_raisesLegal _ _ _ _)
  | amt1 m => exact .map (amount1Delta_raisesLegal _ _ _ _)
  | samt0 => exact .map (signedAmount0Delta_raisesLegal _ _ _)
  | samt1 => exact .map (signedAmount1Delta_raisesLegal _ _ _)
  | bmpos => exact .ok
  | flip => exact .bind (flipTarget_raisesLegal _ _) fun _ => .map (wordRead_raisesLegal _ _)
  | nextinit lte => exact .ite (.raise rfl) (.map (wordRead_raisesLegal _ _))
  | adddelta => exact .map (addDelta_raisesLegal _ _)
  | swapstep => exact computeSwapStep_raisesLegal _

/-! #### The decoder and the encoder -/

/-- The decoder inverts the encoder (30_encoding.md R52, R53). -/
theorem decode_encode (i : Instr) : decode (encode i) = .ok i := by
  cases i with
  | nextin m | nextout m | nexta0 m | nexta1 m | amt0 m | amt1 m | nextinit m => cases m <;> rfl
  | _ => rfl

/-- A command selected by an opcode is encoded with it, and with the modifier if it takes one. -/
theorem encode_of_commandOfOpcode {opc : U8} {m : Bool} {i : Instr}
    (h : commandOfOpcode opc m = some i) : encode i = commandWord opc (m && i.takesM) := by
  unfold commandOfOpcode at h
  split at h
  case h_22 => cases h
  all_goals
    rename_i hopc
    have hlit : opc = BitVec.ofNat 8 opc.toNat := by simp
    rw [hopc] at hlit
    subst hlit
    cases h
    cases m <;> rfl

theorem commandWord_getLsbD (opc : U8) (m : Bool) {k : Nat} (hk : k < 32) :
    (commandWord opc m).getLsbD k = (opc.getLsbD k || (decide (k = 8) && m)) := by
  have hpow : 0x100#32 = BitVec.twoPow 32 8 := rfl
  rw [commandWord, hpow, BitVec.getLsbD_or, apply_ite (BitVec.getLsbD · k), BitVec.getLsbD_twoPow]
  cases m <;> simp [hk, eq_comm]

/-- A word with its reserved field 0 is put together from its opcode and modifier (30_encoding.md
R51). -/
theorem commandWord_fields {c : U32} (h : reservedField c = 0#23) :
    commandWord (opcodeField c) (modifierField c) = c := by
  refine BitVec.eq_of_getLsbD_eq fun k hk => ?_
  rw [commandWord_getLsbD (opcodeField c) (modifierField c) hk]
  obtain hlt | rfl | hgt := Nat.lt_trichotomy k 8
  · simp [opcodeField, hlt, hlt.ne]
  · simp [opcodeField, modifierField]
  · have hk9 : 9 + (k - 9) = k := by omega
    have hfield : (reservedField c).getLsbD (k - 9) = c.getLsbD k := by
      simp [reservedField, hk9, show k - 9 < 23 by omega]
    rw [← hfield, h]
    simp [opcodeField, hgt.ne', hgt.le]

/-- The words that decode are the encodings, one word for each command (30_encoding.md R52 to
R54). -/
theorem decode_eq_ok_iff {c : U32} {i : Instr} : decode c = .ok i ↔ c = encode i := by
  refine ⟨fun h => ?_, fun h => h ▸ decode_encode i⟩
  unfold decode at h
  split at h
  · cases h
  · rename_i j hj
    split at h
    · rename_i hfields
      obtain ⟨hres, hmod⟩ := hfields
      cases h
      have hm : (modifierField c && i.takesM) = modifierField c := by
        obtain hm | hm := hmod <;> simp [hm]
      rw [encode_of_commandOfOpcode hj, hm, commandWord_fields hres]
    · cases h

/-- A word the decoder rejects is no command's encoding (30_encoding.md R55). -/
theorem ne_encode_of_decode_error {c : U32} {why : Illegal} (h : decode c = .error why)
    (i : Instr) : c ≠ encode i := fun hc => by
  rw [decode_eq_ok_iff.2 hc] at h
  cases h

/-! #### The transactions -/

/-- The command word of a register write, cut out of the number it fills (10_state.md R21). -/
theorem low32_ofNat (n : Nat) : low32 (BitVec.ofNat 256 n) = BitVec.ofNat 32 n := by
  refine BitVec.eq_of_toNat_eq ?_
  simp only [low32, BitVec.toNat_setWidth, BitVec.toNat_ofNat]
  omega

theorem runCommand_of_decode {s : State} {c : U32} {i : Instr} (h : decode c = .ok i) :
    runCommand s c = exec i (s.setCmd c) := by
  unfold runCommand
  rw [h]

theorem registerWrite_cmd (s : State) (v : U256) :
    registerWrite s 0x00 v = runCommand s (low32 v) := rfl

theorem registerWrite_of_ne {s : State} {n : Nat} (v : U256) (h : n ≠ 0x00) :
    registerWrite s n v = .next (s.storeRegister n v) := if_neg h

/-- Outside the ARG registers a write stores nothing (10_state.md R22). -/
theorem storeRegister_of_not_arg {s : State} {n : Nat} (v : U256)
    (h : n ∉ [0x08, 0x09, 0x0A, 0x0B, 0x0C]) : s.storeRegister n v = s := by
  unfold State.storeRegister
  split
  case h_6 => rfl
  all_goals exact absurd (by decide) h

/-- The number of a read selects the value in the register file, 0 if it is in no row of the table
(10_state.md R11, R22). -/
theorem readRegister_eq_lookup (s : State) (n : Nat) :
    s.readRegister n = ((registerFile s).lookup n).getD 0#256 := by
  unfold State.readRegister
  split
  case h_12 =>
    have hnone : (registerFile s).lookup n = none := by
      simp_all [List.lookup_eq_none_iff, registerFile]
    rw [hnone]
    rfl
  all_goals rfl

/-- A write access at the engine's base with the four bytes of CMD covers it (20_memory.md R42,
R43). -/
theorem busWrite_base {s : State} {bytes : List Byte} (h : bytes.length = 4) :
    busWrite s (512 * s.platform.basePage) bytes =
      runCommand s (BitVec.ofNat 32 (natOfBytes bytes)) := by
  have hcov : s.registerCovered (512 * s.platform.basePage) bytes.length = some 0x00 := by
    simp [State.registerCovered, State.engineBase, registerAtOffset, h]
  rw [busWrite, hcov]
  simp only [registerWrite_cmd, low32_ofNat]

/-- Bytes that decode are four, and their number is a word that decodes (20_memory.md R43). -/
theorem decodeBytes_eq_ok {bytes : List Byte} {i : Instr} (h : decodeBytes bytes = .ok i) :
    bytes.length = 4 ∧ decode (BitVec.ofNat 32 (natOfBytes bytes)) = .ok i := by
  unfold decodeBytes at h
  split at h
  · refine ⟨‹_›, ?_⟩
    split at h
    · cases h; assumption
    · cases h
  · cases h

/-- Everything a write access of the byte binding can do (20_memory.md R43). -/
theorem busWrite_cases {s t : State} {addr : Nat} {bytes : List Byte}
    (h : busWrite s addr bytes = .next t) : (∃ n v, registerWrite s n v = .next t) ∨ t = s := by
  unfold busWrite at h
  split at h
  · exact .inl ⟨_, _, h⟩
  · exact .inr (by simpa using h.symm)

/-! #### The invariant of the outcome registers -/

/-- The invariant looks at W, CMD, STATUS and the RES registers only. -/
theorem inv_of_same_registers {s u : State} (h : Inv s) (hw : u.words.wf = true)
    (hcmd : u.cmd = s.cmd) (hstatus : u.status = s.status) (h0 : u.res0 = s.res0)
    (h1 : u.res1 = s.res1) (h2 : u.res2 = s.res2) (h3 : u.res3 = s.res3) : Inv u := by
  refine ⟨hw, ?_⟩
  simpa only [OutcomeMatchesCommand, unnamedZero, resultsZero, hcmd, hstatus, h0, h1, h2, h3]
    using h.2

/-- A command run with its own word in CMD ends in an outcome of that word. -/
theorem inv_exec {i : Instr} {s t : State} (hw : s.words.wf = true) (hcmd : s.cmd = encode i)
    (h : exec i s = .next t) : Inv t := by
  obtain ⟨u, hu, rfl⟩ := exec_cases h
  have hword : u.words = s.words ∧ u.cmd = s.cmd := by
    obtain rfl | ⟨-, rfl⟩ := hu <;> exact ⟨rfl, rfl⟩
  obtain ⟨hwords, hucmd⟩ := hword
  refine ⟨finish_words_wf (by rw [hwords, hw]) _, .inr ?_⟩
  cases hr : commandOutcome i s with
  | ok out => exact .inl ⟨i, hucmd.trans hcmd, statusOk_eq, unnamedZero_succeed hr⟩
  | error site =>
    have hsite := statusFault_mem_commandFaults (commandOutcome_raisesLegal i s site hr)
    exact .inr (.inl ⟨i, hucmd.trans hcmd, hsite, rfl, rfl, rfl, rfl⟩)

/-- Whatever word is written to CMD, the outcome that follows is its own (10_state.md R14, R20). -/
theorem inv_runCommand {s t : State} {c : U32} (hw : s.words.wf = true)
    (h : runCommand s c = .next t) : Inv t := by
  obtain ⟨i, hdec, hexec⟩ | ⟨why, hdec, rfl⟩ := runCommand_cases h
  · exact inv_exec (s := s.setCmd c) hw (decode_eq_ok_iff.1 hdec) hexec
  · exact ⟨hw, .inr (.inr (.inr
      ⟨ne_encode_of_decode_error hdec, statusFault_mem_illegalFaults why, rfl, rfl, rfl, rfl⟩))⟩

theorem inv_registerWrite {s t : State} {n : Nat} {v : U256} (hs : Inv s)
    (h : registerWrite s n v = .next t) : Inv t := by
  obtain ⟨-, hrun⟩ | ⟨-, rfl⟩ := registerWrite_cases h
  · exact inv_runCommand hs.1 hrun
  · exact inv_of_same_registers hs (by simpa using hs.1) (by simp) (by simp) (by simp) (by simp)
      (by simp) (by simp)

theorem inv_reply {s : State} (hs : Inv s) (r : Reply) : Inv (s.reply r) :=
  inv_of_same_registers hs hs.1 rfl rfl rfl rfl rfl rfl

theorem inv_hostWordWrite {s : State} (hs : Inv s) (idx : I16) (v : U256) :
    Inv (s.hostWordWrite idx v) :=
  inv_of_same_registers hs (write_wf hs.1 idx v) rfl rfl rfl rfl rfl rfl

/-- Reset gives the outcome registers their reset values and keeps W (70_reset_and_hazards.md R220,
R221). -/
theorem inv_resetRegisters {s : State} (hw : s.words.wf = true) : Inv s.resetRegisters :=
  ⟨hw, .inl ⟨rfl, rfl, rfl, rfl, rfl, rfl⟩⟩

theorem inv_perform {s t : State} {e : Event} (hs : Inv s) (h : perform s e = .next t) : Inv t := by
  cases e with
  | regWrite n v => exact inv_registerWrite hs h
  | regRead n => cases h; exact inv_reply hs _
  | wordWrite idx v => cases h; exact inv_hostWordWrite hs idx v
  | wordRead idx => cases h; exact inv_reply hs _
  | busWrite addr bytes =>
    obtain ⟨n, v, hwrite⟩ | rfl := busWrite_cases h
    · exact inv_registerWrite hs hwrite
    · exact hs
  | busRead addr size => cases h; exact inv_reply hs _
  | reset => cases h; exact inv_resetRegisters hs.1

/-! #### The outcome depends on the operands a command names -/

theorem low32_eq_iff {a b : U256} : low32 a = low32 b ↔ a.toNat % 2 ^ 32 = b.toNat % 2 ^ 32 := by
  rw [← BitVec.toNat_inj, low32, low32, BitVec.toNat_setWidth, BitVec.toNat_setWidth]

theorem low128_eq_iff {a b : U256} :
    low128 a = low128 b ↔ a.toNat % 2 ^ 128 = b.toNat % 2 ^ 128 := by
  rw [← BitVec.toNat_inj, low128, low128, BitVec.toNat_setWidth, BitVec.toNat_setWidth]

/-- A word read is a function of W, the port's answers and the platform. -/
theorem wordRead_congr {s s' : State} (hw : s.words = s'.words)
    (hp : s.portAnswers = s'.portAnswers) (hpl : s.platform = s'.platform) (idx : I16) :
    s.wordRead idx = s'.wordRead idx := by
  unfold State.wordRead State.portAnswer
  rw [hw, hp, hpl]

/-- A command computes from the operands it names, at their widths, and from what a word read sees
(10_state.md R12, R16). -/
theorem commandOutcome_congr {i : Instr} {s s' : State} (hview : operandView i s = operandView i s')
    (hword : reachesW i = true →
      s.words = s'.words ∧ s.portAnswers = s'.portAnswers ∧ s.platform = s'.platform) :
    commandOutcome i s = commandOutcome i s' := by
  cases i with
  | flip | nextinit lte =>
    obtain ⟨hw, hp, hpl⟩ := hword rfl
    simp only [operandView, List.cons.injEq, ← low32_eq_iff, and_true] at hview
    simp only [commandOutcome, hview, wordRead_congr hw hp hpl]
  | swapstep =>
    simp only [operandView, List.cons.injEq, BitVec.toNat_inj, ← low32_eq_iff, ← low128_eq_iff,
      and_true] at hview
    simp only [commandOutcome, State.swapOperands, hview]
  | _ =>
    simp only [operandView, List.cons.injEq, BitVec.toNat_inj, ← low32_eq_iff, ← low128_eq_iff,
      and_true] at hview
    simp only [commandOutcome, hview]

end Sys2Proof.Machine

/-! ### The obligations of 10_state.md -/

namespace Sys2Proof.Machine

open Sys2Proof.Safety

/-- Settles O19: by the kinds of event, each of which either runs the command now in CMD or leaves
the outcome registers alone. -/
theorem outcomeInvariantKept : Obligations.OutcomeInvariantKept := by
  intro s t hs h
  obtain ⟨-, rfl⟩ | ⟨e, rest, -, hperform⟩ := step_cases h
  · exact hs
  · have hs' : Inv (s.setPending rest) := inv_of_same_registers hs hs.1 rfl rfl rfl rfl rfl rfl
    exact inv_perform hs' hperform

/-- Settles O14: a command only finishes its outcome, after at most one answer of the port. -/
theorem commandFrame : Obligations.CommandFrame := by
  intro i s t h
  obtain ⟨hcmd, h0, h1, h2, h3, h4, hplatform, hpending, hreplies⟩ := exec_frame h
  have hport := exec_portAnswers h
  refine ⟨hcmd, h0, h1, h2, h3, h4, hplatform, hpending, hreplies, fun hW => ?_,
    fun _ => hport.imp_right And.right, fun hi => exec_words_of_ne_flip hi h, ?_⟩
  · exact hport.resolve_right fun hspent => absurd (hspent.1.symm.trans hW) (by decide)
  · rintro rfl
    exact ⟨fun _ => exec_flip_words_of_error h, fun _ htarget _ => exec_flip_read_other h htarget⟩

/-- Settles O18: both states compute the same outcome, and a finished outcome fixes the results. -/
theorem resultsDependOnOperandsOnly : Obligations.ResultsDependOnOperandsOnly := by
  intro i s s' t t' hview hword h h'
  have hout := commandOutcome_congr hview hword
  have hwords : reachesW i = true → t.words = t'.words := fun hW => by
    obtain ⟨hw, -, -⟩ := hword hW
    rw [exec_words h, exec_words h', hout, finish_words_congr hw]
  obtain ⟨u, -, rfl⟩ := exec_cases h
  obtain ⟨u', -, rfl⟩ := exec_cases h'
  rw [hout] at hwords ⊢
  obtain ⟨hstatus, h0, h1, h2, h3⟩ := finish_results u u' (commandOutcome i s')
  exact ⟨hstatus, h0, h1, h2, h3, hwords⟩

/-- Settles O5: the three ways a command word reaches CMD all end in `runCommand`. -/
theorem stepRunsDecodedCommand : Obligations.StepRunsDecodedCommand := by
  intro s i rest _
  refine ⟨fun v hp hdec => ?_, fun bytes hp hdec => ?_, fun w hw hdec => ?_⟩
  · rw [step_cons hp]
    exact runCommand_of_decode hdec
  · obtain ⟨hlen, hword⟩ := decodeBytes_eq_ok hdec
    rw [step_cons hp, perform, ← setPending_platform s rest, busWrite_base hlen,
      runCommand_of_decode hword, decode_eq_ok_iff.1 hword]
    rfl
  · have htable : low32 (BitVec.ofNat 256 (tableWord 32 w)) = BitVec.ofNat 32 w := by
      rw [low32_ofNat, tableWord, Nat.min_self, Nat.mod_eq_of_lt hw]
    rw [step_cons (s := s.withFetchWord 32 w) rfl, perform, cmdNumber, registerWrite_cmd, htable,
      runCommand_of_decode hdec]
    rfl

/-- Settles O6: every number but CMD's is a store, which only the ARG registers take. -/
theorem registerWriteAccess : Obligations.RegisterWriteAccess := by
  intro s n v rest hp
  rw [step_cons hp]
  refine ⟨?_, ?_, ?_, ?_, ?_, fun hn => ?ignored⟩
  case ignored =>
    obtain ⟨hcmd, harg⟩ := not_or.1 (mt List.mem_cons.2 hn)
    rw [perform, registerWrite_of_ne v hcmd, storeRegister_of_not_arg v harg]
    rfl
  all_goals rintro rfl; rfl

/-- Settles O7: a read replies with the register file's value and changes nothing else. -/
theorem registerReadAccess : Obligations.RegisterReadAccess := by
  intro s n rest hp
  rw [step_cons hp, perform, readRegister_eq_lookup]
  rfl

/-- Settles O13: every command ends by finishing its outcome. -/
theorem everyCommandEnds : Obligations.EveryCommandEnds :=
  fun i s => ⟨_, exec_eq_ends i s, finish_done _ _⟩

/-- Settles O20: W is empty, and no command has run. -/
theorem outcomeInvariantAtReset : Obligations.OutcomeInvariantAtReset :=
  ⟨reset_words_wf, .inl ⟨rfl, rfl, rfl, rfl, rfl, rfl⟩⟩

end Sys2Proof.Machine
end

section
/-! ### The word space, the word port and the byte binding

The byte binding as a little-endian numeral over the map of its registers, the sites each function
raises, and the one source of a MiddlewareError (20_memory.md sections 1 to 4). -/

namespace Sys2Proof.Machine

open Sys2Proof.Safety

/-! #### Bytes, least significant first -/

theorem bytesOfNat_length (n v : Nat) : (bytesOfNat n v).length = n := by
  induction n generalizing v with
  | zero => rfl
  | succ n ih => simp [bytesOfNat, ih]

/-- Byte `k` of a number is its digit `k` to base 256 (20_memory.md R35). -/
theorem bytesOfNat_getElem? {n k : Nat} (v : Nat) (h : k < n) :
    (bytesOfNat n v)[k]? = some (BitVec.ofNat 8 (v / 256 ^ k)) := by
  induction n generalizing v k with
  | zero => omega
  | succ n ih =>
    cases k with
    | zero => simp [bytesOfNat]
    | succ k =>
      rw [bytesOfNat, List.getElem?_cons_succ, ih _ (by omega), Nat.div_div_eq_div_mul, pow_succ']

/-- The bytes of a number give back the number, as far as they reach (20_memory.md R35). -/
theorem natOfBytes_bytesOfNat (n v : Nat) : natOfBytes (bytesOfNat n v) = v % 256 ^ n := by
  induction n generalizing v with
  | zero => simp [bytesOfNat, natOfBytes, Nat.mod_one]
  | succ n ih =>
    rw [bytesOfNat, natOfBytes, ih, BitVec.toNat_ofNat, pow_succ' 256 n]
    exact Nat.mod_mul.symm

/-- Bits `8k` to `8k + 7` of a value are its digit `k` to base 256. -/
theorem extractLsb'_byte (v : U256) (k : Nat) :
    v.extractLsb' (8 * k) 8 = BitVec.ofNat 8 (v.toNat / 256 ^ k) := by
  rw [BitVec.extractLsb', Nat.shiftRight_eq_div_pow, pow_mul]
  rfl

/-- A list of the bytes of a value, by position, is the bytes of its number (20_memory.md R35). -/
theorem eq_bytesOfNat {bytes : List Byte} {width : Nat} {v : U256} (hlen : bytes.length = width)
    (hbyte : ∀ k, k < width → bytes[k]? = some (v.extractLsb' (8 * k) 8)) :
    bytes = bytesOfNat width v.toNat := by
  refine List.ext_getElem? fun k => ?_
  by_cases hk : k < width
  · rw [hbyte k hk, bytesOfNat_getElem? _ hk, extractLsb'_byte]
  · rw [List.getElem?_eq_none (by omega),
      List.getElem?_eq_none (by rw [bytesOfNat_length]; omega)]

/-- The bytes a read returns, written out by position (20_memory.md R43). -/
theorem bytesOfNat_toNat (n : Nat) (v : U256) :
    bytesOfNat n v.toNat = List.ofFn fun k : Fin n => v.extractLsb' (8 * k.val) 8 :=
  (eq_bytesOfNat List.length_ofFn fun k hk => by rw [List.getElem?_ofFn, dif_pos hk]).symm

/-- Bytes that are a value's bytes, as many as it needs, stand for the value (20_memory.md R35). -/
theorem natOfBytes_eq_toNat {bytes : List Byte} {width : Nat} {v : U256}
    (hlen : bytes.length = width) (hv : v.toNat < 2 ^ (8 * width))
    (hbyte : ∀ k, k < width → bytes[k]? = some (v.extractLsb' (8 * k) 8)) :
    natOfBytes bytes = v.toNat := by
  rw [pow_mul] at hv
  rw [eq_bytesOfNat hlen hbyte, natOfBytes_bytesOfNat]
  exact Nat.mod_eq_of_lt hv

/-! #### The map of the byte binding -/

/-- The machine's map of offsets has the rows of the table and no other (20_memory.md R42). -/
theorem registerAtOffset_eq_some_iff {offset width n : Nat} :
    registerAtOffset offset = some (n, width) ↔ (offset, width, n) ∈ busMap := by
  have hrows : ∀ e ∈ busMap, registerAtOffset e.1 = some (e.2.2, e.2.1) := by decide
  refine ⟨fun h => ?_, hrows _⟩
  unfold registerAtOffset at h
  split at h
  case h_12 => cases h
  all_goals cases h; decide

/-- An access covers a register exactly when its address and its size are those of a row of R42
(20_memory.md R43). -/
theorem registerCovered_eq_some_iff {s : State} {addr size n : Nat} :
    s.registerCovered addr size = some n ↔
      ∃ offset, (offset, size, n) ∈ busMap ∧ addr = 512 * s.platform.basePage + offset := by
  have hbase : s.engineBase = 512 * s.platform.basePage := rfl
  simp only [← registerAtOffset_eq_some_iff, ← hbase]
  constructor
  · intro h
    unfold State.registerCovered at h
    split at h
    · cases h
    · refine ⟨addr - s.engineBase, ?_, by omega⟩
      split at h
      · rename_i hrow
        split at h
        · rename_i hsize
          rw [hrow, hsize, Option.some.inj h]
        · cases h
      · cases h
  · rintro ⟨offset, hrow, rfl⟩
    simp [State.registerCovered, hrow]

theorem registerCovered_eq_none {s : State} {addr size : Nat}
    (h : ∀ offset n, (offset, size, n) ∈ busMap → addr ≠ 512 * s.platform.basePage + offset) :
    s.registerCovered addr size = none := by
  refine Option.eq_none_iff_forall_ne_some.2 fun n hn => ?_
  obtain ⟨offset, hrow, haddr⟩ := registerCovered_eq_some_iff.1 hn
  exact h offset n hrow haddr

section
variable {s : State} {addr size n : Nat} {bytes : List Byte}

/-- A write access that covers a register is its register write (20_memory.md R43). -/
theorem busWrite_of_covered (h : s.registerCovered addr bytes.length = some n) :
    busWrite s addr bytes = registerWrite s n (BitVec.ofNat 256 (natOfBytes bytes)) := by
  rw [busWrite, h]

/-- Any other write access is ignored (20_memory.md R42; log 11). -/
theorem busWrite_of_not_covered (h : s.registerCovered addr bytes.length = none) :
    busWrite s addr bytes = .next s := by
  rw [busWrite, h]

/-- A read access that covers a register returns the value's bytes (20_memory.md R43). -/
theorem busBytes_of_covered (h : s.registerCovered addr size = some n) :
    s.busBytes addr size = bytesOfNat size (s.readRegister n).toNat := by
  rw [State.busBytes, h]

/-- Any other read access returns zero bytes (20_memory.md R42; log 11). -/
theorem busBytes_of_not_covered (h : s.registerCovered addr size = none) :
    s.busBytes addr size = List.replicate size 0#8 := by
  rw [State.busBytes, h]

end

/-! #### The answers of the word port -/

section
variable {s : State} {rest : List PortAnswer}

theorem wordRead_of_stored (h : s.portAnswers = .stored :: rest) (idx : I16) :
    s.wordRead idx = .ok (s.words.read idx) := by
  simp [State.wordRead, State.portAnswer, h]

/-- An error answer is a fault where the port may fail (20_memory.md R38). -/
theorem wordRead_of_error (hfail : s.platform.wordReadMayFail = true)
    (h : s.portAnswers = .error :: rest) (idx : I16) :
    s.wordRead idx = .error .wordReadError := by
  simp [State.wordRead, State.portAnswer, h, hfail]

/-- A remote provider's word is answered as it is (20_memory.md R40; log 5). -/
theorem wordRead_of_word {v : U256} (hfail : s.platform.wordReadMayFail = true)
    (h : s.portAnswers = .word v :: rest) (idx : I16) : s.wordRead idx = .ok v := by
  simp [State.wordRead, State.portAnswer, h, hfail]

end

/-! #### The sites each function can raise -/

/-- A computation that raises no site but these: `RaisesLegal` with the sites named, so that a
site can be ruled out for one function. -/
def RaisesAmong {α : Type} (sites : List Site) (r : Cmd α) : Prop :=
  ∀ site, r = .error site → site ∈ sites

namespace RaisesAmong

variable {α β : Type} {sites : List Site}

theorem ok {a : α} : RaisesAmong sites (.ok a) := fun _ h => by cases h

theorem raise {site : Site} (h : site ∈ sites) : RaisesAmong sites (Machine.raise site : Cmd α) :=
  fun _ he => by cases he; exact h

theorem mono {fewer : List Site} {r : Cmd α} (h : RaisesAmong fewer r) (hsub : fewer ⊆ sites) :
    RaisesAmong sites r := fun site he => hsub (h site he)

theorem ite {c : Prop} [Decidable c] {r r' : Cmd α} (h : RaisesAmong sites r)
    (h' : RaisesAmong sites r') : RaisesAmong sites (if c then r else r') := by
  split
  · exact h
  · exact h'

theorem map {f : α → β} {r : Cmd α} (h : RaisesAmong sites r) : RaisesAmong sites (r.map f) :=
  fun site he => h site (cmd_map_eq_error.1 he)

theorem bind {f : α → Cmd β} {r : Cmd α} (h : RaisesAmong sites r)
    (hf : ∀ a, RaisesAmong sites (f a)) : RaisesAmong sites (r.bind f) := fun site he => by
  obtain he | ⟨a, -, he⟩ := cmd_bind_eq_error.1 he
  · exact h site he
  · exact hf a site he

end RaisesAmong

/-- The sites of `mul_div` and `mul_div_rounding_up` (43_full_math.md R106, R108). -/
def mulDivSites : List Site := [.muldivByZero, .muldivOverflow, .muldivruIncrement]

/-- The sites of NEXTA0 with either modifier (45_sqrt_price_math.md R140). -/
def nexta0Sites : List Site := .amount0AddByZero :: .amount0Removed :: mulDivSites

/-- The sites of NEXTA1 with either modifier (45_sqrt_price_math.md R141). -/
def nexta1Sites : List Site :=
  .amount1AddByZero :: .amount1SubByZero :: .amount1Ceiling :: .amount1Removed :: mulDivSites

/-- The sites of NEXTIN and NEXTOUT (45_sqrt_price_math.md R138, R139). -/
def nextPriceSites : List Site := .nextPriceZero :: .nextLiquidityZero :: nexta0Sites ++ nexta1Sites

/-- The sites of AMT0 and SAMT0 (45_sqrt_price_math.md R143, R145). -/
def amount0Sites : List Site := .delta0PriceZero :: mulDivSites

/-- The sites of AMT1 and SAMT1 (45_sqrt_price_math.md R144, R146). -/
def amount1Sites : List Site := .delta1PriceZero :: mulDivSites

/-- The sites of the functions SWAPSTEP calls (48_swap_step.md R183). -/
def swapSites : List Site := amount0Sites ++ amount1Sites ++ nextPriceSites

section
variable (a b d price amount : U256) (liquidity : U128) (o : SwapOperands) (m : Bool)

theorem msbOf_raisesAmong : RaisesAmong [.msbOfZero] (msbOf a) := .ite (.raise (by decide)) .ok

theorem lsbOf_raisesAmong : RaisesAmong [.lsbOfZero] (lsbOf a) := .ite (.raise (by decide)) .ok

theorem divRoundingUp_raisesAmong (site : Site) : RaisesAmong [site] (divRoundingUp a b site) :=
  .ite (.raise List.mem_cons_self) .ok

theorem mulMod_raisesAmong : RaisesAmong [.mulmodByZero] (mulMod a b d) :=
  .ite (.raise (by decide)) .ok

theorem mulDiv_raisesAmong : RaisesAmong [.muldivByZero, .muldivOverflow] (mulDiv a b d) :=
  .ite (.ite (.raise (by decide)) .ok) (.ite (.raise (by decide)) .ok)

theorem mulDivRoundingUp_raisesAmong : RaisesAmong mulDivSites (mulDivRoundingUp a b d) :=
  .bind ((mulDiv_raisesAmong a b d).mono (by decide)) fun _ =>
    .ite .ok (.ite (.raise (by decide)) .ok)

theorem addDelta_raisesAmong (x : U128) (y : I128) :
    RaisesAmong [.liquidityBelowZero, .liquidityAboveMax] (addDelta x y) :=
  .ite (.ite .ok (.raise (by decide))) (.ite .ok (.raise (by decide)))

theorem getSqrtRatioAtTick_raisesAmong (tick : I32) :
    RaisesAmong [.tickRange] (getSqrtRatioAtTick tick) := .ite (.raise (by decide)) .ok

theorem getTickAtSqrtRatio_raisesAmong : RaisesAmong [.priceRange] (getTickAtSqrtRatio price) :=
  .ite (.raise (by decide)) .ok

theorem checkPriceLiquidity_raisesAmong :
    RaisesAmong [.nextPriceZero, .nextLiquidityZero] (checkPriceLiquidity price liquidity) :=
  .ite (.raise (by decide)) (.ite (.raise (by decide)) .ok)

theorem nextFromAmount0_raisesAmong :
    RaisesAmong nexta0Sites (nextFromAmount0 price liquidity amount m) :=
  .ite .ok (.ite
    (.ite ((mulDivRoundingUp_raisesAmong _ _ _).mono (by decide))
      ((divRoundingUp_raisesAmong _ _ _).mono (by decide)))
    (.ite ((mulDivRoundingUp_raisesAmong _ _ _).mono (by decide)) (.raise (by decide))))

theorem amount1QuotientDown_raisesAmong :
    RaisesAmong [.muldivByZero, .muldivOverflow, .amount1AddByZero]
      (amount1QuotientDown liquidity amount) :=
  .ite (.ite (.raise (by decide)) .ok) ((mulDiv_raisesAmong _ _ _).mono (by decide))

theorem amount1QuotientUp_raisesAmong :
    RaisesAmong (.amount1SubByZero :: mulDivSites) (amount1QuotientUp liquidity amount) :=
  .ite ((divRoundingUp_raisesAmong _ _ _).mono (by decide))
    ((mulDivRoundingUp_raisesAmong _ _ _).mono (by decide))

theorem nextFromAmount1_raisesAmong :
    RaisesAmong nexta1Sites (nextFromAmount1 price liquidity amount m) :=
  .ite
    (.bind ((amount1QuotientDown_raisesAmong _ _).mono (by decide)) fun _ =>
      .ite (.raise (by decide)) .ok)
    (.bind ((amount1QuotientUp_raisesAmong _ _).mono (by decide)) fun _ =>
      .ite (.raise (by decide)) .ok)

theorem nextPriceFromInput_raisesAmong :
    RaisesAmong nextPriceSites (nextPriceFromInput price liquidity amount m) :=
  .bind ((checkPriceLiquidity_raisesAmong _ _).mono (by decide)) fun _ =>
    .ite ((nextFromAmount0_raisesAmong _ _ _ _).mono (by decide))
      ((nextFromAmount1_raisesAmong _ _ _ _).mono (by decide))

theorem nextPriceFromOutput_raisesAmong :
    RaisesAmong nextPriceSites (nextPriceFromOutput price liquidity amount m) :=
  .bind ((checkPriceLiquidity_raisesAmong _ _).mono (by decide)) fun _ =>
    .ite ((nextFromAmount1_raisesAmong _ _ _ _).mono (by decide))
      ((nextFromAmount0_raisesAmong _ _ _ _).mono (by decide))

theorem amount0Delta_raisesAmong : RaisesAmong amount0Sites (amount0Delta a b liquidity m) :=
  .ite (.raise (by decide))
    (.ite (.map ((mulDivRoundingUp_raisesAmong _ _ _).mono (by decide)))
      (.map ((mulDiv_raisesAmong _ _ _).mono (by decide))))

theorem amount1Delta_raisesAmong : RaisesAmong amount1Sites (amount1Delta a b liquidity m) :=
  .ite (.raise (by decide))
    (.ite ((mulDivRoundingUp_raisesAmong _ _ _).mono (by decide))
      ((mulDiv_raisesAmong _ _ _).mono (by decide)))

theorem signedAmount0Delta_raisesAmong (delta : I128) :
    RaisesAmong amount0Sites (signedAmount0Delta a b delta) :=
  .ite (.map (amount0Delta_raisesAmong _ _ _ _)) (amount0Delta_raisesAmong _ _ _ _)

theorem signedAmount1Delta_raisesAmong (delta : I128) :
    RaisesAmong amount1Sites (signedAmount1Delta a b delta) :=
  .ite (.map (amount1Delta_raisesAmong _ _ _ _)) (amount1Delta_raisesAmong _ _ _ _)

theorem swapAmountIn_raisesAmong : RaisesAmong swapSites (swapAmountIn o a b) :=
  .ite ((amount0Delta_raisesAmong _ _ _ _).mono (by decide))
    ((amount1Delta_raisesAmong _ _ _ _).mono (by decide))

theorem swapAmountOut_raisesAmong : RaisesAmong swapSites (swapAmountOut o a b) :=
  .ite ((amount1Delta_raisesAmong _ _ _ _).mono (by decide))
    ((amount0Delta_raisesAmong _ _ _ _).mono (by decide))

theorem reachExactIn_raisesAmong : RaisesAmong swapSites (reachExactIn o) :=
  .bind ((mulDiv_raisesAmong _ _ _).mono (by decide)) fun _ =>
    .bind (swapAmountIn_raisesAmong _ _ _) fun _ =>
      .ite .ok (.map ((nextPriceFromInput_raisesAmong _ _ _ _).mono (by decide)))

theorem reachExactOut_raisesAmong : RaisesAmong swapSites (reachExactOut o) :=
  .bind (swapAmountOut_raisesAmong _ _ _) fun _ =>
    .ite .ok (.map ((nextPriceFromOutput_raisesAmong _ _ _ _).mono (by decide)))

/-- SWAPSTEP raises no site but those of the functions it calls (48_swap_step.md R183). -/
theorem computeSwapStep_raisesAmong : RaisesAmong swapSites (computeSwapStep o) :=
  .bind (.ite (reachExactIn_raisesAmong o) (reachExactOut_raisesAmong o)) fun _ =>
    .bind (.ite .ok (swapAmountIn_raisesAmong _ _ _)) fun _ =>
      .bind (.ite .ok (swapAmountOut_raisesAmong _ _ _)) fun _ =>
        .map (.ite .ok ((mulDivRoundingUp_raisesAmong _ _ _).mono (by decide)))

theorem flipTarget_raisesAmong (tick spacing : I32) :
    RaisesAmong [.spacingNotPositive, .spacingMismatch] (flipTarget tick spacing) :=
  .ite (.raise (by decide)) (.ite (.raise (by decide)) .ok)

theorem wordRead_raisesAmong (s : State) (idx : I16) :
    RaisesAmong [.wordReadError] (s.wordRead idx) :=
  fun _ h => List.mem_singleton.2 (wordRead_eq_error_iff.1 h).1

end

/-- The sites of a command's own checks and of the functions it calls, an upper bound of its faults
(60_exceptions.md R194). -/
def commandSites : Instr → List Site
  | .msb => [.msbOfZero]
  | .lsb => [.lsbOfZero]
  | .divru => [.divruByZero]
  | .mulmod => [.mulmodByZero]
  | .muldiv => [.muldivByZero, .muldivOverflow]
  | .muldivru => mulDivSites
  | .tick2sqrt => [.tickRange]
  | .sqrt2tick => [.priceRange]
  | .nextin _ | .nextout _ => nextPriceSites
  | .nexta0 _ => nexta0Sites
  | .nexta1 _ => nexta1Sites
  | .amt0 _ | .samt0 => amount0Sites
  | .amt1 _ | .samt1 => amount1Sites
  | .bmpos => []
  | .flip => [.spacingNotPositive, .spacingMismatch, .wordReadError]
  | .nextinit _ => [.spacingNotPositive, .wordReadError]
  | .adddelta => [.liquidityBelowZero, .liquidityAboveMax]
  | .swapstep => swapSites

/-- A command raises no site but those of the functions it calls (60_exceptions.md R194). -/
theorem commandOutcome_raisesAmong (i : Instr) (s : State) :
    RaisesAmong (commandSites i) (commandOutcome i s) := by
  cases i with
  | msb => exact .map (msbOf_raisesAmong _)
  | lsb => exact .map (lsbOf_raisesAmong _)
  | divru => exact .map (divRoundingUp_raisesAmong _ _ _)
  | mulmod => exact .map (mulMod_raisesAmong _ _ _)
  | muldiv => exact .map (mulDiv_raisesAmong _ _ _)
  | muldivru => exact .map (mulDivRoundingUp_raisesAmong _ _ _)
  | tick2sqrt => exact .map (getSqrtRatioAtTick_raisesAmong _)
  | sqrt2tick => exact .map (getTickAtSqrtRatio_raisesAmong _)
  | nextin m => exact .map (nextPriceFromInput_raisesAmong _ _ _ _)
  | nextout m => exact .map (nextPriceFromOutput_raisesAmong _ _ _ _)
  | nexta0 m => exact .map (nextFromAmount0_raisesAmong _ _ _ _)
  | nexta1 m => exact .map (nextFromAmount1_raisesAmong _ _ _ _)
  | amt0 m => exact .map (amount0Delta_raisesAmong _ _ _ _)
  | amt1 m => exact .map (amount1Delta_raisesAmong _ _ _ _)
  | samt0 => exact .map (signedAmount0Delta_raisesAmong _ _ _)
  | samt1 => exact .map (signedAmount1Delta_raisesAmong _ _ _)
  | bmpos => exact .ok
  | flip =>
    exact .bind ((flipTarget_raisesAmong _ _).mono (by decide)) fun _ =>
      .map ((wordRead_raisesAmong _ _).mono (by decide))
  | nextinit lte =>
    exact .ite (.raise List.mem_cons_self)
      (.map ((wordRead_raisesAmong _ _).mono (List.subset_cons_self _ _)))
  | adddelta => exact .map (addDelta_raisesAmong _ _)
  | swapstep => exact computeSwapStep_raisesAmong _

/-! #### The one source of a MiddlewareError -/

/-- SITE 0x15 is a site of the commands that reach W alone (20_memory.md R34). -/
theorem reachesW_of_wordReadError_mem {i : Instr} (h : Site.wordReadError ∈ commandSites i) :
    reachesW i = true := by
  cases i with
  | flip => rfl
  | nextinit lte => rfl
  | _ =>
    simp [commandSites, swapSites, amount0Sites, amount1Sites, nextPriceSites, nexta0Sites,
      nexta1Sites, mulDivSites] at h

/-- Where the port cannot fail no command fails at its word read (20_memory.md R38; 60_exceptions.md
R198). -/
theorem commandOutcome_ne_wordReadError {i : Instr} {s : State}
    (hlocal : s.platform.wordReadMayFail = false) :
    commandOutcome i s ≠ .error .wordReadError := by
  intro h
  have hreaches : reachesW i = true :=
    reachesW_of_wordReadError_mem (commandOutcome_raisesAmong i s _ h)
  cases i with
  | flip =>
    simp only [commandOutcome, wordRead_of_cannot_fail hlocal, cmd_map_ok] at h
    obtain he | ⟨ct, -, he⟩ := cmd_bind_eq_error.1 h
    · exact absurd (flipTarget_raisesAmong _ _ _ he) (by decide)
    · cases he
  | nextinit lte =>
    simp only [commandOutcome, wordRead_of_cannot_fail hlocal, cmd_map_ok] at h
    split at h <;> cases h
  | _ => cases hreaches

/-- ERR = MiddlewareError is the fault of SITE 0x15 (60_exceptions.md R192). -/
theorem eq_wordReadError_of_statusFault {site : Site} (h : statusFault site = 0x115A#32) :
    site = .wordReadError := by
  cases site with
  | wordReadError => rfl
  | _ => exact absurd h (by decide)

/-- A command that ends with ERR = MiddlewareError failed at its word read. -/
theorem outcome_of_status_middlewareError {i : Instr} {s t : State} (h : exec i s = .next t)
    (hstatus : t.status = 0x115A#32) : commandOutcome i s = .error .wordReadError := by
  obtain ⟨u, -, rfl⟩ := exec_cases h
  cases hout : commandOutcome i s with
  | ok out => rw [hout, finish_ok, succeed_status, statusOk_eq] at hstatus; cases hstatus
  | error site =>
    rw [hout, finish_error, fail_status] at hstatus
    rw [eq_wordReadError_of_statusFault hstatus]

end Sys2Proof.Machine

/-! ### The obligations of 20_memory.md -/

namespace Sys2Proof.Machine

open Sys2Proof.Safety

/-- Settles O8: an access covers a register exactly when it is a row of the map, and the bytes of a
register are the digits of its value to base 256. -/
theorem busBindingIsRegisterTransaction : Obligations.BusBindingIsRegisterTransaction := by
  intro s addr rest
  refine ⟨fun offset width n hrow haddr => ?_, fun size hnone => ?_⟩
  · have hcov : (s.setPending rest).registerCovered addr width = some n :=
      registerCovered_eq_some_iff.2 ⟨offset, hrow, haddr⟩
    refine ⟨fun bytes v hp hlen hv hbyte => ?_, fun hp => ?_⟩
    · rw [step_cons hp, perform, busWrite_of_covered (hlen ▸ hcov),
        natOfBytes_eq_toNat hlen hv hbyte, BitVec.ofNat_toNat, BitVec.setWidth_eq]
      rfl
    · rw [step_cons hp, perform, busBytes_of_covered hcov, bytesOfNat_toNat, readRegister_eq_lookup]
      rfl
  · have hcov : (s.setPending rest).registerCovered addr size = none :=
      registerCovered_eq_none hnone
    refine ⟨fun bytes hp hlen => ?_, fun hp => ?_⟩
    · rw [step_cons hp, perform, busWrite_of_not_covered (hlen ▸ hcov)]
      rfl
    · rw [step_cons hp, perform, busBytes_of_not_covered hcov]
      rfl

/-- Settles O9: a host word write is one write of the canonical list. -/
theorem hostWordAccess : Obligations.HostWordAccess := by
  intro s idx rest hw
  refine ⟨fun v hp => ⟨s.words.write idx v, step_cons hp, write_wf hw idx v,
    read_write_same hw idx v, fun _ hne => read_write_other _ v hne⟩, fun hp => step_cons hp⟩

/-- Settles O10: by the answers of the port one by one; a command that ends with ERR =
MiddlewareError failed at its word read, which takes a port that may fail. -/
theorem wordPortAnswers : Obligations.WordPortAnswers := by
  intro s idx
  refine ⟨fun h => wordRead_of_no_answers h idx, fun h => wordRead_of_cannot_fail h idx,
    fun _ h => wordRead_of_stored h idx, fun hfail _ h => wordRead_of_error hfail h idx,
    fun hfail _ _ h => wordRead_of_word hfail h idx, fun i t hlocal h hstatus => ?_⟩
  exact commandOutcome_ne_wordReadError hlocal (outcome_of_status_middlewareError h hstatus)

end Sys2Proof.Machine
end

section
/-! ### The legal command words

The decoder by the three conditions of R54: which of them a rejected word fails, and that the words
written out from R52 and R53 are those that meet all three (30_encoding.md sections 1 and 2). -/

namespace Sys2Proof.Machine

open Sys2Proof.Safety

/-! #### The fields of a command word -/

/-- Bits 31:9 of a word are what is left of it above bit 8 (30_encoding.md R51). -/
theorem reservedField_eq (c : U32) : reservedField c = (c >>> 9).setWidth 23 :=
  BitVec.setWidth_ushiftRight_eq_extractLsb.symm

/-- The opcode of a command word is the one it is put together from (30_encoding.md R51). -/
theorem opcodeField_commandWord (opc : U8) (m : Bool) : opcodeField (commandWord opc m) = opc := by
  refine BitVec.eq_of_getLsbD_eq fun k hk => ?_
  rw [opcodeField, BitVec.getLsbD_setWidth, commandWord_getLsbD opc m (by omega)]
  simp [hk, hk.ne]

/-- The three conditions of R54, as propositions. -/
theorem legalWord_iff {c : U32} :
    legalWord c = true ↔ opcodeField c ∈ assignedOpcodes ∧ c >>> 9 = 0#32 ∧
      (modifierField c = false ∨ opcodeField c ∈ modifierOpcodes) := by
  simp [legalWord, wordHasOpcode, wordReservedZero, wordModifierAllowed, opcodeField, modifierField,
    and_assoc]

/-! #### The words written out -/

theorem encode_mem_legalWords (i : Instr) : encode i ∈ legalWords := by
  cases i with
  | nextin m | nextout m | nexta0 m | nexta1 m | amt0 m | amt1 m | nextinit m => cases m <;> decide
  | _ => decide

theorem legalWord_of_mem {c : U32} (h : c ∈ legalWords) : legalWord c = true :=
  List.all_eq_true.1 (by decide : legalWords.all legalWord = true) c h

theorem legalWord_encode (i : Instr) : legalWord (encode i) = true :=
  legalWord_of_mem (encode_mem_legalWords i)

/-! #### The opcode map -/

/-- The opcode map selects a command at the assigned opcodes only (30_encoding.md R52). -/
theorem mem_assignedOpcodes_of_commandOfOpcode {opc : U8} {m : Bool} {i : Instr}
    (h : commandOfOpcode opc m = some i) : opc ∈ assignedOpcodes := by
  obtain ⟨hopc, -, -⟩ := legalWord_iff.1 (legalWord_encode i)
  rwa [encode_of_commandOfOpcode h, opcodeField_commandWord] at hopc

/-- The opcode map selects a command at every assigned opcode (30_encoding.md R52). -/
theorem exists_commandOfOpcode {opc : U8} (m : Bool) (h : opc ∈ assignedOpcodes) :
    ∃ i, commandOfOpcode opc m = some i := by
  have hall : ∀ opc ∈ assignedOpcodes, (commandOfOpcode opc m).isSome = true := by
    cases m <;> decide
  exact Option.isSome_iff_exists.1 (hall opc h)

/-- An opcode of R53's seven selects a command with a modifier. -/
theorem takesM_of_commandOfOpcode {opc : U8} {m : Bool} {i : Instr} (hm : opc ∈ modifierOpcodes)
    (h : commandOfOpcode opc m = some i) : i.takesM = true := by
  have hall : ∀ opc ∈ modifierOpcodes, (commandOfOpcode opc m).all Instr.takesM = true := by
    cases m <;> decide
  simpa [h] using hall opc hm

/-! #### What the decoder answers -/

/-- An unassigned opcode is reported whatever the other bits (30_encoding.md R55). -/
theorem decode_of_unassigned {c : U32} (h : opcodeField c ∉ assignedOpcodes) :
    decode c = .error .unassignedOpcode := by
  have hnone : commandOfOpcode (opcodeField c) (modifierField c) = none :=
    Option.eq_none_iff_forall_ne_some.2 fun _ hi => h (mem_assignedOpcodes_of_commandOfOpcode hi)
  simp only [decode, hnone]

/-- At an assigned opcode the decoder tests the other two conditions (30_encoding.md R55). -/
theorem decode_of_assigned {c : U32} (h : opcodeField c ∈ assignedOpcodes) :
    ∃ i, commandOfOpcode (opcodeField c) (modifierField c) = some i ∧
      decode c = if reservedField c = 0#23 ∧ (modifierField c = false ∨ i.takesM = true) then .ok i
        else .error .reservedBits := by
  obtain ⟨i, hi⟩ := exists_commandOfOpcode (modifierField c) h
  exact ⟨i, hi, by simp only [decode, hi]⟩

/-- A word that meets the three conditions decodes (30_encoding.md R54). -/
theorem exists_decode_of_legalWord {c : U32} (h : legalWord c = true) : ∃ i, decode c = .ok i := by
  obtain ⟨hopc, hres, hmod⟩ := legalWord_iff.1 h
  obtain ⟨i, hi, hdec⟩ := decode_of_assigned hopc
  have hfield : reservedField c = 0#23 := by rw [reservedField_eq, hres]; rfl
  have htakes : modifierField c = false ∨ i.takesM = true :=
    hmod.imp_right fun hm => takesM_of_commandOfOpcode hm hi
  exact ⟨i, by rw [hdec, if_pos ⟨hfield, htakes⟩]⟩

/-- A word that decodes meets the three conditions (30_encoding.md R54). -/
theorem legalWord_of_decode {c : U32} {i : Instr} (h : decode c = .ok i) : legalWord c = true :=
  decode_eq_ok_iff.1 h ▸ legalWord_encode i

/-- An assigned opcode in a word that is not legal is a fault of its other bits (30_encoding.md
R55). -/
theorem decode_of_reserved {c : U32} (h : opcodeField c ∈ assignedOpcodes)
    (hbad : legalWord c ≠ true) : decode c = .error .reservedBits := by
  obtain ⟨i, -, hdec⟩ := decode_of_assigned h
  split at hdec
  · exact absurd (legalWord_of_decode hdec) hbad
  · exact hdec

/-! #### An illegal word at the machine -/

/-- A rejected word fails with the STATUS of its site and is left in CMD (10_state.md R14, R20;
30_encoding.md R55). -/
theorem step_of_decode_error {s : State} {v : U256} {rest : List Event} {why : Illegal}
    (hp : s.pending = .regWrite 0x00 v :: rest) (h : decode (v.setWidth 32) = .error why) :
    step s = .next (faulted { s with pending := rest, cmd := v.setWidth 32 }
      (statusFault (siteOfIllegal why))) := by
  rw [step_cons hp, perform, registerWrite_cmd, low32, runCommand, h]
  rfl

end Sys2Proof.Machine

/-! ### The obligations of 30_encoding.md -/

namespace Sys2Proof.Machine

open Sys2Proof.Safety

/-- Settles O1: the decoder inverts the encoder, and a word that decodes is rebuilt from its
fields. -/
theorem decodeIffEncode : Obligations.DecodeIffEncode := fun _ _ => decode_eq_ok_iff

/-- Settles O2: a word that decodes is an encoding, hence in the list; a word of the list meets R54;
and a word that meets R54 decodes. -/
theorem legalWordsAre28 : Obligations.LegalWordsAre28 := by
  refine ⟨rfl, by decide, fun c => ⟨⟨?_, fun h => ?_⟩, fun h => ?_, legalWord_of_mem⟩⟩
  · rintro ⟨i, hi⟩
    exact decode_eq_ok_iff.1 hi ▸ encode_mem_legalWords i
  · exact exists_decode_of_legalWord (legalWord_of_mem h)
  · obtain ⟨i, hi⟩ := exists_decode_of_legalWord h
    exact decode_eq_ok_iff.1 hi ▸ encode_mem_legalWords i

/-- Settles O3: the decoder's answer names the condition of R54 that fails, and its site is R55's. -/
theorem illegalWordFails : Obligations.IllegalWordFails := by
  intro s v rest hp c u
  refine ⟨fun hopc => step_of_decode_error hp (decode_of_unassigned hopc), fun hopc hbad => ?_⟩
  have hillegal : legalWord c ≠ true := fun hlegal => by
    obtain ⟨-, hres, hmod⟩ := legalWord_iff.1 hlegal
    obtain hbad | ⟨hbit, hno⟩ := hbad
    · exact hbad hres
    · exact hmod.elim (fun hclear => Bool.false_ne_true (hclear.symm.trans hbit)) hno
  exact step_of_decode_error hp (decode_of_reserved hopc hillegal)

end Sys2Proof.Machine
end

section
/-! ### The bit scanner, MSB and LSB

What a command that leaves the word port alone does with its outcome, and the outcomes of the two
scans (41_bit_scan.md R90, R91). -/

namespace Sys2Proof.Machine

open Sys2Proof.Safety

/-! #### The end of a command, as the state the obligations name -/

/-- A success without a buffered word write is the completed state (10_state.md R20). -/
theorem succeed_eq_completed (s : State) {out : Success} (h : out.store = none) :
    s.succeed out = completed s out.res0 out.res1 out.res2 out.res3 := by
  simp only [State.succeed, completed, h, performStore, statusOk_eq]

/-- Taking a fault gives the faulted state of its STATUS (60_exceptions.md R196). -/
theorem fail_eq_faulted (s : State) (site : Site) :
    s.fail site = faulted s (statusFault site) := rfl

/-- A command with one result that leaves the word port alone completes with it in RES0
(30_encoding.md R56). -/
theorem exec_eq_completed_of_oneResult {i : Instr} {s : State} {v : U256}
    (hport : readsPort i s = false) (hout : commandOutcome i s = .ok (oneResult v)) :
    exec i s = .next (completed s v 0#256 0#256 0#256) := by
  rw [exec_eq_ends, hport, hout, ends_ok]
  exact congrArg _ (succeed_eq_completed s rfl)

/-- A command that fails without a read of the word port faults at its site. -/
theorem exec_eq_faulted_of_error {i : Instr} {s : State} {site : Site}
    (hport : readsPort i s = false) (hout : commandOutcome i s = .error site) :
    exec i s = .next (faulted s (statusFault site)) := by
  rw [exec_eq_ends, hport, hout, ends_error]
  exact congrArg _ (fail_eq_faulted s site)

/-! #### What the two scans answer -/

/-- A bit index fits the U8 that carries it to RES0 (41_bit_scan.md R90, R91). -/
theorem zext8_ofNat {n : Nat} (h : n < 256) : zext8 (BitVec.ofNat 8 n) = BitVec.ofNat 256 n :=
  BitVec.setWidth_ofNat_of_le_of_lt (by decide) h

theorem msbOf_zero : msbOf 0#256 = .error .msbOfZero := rfl

theorem lsbOf_zero : lsbOf 0#256 = .error .lsbOfZero := rfl

theorem msbOf_of_ne_zero {x : U256} (h : x ≠ 0#256) :
    msbOf x = .ok (BitVec.ofNat 8 (highestBit x)) := if_neg h

theorem lsbOf_of_ne_zero {x : U256} (h : x ≠ 0#256) :
    lsbOf x = .ok (BitVec.ofNat 8 (lowestBit x)) := if_neg h

/-- MSB's one result is the index of the highest set bit (41_bit_scan.md R90). -/
theorem commandOutcome_msb_of_ne_zero {s : State} (h : s.arg0 ≠ 0#256) :
    commandOutcome .msb s = .ok (oneResult (BitVec.ofNat 256 (highestBit s.arg0))) := by
  obtain ⟨hlt, -, -⟩ := highestBit_spec h
  rw [commandOutcome, msbOf_of_ne_zero h, cmd_map_ok, zext8_ofNat hlt]

/-- LSB's one result is the index of the lowest set bit (41_bit_scan.md R91). -/
theorem commandOutcome_lsb_of_ne_zero {s : State} (h : s.arg0 ≠ 0#256) :
    commandOutcome .lsb s = .ok (oneResult (BitVec.ofNat 256 (lowestBit s.arg0))) := by
  obtain ⟨hlt, -, -⟩ := lowestBit_spec h
  rw [commandOutcome, lsbOf_of_ne_zero h, cmd_map_ok, zext8_ofNat hlt]

/-- MSB of 0 fails at SITE `0x01` (41_bit_scan.md R90). -/
theorem commandOutcome_msb_of_zero {s : State} (h : s.arg0 = 0#256) :
    commandOutcome .msb s = .error .msbOfZero := by
  rw [commandOutcome, h, msbOf_zero, cmd_map_error]

/-- LSB of 0 fails at SITE `0x02` (41_bit_scan.md R91). -/
theorem commandOutcome_lsb_of_zero {s : State} (h : s.arg0 = 0#256) :
    commandOutcome .lsb s = .error .lsbOfZero := by
  rw [commandOutcome, h, lsbOf_zero, cmd_map_error]

end Sys2Proof.Machine

/-! ### The obligations of 41_bit_scan.md -/

namespace Sys2Proof.Machine

open Sys2Proof.Safety

/-- Settles O21: the index is `highestBit`, the scan's own answer, and 0 is its one fault. -/
theorem msbHighestSetBit : Obligations.MsbHighestSetBit := by
  refine fun s => ⟨fun hne => ?_, fun hzero => ?_⟩
  · obtain ⟨hlt, hset, habove⟩ := highestBit_spec hne
    exact ⟨highestBit s.arg0, Nat.le_of_lt_succ hlt, hset, habove,
      exec_eq_completed_of_oneResult rfl (commandOutcome_msb_of_ne_zero hne)⟩
  · exact exec_eq_faulted_of_error rfl (commandOutcome_msb_of_zero hzero)

/-- Settles O22: the index is `lowestBit`, the scan's own answer, and 0 is its one fault. -/
theorem lsbLowestSetBit : Obligations.LsbLowestSetBit := by
  refine fun s => ⟨fun hne => ?_, fun hzero => ?_⟩
  · obtain ⟨hlt, hset, hbelow⟩ := lowestBit_spec hne
    exact ⟨lowestBit s.arg0, Nat.le_of_lt_succ hlt, hset, hbelow,
      exec_eq_completed_of_oneResult rfl (commandOutcome_lsb_of_ne_zero hne)⟩
  · exact exec_eq_faulted_of_error rfl (commandOutcome_lsb_of_zero hzero)

end Sys2Proof.Machine
end

section
/-! ### The ceiling division, DIVRU

The rounded quotient as the pattern of the exact ceiling, and the two outcomes of DIVRU
(42_unsafe_math.md R100, R101). -/

namespace Sys2Proof.Machine

open Sys2Proof.Safety

/-- The quotient with its increment is the pattern of the exact ceiling (42_unsafe_math.md R100). -/
theorem ceilDiv_eq_ofNat {a b : U256} (hb : b.toNat ≠ 0) :
    ceilDiv a b = BitVec.ofNat 256 (ceilQ a.toNat b.toNat) := by
  rw [← ceilDiv_toNat hb, BitVec.ofNat_toNat, BitVec.setWidth_eq]

/-- DIVRU's one result is the exact ceiling (42_unsafe_math.md R100). -/
theorem commandOutcome_divru_of_ne_zero {s : State} (hb : s.arg1.toNat ≠ 0) :
    commandOutcome .divru s =
      .ok (oneResult (BitVec.ofNat 256 (ceilQ s.arg0.toNat s.arg1.toNat))) := by
  rw [commandOutcome, divRoundingUp_eq, if_neg hb, cmd_map_ok, ceilDiv_eq_ofNat hb]

/-- DIVRU by 0 fails at SITE `0x03` (42_unsafe_math.md R101). -/
theorem commandOutcome_divru_of_zero {s : State} (hb : s.arg1.toNat = 0) :
    commandOutcome .divru s = .error .divruByZero := by
  rw [commandOutcome, divRoundingUp_eq, if_pos hb, cmd_map_error]

end Sys2Proof.Machine

/-! ### The obligation of 42_unsafe_math.md -/

namespace Sys2Proof.Machine

open Sys2Proof.Safety

/-- Settles O23: the increment never wraps, so the rounded quotient is `ceilQ` itself
(`ceilDiv_toNat`), and a zero divisor is the one fault. -/
theorem divruExactCeiling : Obligations.DivruExactCeiling := fun _ =>
  ⟨fun hne => exec_eq_completed_of_oneResult rfl (commandOutcome_divru_of_ne_zero hne),
    fun hzero => exec_eq_faulted_of_error rfl (commandOutcome_divru_of_zero hzero)⟩

end Sys2Proof.Machine
end

section
/-! ### Full multiplication and division: MULMOD, MULDIV, MULDIVRU

The contracts over natural numbers as the outcomes of the three commands (43_full_math.md R105, R106,
R108). -/

namespace Sys2Proof.Machine

open Sys2Proof.Safety

/-! #### MULMOD -/

theorem mulMod_of_zero {a b m : U256} (hm : m.toNat = 0) : mulMod a b m = .error .mulmodByZero :=
  if_pos ((toNat_eq_zero_iff m).1 hm)

/-- The remainder is that of the product over unbounded integers (43_full_math.md R105). -/
theorem mulMod_of_ne_zero {a b m : U256} (hm : m.toNat ≠ 0) :
    mulMod a b m = .ok (BitVec.ofNat 256 (a.toNat * b.toNat % m.toNat)) :=
  if_neg (mt (toNat_eq_zero_iff m).2 hm)

theorem commandOutcome_mulmod_of_zero {s : State} (hm : s.arg2.toNat = 0) :
    commandOutcome .mulmod s = .error .mulmodByZero := by
  rw [commandOutcome, mulMod_of_zero hm, cmd_map_error]

theorem commandOutcome_mulmod_of_ne_zero {s : State} (hm : s.arg2.toNat ≠ 0) :
    commandOutcome .mulmod s =
      .ok (oneResult (BitVec.ofNat 256 (s.arg0.toNat * s.arg1.toNat % s.arg2.toNat))) := by
  rw [commandOutcome, mulMod_of_ne_zero hm, cmd_map_ok]

/-! #### MULDIV: its answer and its three faults, in the clauses of R106 -/

section
variable {a b d : U256}

theorem mulDiv_of_fits (hd : d.toNat ≠ 0) (hfit : a.toNat * b.toNat / d.toNat < 2 ^ 256) :
    mulDiv a b d = .ok (BitVec.ofNat 256 (a.toNat * b.toNat / d.toNat)) :=
  mulDiv_eq_ok_iff.2 ⟨hd, toNat_ofNat_of_lt hfit⟩

theorem mulDiv_of_overflow (hd : d.toNat ≠ 0) (hbig : 2 ^ 256 ≤ a.toNat * b.toNat / d.toNat) :
    mulDiv a b d = .error .muldivOverflow :=
  mulDiv_eq_error_iff.2 (.inr (.inr ⟨rfl, hd, hbig⟩))

/-- A zero divisor is reported as such while the product fits (43_full_math.md R106). -/
theorem mulDiv_of_zero_of_fits (hd : d.toNat = 0) (hfit : a.toNat * b.toNat < 2 ^ 256) :
    mulDiv a b d = .error .muldivByZero :=
  mulDiv_eq_error_iff.2 (.inl ⟨rfl, hd, hfit⟩)

/-- A zero divisor under a product that does not fit is an overflow (90_conflicts.md C3). -/
theorem mulDiv_of_zero_of_overflow (hd : d.toNat = 0) (hbig : 2 ^ 256 ≤ a.toNat * b.toNat) :
    mulDiv a b d = .error .muldivOverflow :=
  mulDiv_eq_error_iff.2 (.inr (.inl ⟨rfl, hd, hbig⟩))

end

theorem commandOutcome_muldiv_of_ok {s : State} {q : U256}
    (h : mulDiv s.arg0 s.arg1 s.arg2 = .ok q) : commandOutcome .muldiv s = .ok (oneResult q) := by
  rw [commandOutcome, h, cmd_map_ok]

theorem commandOutcome_muldiv_of_error {s : State} {site : Site}
    (h : mulDiv s.arg0 s.arg1 s.arg2 = .error site) : commandOutcome .muldiv s = .error site := by
  rw [commandOutcome, h, cmd_map_error]

/-! #### MULDIVRU: the floor's faults, and one of its own -/

section
variable {a b d : U256}

theorem mulDivRoundingUp_of_fits (hd : d.toNat ≠ 0)
    (hfit : ceilQ (a.toNat * b.toNat) d.toNat < 2 ^ 256) :
    mulDivRoundingUp a b d = .ok (BitVec.ofNat 256 (ceilQ (a.toNat * b.toNat) d.toNat)) :=
  mulDivRoundingUp_eq_ok_iff.2 ⟨hd, toNat_ofNat_of_lt hfit⟩

/-- MULDIVRU fails where MULDIV does, at its site (43_full_math.md R108). -/
theorem mulDivRoundingUp_of_error {site : Site} (h : mulDiv a b d = .error site) :
    mulDivRoundingUp a b d = .error site :=
  mulDivRoundingUp_eq_error_iff.2 (.inl h)

/-- A floor that fits under a ceiling that does not is the greatest word, with a remainder
(43_full_math.md R108). -/
theorem floor_of_ceilQ_overflow {p q : Nat} (hq : 0 < q) (hfloor : p / q < 2 ^ 256)
    (hceil : 2 ^ 256 ≤ ceilQ p q) : p / q = 2 ^ 256 - 1 ∧ p % q ≠ 0 := by
  rw [ceilQ_eq p q hq] at hceil
  split at hceil
  · exact absurd hfloor (Nat.not_lt.2 hceil)
  · exact ⟨Nat.le_antisymm (Nat.le_pred_of_lt hfloor) (Nat.sub_le_of_le_add hceil), ‹_›⟩

theorem mulDivRoundingUp_of_ceil_overflow (hd : d.toNat ≠ 0)
    (hfloor : a.toNat * b.toNat / d.toNat < 2 ^ 256)
    (hceil : 2 ^ 256 ≤ ceilQ (a.toNat * b.toNat) d.toNat) :
    mulDivRoundingUp a b d = .error .muldivruIncrement :=
  mulDivRoundingUp_eq_error_iff.2
    (.inr ⟨rfl, hd, floor_of_ceilQ_overflow (Nat.pos_of_ne_zero hd) hfloor hceil⟩)

end

theorem commandOutcome_muldivru_of_ok {s : State} {q : U256}
    (h : mulDivRoundingUp s.arg0 s.arg1 s.arg2 = .ok q) :
    commandOutcome .muldivru s = .ok (oneResult q) := by
  rw [commandOutcome, h, cmd_map_ok]

theorem commandOutcome_muldivru_of_error {s : State} {site : Site}
    (h : mulDivRoundingUp s.arg0 s.arg1 s.arg2 = .error site) :
    commandOutcome .muldivru s = .error site := by
  rw [commandOutcome, h, cmd_map_error]

end Sys2Proof.Machine

/-! ### The obligations of 43_full_math.md on the three commands -/

namespace Sys2Proof.Machine

open Sys2Proof.Safety

/-- Settles O24: the product is taken over the natural numbers, and a zero modulus is the one
fault. -/
theorem mulmodExactRemainder : Obligations.MulmodExactRemainder := fun _ =>
  ⟨fun hne => exec_eq_completed_of_oneResult rfl (commandOutcome_mulmod_of_ne_zero hne),
    fun hzero => exec_eq_faulted_of_error rfl (commandOutcome_mulmod_of_zero hzero)⟩

/-- Settles O25: by the clauses of `mulDiv`, whose test `prod1 < d` says that the quotient fits. -/
theorem muldivExactFloor : Obligations.MuldivExactFloor := by
  refine fun s => ⟨fun hd hfit => ?_, fun hd hbig => ?_, fun hd hfit => ?_, fun hd hbig => ?_⟩
  · exact exec_eq_completed_of_oneResult rfl
      (commandOutcome_muldiv_of_ok (mulDiv_of_fits hd hfit))
  · exact exec_eq_faulted_of_error rfl
      (commandOutcome_muldiv_of_error (mulDiv_of_overflow hd hbig))
  · exact exec_eq_faulted_of_error rfl
      (commandOutcome_muldiv_of_error (mulDiv_of_zero_of_fits hd hfit))
  · exact exec_eq_faulted_of_error rfl
      (commandOutcome_muldiv_of_error (mulDiv_of_zero_of_overflow hd hbig))

/-- Settles O26: MULDIV's faults come first; past them only the increment of the greatest word can
fail. -/
theorem muldivruExactCeiling : Obligations.MuldivruExactCeiling := by
  refine fun s => ⟨fun hd hfit => ?_, fun hd hfloor hceil => ?_, fun hd hbig => ?_,
    fun hd hfit => ?_, fun hd hbig => ?_⟩
  · exact exec_eq_completed_of_oneResult rfl
      (commandOutcome_muldivru_of_ok (mulDivRoundingUp_of_fits hd hfit))
  · exact exec_eq_faulted_of_error rfl
      (commandOutcome_muldivru_of_error (mulDivRoundingUp_of_ceil_overflow hd hfloor hceil))
  · exact exec_eq_faulted_of_error rfl
      (commandOutcome_muldivru_of_error (mulDivRoundingUp_of_error (mulDiv_of_overflow hd hbig)))
  · exact exec_eq_faulted_of_error rfl
      (commandOutcome_muldivru_of_error
        (mulDivRoundingUp_of_error (mulDiv_of_zero_of_fits hd hfit)))
  · exact exec_eq_faulted_of_error rfl
      (commandOutcome_muldivru_of_error
        (mulDivRoundingUp_of_error (mulDiv_of_zero_of_overflow hd hbig)))

end Sys2Proof.Machine
end

section
/-! ### The seven-step procedure of MULDIV

The procedure of 43_full_math.md R107 step by step, each step as a statement about the natural
numbers behind its words, and the exact quotient they compute together. -/

namespace Sys2Proof.Machine

/-! #### Step 1: the high limb -/

/-- The product is its two limbs (43_full_math.md R106). -/
theorem highLimb_mul_add_mod (a b : U256) :
    2 ^ 256 * highLimb a b + trueProduct a b % 2 ^ 256 = trueProduct a b :=
  Nat.div_add_mod _ _

theorem mulW_toNat (a b : U256) : (mulW a b).toNat = trueProduct a b % 2 ^ 256 :=
  BitVec.toNat_mul a b

theorem productMod_toNat (a b : U256) {m : U256} (hm : m.toNat ≠ 0) :
    (productMod a b m).toNat = trueProduct a b % m.toNat :=
  toNat_ofNat_of_lt (Nat.lt_trans (Nat.mod_lt _ (Nat.pos_of_ne_zero hm)) m.isLt)

theorem borrow_toNat (c : Bool) : (borrow c).toNat = if c then 1 else 0 := by
  cases c <;> rfl

/-- The high limb of a product of two words is at most `2^256 - 2`. -/
theorem highLimb_le (a b : U256) : highLimb a b ≤ 2 ^ 256 - 2 := by
  have hsquare : trueProduct a b ≤ (2 ^ 256 - 1) * (2 ^ 256 - 1) :=
    Nat.mul_le_mul (Nat.le_pred_of_lt a.isLt) (Nat.le_pred_of_lt b.isLt)
  unfold highLimb
  omega

/-- The product modulo `2^256 - 1` is the sum of its limbs, up to one wrap: the Chinese-remainder
reconstruction gives the true high limb (43_full_math.md R107, step 1). -/
theorem reconstructHighLimb_toNat (a b : U256) :
    (reconstructHighLimb a b).toNat = highLimb a b := by
  have hmod := productMod_toNat a b (m := maxU256) (by decide)
  have hlow := mulW_toNat a b
  have hsum := highLimb_mul_add_mod a b
  have hhigh := highLimb_le a b
  rw [show maxU256.toNat = 2 ^ 256 - 1 from rfl] at hmod
  simp only [reconstructHighLimb, BitVec.toNat_sub, borrow_toNat, BitVec.lt_def, decide_eq_true_eq]
  generalize highLimb a b = h at *
  generalize trueProduct a b = p at *
  have hwraps : p / (2 ^ 256 - 1) = h ∨ p / (2 ^ 256 - 1) = h + 1 := by omega
  split <;> omega

/-! #### Step 4: the division made exact -/

/-- The borrow carries the subtraction of one word from the low limb into the high limb, so the pair
loses exactly the remainder (43_full_math.md R107, step 4). -/
theorem limbs_sub_remainder {p : Nat} {high low r : U256}
    (hp : 2 ^ 256 * high.toNat + low.toNat = p) (hr : r.toNat ≤ p) :
    2 ^ 256 * (subW high (borrow (decide (low < r)))).toNat + (subW low r).toNat =
      p - r.toNat := by
  simp only [BitVec.toNat_sub, borrow_toNat, BitVec.lt_def, decide_eq_true_eq]
  split <;> omega

/-! #### Step 5: the powers of two of the divisor -/

/-- `d & -d` keeps the lowest set bit of `d` and no other (43_full_math.md R107, step 5). -/
theorem lowestPower_eq_twoPow {d : U256} (hd : d ≠ 0#256) :
    lowestPower d = BitVec.twoPow 256 (lowestBit d) := by
  obtain ⟨hlt, hset, hbelow⟩ := lowestBit_spec hd
  refine BitVec.eq_of_getLsbD_eq fun i hi => ?_
  rw [lowestPower, BitVec.getLsbD_and, BitVec.getLsbD_neg, BitVec.getLsbD_twoPow]
  rcases Nat.lt_trichotomy i (lowestBit d) with h | rfl | h
  · simp [hbelow i h, Nat.ne_of_gt h]
  · have hnone : ¬ ∃ j < lowestBit d, d.getLsbD j = true := fun ⟨j, hj, ht⟩ => by
      simp [hbelow j hj] at ht
    simp [hset, hnone, hlt]
  · have hsome : ∃ j < i, d.getLsbD j = true := ⟨lowestBit d, h, hset⟩
    simp [hsome, hi, Nat.ne_of_lt h]

theorem lowestPower_toNat {d : U256} (hd : d ≠ 0#256) :
    (lowestPower d).toNat = 2 ^ lowestBit d := by
  rw [lowestPower_eq_twoPow hd, BitVec.toNat_twoPow,
    Nat.mod_eq_of_lt (Nat.pow_lt_pow_right (by decide) (lowestBit_spec hd).1)]

theorem two_pow_lowestBit_dvd {d : U256} (hd : d ≠ 0#256) : 2 ^ lowestBit d ∣ d.toNat := by
  obtain ⟨-, -, hbelow⟩ := lowestBit_spec hd
  refine Nat.dvd_of_mod_eq_zero (Nat.eq_of_testBit_eq fun j => ?_)
  rw [Nat.testBit_mod_two_pow, Nat.zero_testBit]
  by_cases hj : j < lowestBit d
  · rw [decide_eq_true hj, Bool.true_and]
    exact hbelow j hj
  · rw [decide_eq_false hj, Bool.false_and]

/-- The odd part of a divisor, as step 5 leaves it (43_full_math.md R107). -/
def oddPart (d : U256) : U256 := divW d (lowestPower d)

theorem two_pow_mul_oddPart {d : U256} (hd : d ≠ 0#256) :
    2 ^ lowestBit d * (oddPart d).toNat = d.toNat := by
  rw [oddPart, BitVec.toNat_udiv, lowestPower_toNat hd,
    Nat.mul_div_cancel' (two_pow_lowestBit_dvd hd)]

theorem oddPart_odd {d : U256} (hd : d ≠ 0#256) : (oddPart d).getLsbD 0 = true := by
  obtain ⟨-, hset, -⟩ := lowestBit_spec hd
  rw [BitVec.getLsbD, oddPart, BitVec.toNat_udiv, lowestPower_toNat hd, Nat.testBit_div_two_pow,
    Nat.zero_add]
  exact hset

theorem two_pow_256_eq_mul {k : Nat} (hk : k ≤ 256) : 2 ^ 256 = 2 ^ k * 2 ^ (256 - k) := by
  rw [← Nat.pow_add, Nat.add_sub_cancel' hk]

/-- `2^256 / twos` modulo `2^256`, 0 for `twos = 1` (43_full_math.md R107, step 5;
90_conflicts.md C1). -/
theorem flipPower_eq {twos : U256} {k : Nat} (hk : k < 256) (htwos : twos.toNat = 2 ^ k) :
    flipPower twos = BitVec.ofNat 256 (2 ^ (256 - k)) := by
  have hsplit := two_pow_256_eq_mul hk.le
  have hpos : 0 < 2 ^ k := Nat.two_pow_pos k
  have hneg : (negW twos).toNat = 2 ^ 256 - 2 ^ k := by
    rw [BitVec.toNat_neg, htwos, Nat.mod_eq_of_lt (Nat.sub_lt (by decide) hpos)]
  refine BitVec.eq_of_toNat_eq ?_
  rw [flipPower, BitVec.toNat_add, BitVec.toNat_udiv, hneg, htwos, hsplit, BitVec.toNat_ofNat,
    ← Nat.mul_sub_one, Nat.mul_div_cancel_left _ hpos, ← hsplit]
  exact congrArg (· % 2 ^ 256) (Nat.sub_add_cancel (Nat.two_pow_pos _))

/-- The joined word of step 5 is the pair of limbs divided by `twos`: the shifted low limb lies
below every bit of the shifted high limb (43_full_math.md R107, step 5). -/
theorem joinLimbs_eq {high low twos : U256} {k n : Nat} (hk : k < 256) (htwos : twos.toNat = 2 ^ k)
    (hlimbs : 2 ^ 256 * high.toNat + low.toNat = 2 ^ k * n) :
    orW (divW low twos) (mulW high (flipPower twos)) = BitVec.ofNat 256 n := by
  have hsplit := two_pow_256_eq_mul hk.le
  have hpos : 0 < 2 ^ k := Nat.two_pow_pos k
  have hlow : low.toNat / 2 ^ k < 2 ^ (256 - k) := by
    rw [Nat.div_lt_iff_lt_mul hpos, Nat.mul_comm, ← hsplit]
    exact low.isLt
  have hn : 2 ^ (256 - k) * high.toNat + low.toNat / 2 ^ k = n := by
    have h := congrArg (· / 2 ^ k) hlimbs
    simp only [hsplit, Nat.mul_assoc, Nat.mul_add_div hpos, Nat.mul_div_cancel_left _ hpos] at h
    exact h
  have hwrap : 2 ^ (256 - k) * high.toNat % 2 ^ 256 = 2 ^ (256 - k) * (high.toNat % 2 ^ k) := by
    rw [hsplit, Nat.mul_comm (2 ^ k), Nat.mul_mod_mul_left]
  have hhigh : (mulW high (flipPower twos)).toNat = 2 ^ (256 - k) * (high.toNat % 2 ^ k) := by
    rw [flipPower_eq hk htwos, BitVec.toNat_mul, BitVec.toNat_ofNat, Nat.mul_mod_mod, Nat.mul_comm,
      hwrap]
  have hjoin : (orW (divW low twos) (mulW high (flipPower twos))).toNat =
      2 ^ (256 - k) * (high.toNat % 2 ^ k) + low.toNat / 2 ^ k := by
    rw [BitVec.toNat_or, BitVec.toNat_udiv, htwos, hhigh, Nat.or_comm,
      Nat.two_pow_add_eq_or_of_lt hlow]
  refine BitVec.eq_of_toNat_eq ?_
  rw [BitVec.toNat_ofNat, ← hn, ← Nat.mod_add_mod, hwrap, ← hjoin,
    Nat.mod_eq_of_lt (BitVec.isLt _)]

/-! #### Step 6: the inverse of an odd word -/

/-- One Newton step squares the error of the inverse (43_full_math.md R107, step 6). -/
theorem refineInverse_error (d inv : U256) :
    1 - d * refineInverse d inv = (1 - d * inv) ^ 2 := by
  change 1 - d * (inv * (2 - d * inv)) = _
  ring

/-- On the low four bits the exclusive or of `3 * d` and 2 inverts every odd `d`. -/
theorem nibble_seed : ∀ d : BitVec 4, d.getLsbD 0 = true → d * (3#4 * d ^^^ 2#4) = 1#4 := by
  decide

/-- The seed is the inverse modulo `2^4` (43_full_math.md R107, step 6). -/
theorem oddInverse_seed_error {d : U256} (hodd : d.getLsbD 0 = true) :
    ∃ c : U256, 1 - d * xorW (mulW 3#256 d) 2#256 = 16 * c := by
  generalize hx : d * xorW (mulW 3#256 d) 2#256 = x
  have hnibble : x.setWidth 4 = 1#4 := by
    rw [← hx, BitVec.setWidth_mul _ _ (by decide), BitVec.setWidth_xor,
      BitVec.setWidth_mul _ _ (by decide)]
    exact nibble_seed (d.setWidth 4) (by simpa using hodd)
  have hmod : x.toNat % 16 = 1 := by
    simpa using congrArg BitVec.toNat hnibble
  obtain ⟨t, ht⟩ : ∃ t : U256, x = 16 * t + 1 := by
    have hsum := congrArg (BitVec.ofNat 256) (Nat.div_add_mod x.toNat 16)
    rw [hmod, BitVec.ofNat_add, BitVec.ofNat_mul, BitVec.ofNat_toNat, BitVec.setWidth_eq] at hsum
    exact ⟨_, hsum.symm⟩
  exact ⟨-t, by rw [ht]; ring⟩

theorem sixteen_pow_64 : (16 : U256) ^ 64 = 0 :=
  BitVec.eq_of_toNat_eq (by rw [BitVec.toNat_pow]; rfl)

/-- Six Newton steps raise the seed's error to the 64th power, and `16^64 = 2^256` is 0
(43_full_math.md R107, step 6). -/
theorem mulW_oddInverse {d : U256} (hodd : d.getLsbD 0 = true) : mulW d (oddInverse d) = 1 := by
  obtain ⟨c, hc⟩ := oddInverse_seed_error hodd
  have herror : 1 - d * oddInverse d = 0 := by
    simp only [oddInverse, refineInverse_error, hc, ← pow_mul, mul_pow]
    exact mul_eq_zero_of_left sixteen_pow_64 _
  exact (sub_eq_zero.1 herror).symm

/-! #### Step 7: the exact quotient -/

/-- Steps 4 to 7 on the limbs of the product give the exact quotient modulo `2^256`
(43_full_math.md R107). -/
theorem exactQuotient_eq {a b d prod1 prod0 : U256} (hd : d ≠ 0#256)
    (hlimbs : 2 ^ 256 * prod1.toNat + prod0.toNat = trueProduct a b) :
    exactQuotient a b d prod1 prod0 = BitVec.ofNat 256 (trueProduct a b / d.toNat) := by
  obtain ⟨hk, -, -⟩ := lowestBit_spec hd
  have hr : (productMod a b d).toNat = trueProduct a b % d.toNat :=
    productMod_toNat a b (mt (toNat_eq_zero_iff d).1 hd)
  have hexact := limbs_sub_remainder hlimbs (hr ▸ Nat.mod_le _ _)
  have hmultiple : trueProduct a b - (productMod a b d).toNat =
      2 ^ lowestBit d * ((oddPart d).toNat * (trueProduct a b / d.toNat)) := by
    rw [hr, ← Nat.mul_assoc, two_pow_mul_oddPart hd, Nat.sub_eq_of_eq_add]
    exact (Nat.div_add_mod _ _).symm
  have hjoined := joinLimbs_eq hk (lowestPower_toNat hd) (hexact.trans hmultiple)
  have hinverse := mulW_oddInverse (oddPart_odd hd)
  calc exactQuotient a b d prod1 prod0
      = mulW (BitVec.ofNat 256 ((oddPart d).toNat * (trueProduct a b / d.toNat)))
          (oddInverse (oddPart d)) := congrArg (mulW · (oddInverse (oddPart d))) hjoined
    _ = mulW (oddPart d) (oddInverse (oddPart d)) *
          BitVec.ofNat 256 (trueProduct a b / d.toNat) := by
        rw [BitVec.ofNat_mul, BitVec.ofNat_toNat, BitVec.setWidth_eq, mul_right_comm]
    _ = BitVec.ofNat 256 (trueProduct a b / d.toNat) := by rw [hinverse, one_mul]

/-! #### The procedure and the contract -/

/-- Where the product fits, its low limb is all of it (43_full_math.md R107, step 2). -/
theorem divW_mulW_of_highLimb_eq_zero {a b d : U256} (h : highLimb a b = 0) :
    divW (mulW a b) d = BitVec.ofNat 256 (trueProduct a b / d.toNat) := by
  have hfit : trueProduct a b < 2 ^ 256 := (highLimb_eq_zero_iff a b).1 h
  refine BitVec.eq_of_toNat_eq ?_
  rw [BitVec.toNat_udiv, mulW_toNat, Nat.mod_eq_of_lt hfit,
    toNat_ofNat_of_lt (Nat.lt_of_le_of_lt (Nat.div_le_self _ _) hfit)]

/-- Past the test of step 3 the divisor is not 0. -/
theorem ne_zero_of_not_le {d e : U256} (h : ¬ d ≤ e) : d ≠ 0#256 := by
  rintro rfl
  exact h (Nat.zero_le _)

end Sys2Proof.Machine

/-! ### The obligation of 43_full_math.md on the procedure -/

namespace Sys2Proof.Machine

/-- Settles O27: the reconstructed high limb decides steps 2 and 3 as the true one does, and past
them both sides are the exact quotient. -/
theorem mulDivProcedureMeetsContract : Obligations.MulDivProcedureMeetsContract := by
  intro a b d
  have hhigh := reconstructHighLimb_toNat a b
  have hzero : reconstructHighLimb a b = 0#256 ↔ highLimb a b = 0 := by
    rw [← hhigh, toNat_eq_zero_iff]
  have hle : d ≤ reconstructHighLimb a b ↔ d.toNat ≤ highLimb a b := by
    rw [← hhigh, BitVec.le_def]
  have hlimbs : 2 ^ 256 * (reconstructHighLimb a b).toNat + (mulW a b).toNat = trueProduct a b := by
    rw [hhigh, mulW_toNat, highLimb_mul_add_mod]
  unfold mulDivProcedure mulDiv
  simp only [hzero, hle]
  split
  · rw [divW_mulW_of_highLimb_eq_zero ‹_›]
  · split
    · rfl
    · rw [exactQuotient_eq (ne_zero_of_not_le (mt hle.1 ‹_›)) hlimbs]

end Sys2Proof.Machine
end

section
/-! ### Tick math: TICK2SQRT and SQRT2TICK

The forward price over natural numbers, that it rises with the tick, and what the search of SQRT2TICK
finds because it does (44_tick_math.md R121 to R127). -/

namespace Sys2Proof.Machine

open Sys2Proof.Safety

/-! #### The ratio, one bit of the magnitude at a time -/

theorem forwardRatio_succ (abs i : Nat) (ks : List Nat) (ratio : Nat) :
    forwardRatio abs (i + 1) ks ratio = forwardRatio (abs / 2) i ks ratio := by
  induction ks generalizing i ratio with
  | nil => rfl
  | cons k ks ih => rw [forwardRatio, forwardRatio, ih, Nat.pow_succ', Nat.div_div_eq_div_mul]

theorem forwardRatio_even (m k : Nat) (ks : List Nat) (ratio : Nat) :
    forwardRatio (2 * m) 0 (k :: ks) ratio = forwardRatio m 0 ks ratio := by
  rw [forwardRatio, forwardRatio_succ, if_neg (by omega), Nat.mul_div_cancel_left m Nat.two_pos]

theorem forwardRatio_odd (m k : Nat) (ks : List Nat) (ratio : Nat) :
    forwardRatio (2 * m + 1) 0 (k :: ks) ratio = forwardRatio m 0 ks (ratio * k / 2 ^ 128) := by
  rw [forwardRatio, forwardRatio_succ, if_pos (by omega), show (2 * m + 1) / 2 = m by omega]

/-- `K[0]` to `K[19]` in decimal (44_tick_math.md R121). -/
def ratioTable : List Nat := 340265354078544963557816517032075149313 :: forwardTable

/-- The ratio of the tick `-abs`, taken as one pass over all twenty constants from the ratio 1: the
seed of an odd `abs` is the pass's first step (44_tick_math.md R122). -/
def ratioOf (abs : Nat) : Nat := forwardRatio abs 0 ratioTable (2 ^ 128)

theorem ratioOf_eq_seeded (abs : Nat) :
    ratioOf abs = forwardRatio abs 1 forwardTable
      (if abs % 2 = 1 then 340265354078544963557816517032075149313 else 2 ^ 128) := by
  rw [ratioOf, ratioTable, forwardRatio, Nat.pow_zero, Nat.div_one,
    Nat.mul_div_cancel_left _ (Nat.two_pow_pos 128)]

theorem forwardPrice_eq (tick : Int) :
    forwardPrice tick = ceilQ (if 0 < tick then (2 ^ 256 - 1) / ratioOf tick.natAbs
      else ratioOf tick.natAbs) (2 ^ 32) := by
  rw [ratioOf_eq_seeded, forwardPrice]

theorem forwardPrice_neg (n : Nat) : forwardPrice (-(n : Int)) = ceilQ (ratioOf n) (2 ^ 32) := by
  rw [forwardPrice_eq, if_neg (by omega), Int.natAbs_neg, Int.natAbs_natCast]

/-- The reciprocal's formula holds at tick 0 too, where both round to `2^96`. -/
theorem forwardPrice_natCast (n : Nat) :
    forwardPrice (n : Int) = ceilQ ((2 ^ 256 - 1) / ratioOf n) (2 ^ 32) := by
  cases n with
  | zero => decide
  | succ n => rw [forwardPrice_eq, if_pos (by omega), Int.natAbs_natCast]

/-! #### Neighbouring ratios lie apart -/

/-- `b` is below `a` by one part in `2^15` but for a constant that absorbs what the shifts cut off. -/
def Apart (a b : Nat) : Prop := b ≤ a ∧ (2 ^ 15 + 1) * b ≤ 2 ^ 15 * a + 2 ^ 30

/-- The product takes as much from the constant `2^30` as one shift can add to it, because a factor of
the table is at most `1 - 2^-15`. -/
theorem Apart.scale {a b k : Nat} (h : Apart a b) (hk : k ≤ 2 ^ 128 - 2 ^ 113) :
    Apart (a * k / 2 ^ 128) (b * k / 2 ^ 128) := by
  obtain ⟨hle, hgap⟩ := h
  refine ⟨Nat.div_le_div_right (Nat.mul_le_mul_right k hle), ?_⟩
  have hgapk : (2 ^ 15 + 1) * (b * k) ≤ 2 ^ 15 * (a * k) + 2 ^ 30 * k := by
    simpa only [Nat.add_mul, Nat.mul_assoc] using Nat.mul_le_mul_right k hgap
  omega

theorem Apart.through_forwardRatio {ks : List Nat} (hks : ∀ k ∈ ks, k ≤ 2 ^ 128 - 2 ^ 113) {a b : Nat}
    (h : Apart a b) (abs i : Nat) :
    Apart (forwardRatio abs i ks a) (forwardRatio abs i ks b) := by
  induction ks generalizing i a b with
  | nil => exact h
  | cons k ks ih =>
    obtain ⟨hk, hks⟩ := List.forall_mem_cons.1 hks
    unfold forwardRatio
    split
    · exact ih hks (h.scale hk) (i + 1)
    · exact ih hks h (i + 1)

/-- At every bit where the carry of `n + 1` can end, the constant of that bit lies apart from the
product of those below it: `ratio` is the product so far. -/
def carryApart : List Nat → Nat → Bool
  | [], _ => true
  | k :: ks, ratio =>
    decide ((2 ^ 15 + 1) * k ≤ 2 ^ 15 * ratio) && carryApart ks (ratio * k / 2 ^ 128)

theorem carryApart_cons {k : Nat} {ks : List Nat} {ratio : Nat} :
    carryApart (k :: ks) ratio = true ↔
      (2 ^ 15 + 1) * k ≤ 2 ^ 15 * ratio ∧ carryApart ks (ratio * k / 2 ^ 128) = true := by
  rw [carryApart, Bool.and_eq_true, decide_eq_true_iff]

/-- The bits of `n` and `n + 1` differ up to the one where the carry ends, and agree above it. -/
theorem apart_forwardRatio_succ {ks : List Nat} (hks : ∀ k ∈ ks, k ≤ 2 ^ 128 - 2 ^ 113) {ratio : Nat}
    (hcarry : carryApart ks ratio = true) {n : Nat} (hn : n + 1 < 2 ^ ks.length) :
    Apart (forwardRatio n 0 ks ratio) (forwardRatio (n + 1) 0 ks (2 ^ 128)) := by
  induction ks generalizing n ratio with
  | nil => exact absurd hn (by simp)
  | cons k ks ih =>
    obtain ⟨hend, hrest⟩ := carryApart_cons.1 hcarry
    have hks' := (List.forall_mem_cons.1 hks).2
    rw [List.length_cons, Nat.pow_succ] at hn
    obtain ⟨m, rfl | rfl⟩ := n.even_or_odd'
    · rw [forwardRatio_even, forwardRatio_odd, Nat.mul_div_cancel_left k (Nat.two_pow_pos 128)]
      have hapart : Apart ratio k := ⟨by omega, by omega⟩
      exact hapart.through_forwardRatio hks' m 0
    · rw [forwardRatio_odd, show 2 * m + 1 + 1 = 2 * (m + 1) by omega, forwardRatio_even]
      exact ih hks' hrest (by omega)

theorem ratioTable_le : ∀ k ∈ ratioTable, k ≤ 2 ^ 128 - 2 ^ 113 := by decide

theorem ratioTable_carryApart : carryApart ratioTable (2 ^ 128) = true := by decide

theorem apart_ratioOf_succ {n : Nat} (hn : n + 1 < 2 ^ 20) : Apart (ratioOf n) (ratioOf (n + 1)) :=
  apart_forwardRatio_succ ratioTable_le ratioTable_carryApart hn

theorem ratioOf_antitoneOn : AntitoneOn ratioOf (Set.Iio (2 ^ 20)) :=
  antitoneOn_of_succ_le Set.ordConnected_Iio fun _ _ _ hn => (apart_ratioOf_succ hn).1

/-- The ratio of a legal tick: from about `2^64` at the last to `2^128` at tick 0. -/
theorem ratioOf_bounds {n : Nat} (hn : n ≤ 887272) : 2 ^ 63 ≤ ratioOf n ∧ ratioOf n ≤ 2 ^ 128 := by
  have hlast : 2 ^ 63 ≤ ratioOf 887272 := by decide
  have hzero : ratioOf 0 = 2 ^ 128 := by decide
  have hmem : n ∈ Set.Iio (2 ^ 20) := Set.mem_Iio.2 (by omega)
  exact ⟨hlast.trans (ratioOf_antitoneOn hmem (Set.mem_Iio.2 (by decide)) hn),
    hzero ▸ ratioOf_antitoneOn (Set.mem_Iio.2 (by decide)) hmem (Nat.zero_le n)⟩

/-- The ratios are so large that a part in `2^16` remains of the gap, without a constant. -/
theorem ratioOf_succ_gap {n : Nat} (hn : n < 887272) :
    (2 ^ 16 + 1) * ratioOf (n + 1) ≤ 2 ^ 16 * ratioOf n := by
  obtain ⟨-, hgap⟩ := apart_ratioOf_succ (n := n) (by omega)
  obtain ⟨hbig, -⟩ := ratioOf_bounds (n := n + 1) hn
  omega

/-! #### The forward price rises -/

theorem ceilQ_lt_ceilQ {a b d : Nat} (hd : 0 < d) (h : a + d ≤ b) : ceilQ a d < ceilQ b d :=
  calc ceilQ a d < (a + d - 1) / d + 1 := Nat.lt_succ_self _
    _ = (a + d - 1 + d) / d := (Nat.add_div_right _ hd).symm
    _ ≤ ceilQ b d := Nat.div_le_div_right (by omega)

/-- The reciprocals of neighbouring ratios are further apart than the rounding to Q64.96. -/
theorem reciprocal_gap {a b : Nat} (hb : 2 ^ 63 ≤ b) (ha : a ≤ 2 ^ 128)
    (hgap : (2 ^ 16 + 1) * b ≤ 2 ^ 16 * a) :
    (2 ^ 256 - 1) / a + 2 ^ 32 ≤ (2 ^ 256 - 1) / b := by
  have hq : 2 ^ 48 ≤ (2 ^ 256 - 1) / a :=
    (Nat.le_div_iff_mul_le (by omega)).2 (by omega)
  have hqa : (2 ^ 256 - 1) / a * a ≤ 2 ^ 256 - 1 := Nat.div_mul_le_self _ _
  rw [Nat.le_div_iff_mul_le (by omega)]
  generalize (2 ^ 256 - 1) / a = q at hq hqa ⊢
  have hscaled : q * ((2 ^ 16 + 1) * b) ≤ q * (2 ^ 16 * a) := Nat.mul_le_mul_left q hgap
  have hqb : 2 ^ 48 * b ≤ q * b := Nat.mul_le_mul_right b hq
  rw [Nat.mul_left_comm, Nat.mul_left_comm q] at hscaled
  rw [Nat.add_mul]
  omega

theorem forwardPrice_lt_succ {tick : Int} (hlow : -887272 ≤ tick) (hhigh : tick < 887272) :
    forwardPrice tick < forwardPrice (tick + 1) := by
  obtain hneg | hnonneg := lt_or_ge tick 0
  · obtain ⟨n, rfl⟩ : ∃ n : Nat, tick = -((n + 1 : Nat) : Int) := ⟨(-tick - 1).toNat, by omega⟩
    have hgap := ratioOf_succ_gap (n := n) (by omega)
    obtain ⟨hbig, -⟩ := ratioOf_bounds (n := n + 1) (by omega)
    rw [show -((n + 1 : Nat) : Int) + 1 = -(n : Int) by omega, forwardPrice_neg, forwardPrice_neg]
    exact ceilQ_lt_ceilQ (Nat.two_pow_pos 32) (by omega)
  · obtain ⟨n, rfl⟩ := Int.eq_ofNat_of_zero_le hnonneg
    obtain ⟨hbig, -⟩ := ratioOf_bounds (n := n + 1) (by omega)
    obtain ⟨-, hsmall⟩ := ratioOf_bounds (n := n) (by omega)
    rw [show (n : Int) + 1 = ((n + 1 : Nat) : Int) by omega, forwardPrice_natCast,
      forwardPrice_natCast]
    exact ceilQ_lt_ceilQ (Nat.two_pow_pos 32)
      (reciprocal_gap hbig hsmall (ratioOf_succ_gap (by omega)))

/-- The forward function rises with the tick (44_tick_math.md R123). -/
theorem forwardPrice_strictMonoOn : StrictMonoOn forwardPrice (Set.Icc (-887272) 887272) :=
  strictMonoOn_of_lt_succ Set.ordConnected_Icc fun _ _ hmem hsucc =>
    forwardPrice_lt_succ hmem.1 (Order.succ_le_iff.1 hsucc.2)

theorem forwardPrice_least : forwardPrice (-887272) = 4295128739 := by decide

theorem forwardPrice_greatest :
    forwardPrice 887272 = 1461446703485210103287273052203988822378723970342 := by decide

/-! #### The word computation is the one over natural numbers -/

theorem ratioSteps_eq :
    ratioSteps = (forwardTable.zipIdx 1).map fun p => (p.2, BitVec.ofNat 256 p.1) := by decide

/-- One step of the loop does not wrap on a ratio up to 1 and a constant below 1. -/
theorem ratioStep_toNat {abs i k : Nat} {ratio : U256} (hratio : ratio.toNat ≤ 2 ^ 128)
    (hk : k < 2 ^ 128) :
    (ratioStep abs ratio (i, BitVec.ofNat 256 k)).toNat =
        (if abs / 2 ^ i % 2 = 1 then ratio.toNat * k / 2 ^ 128 else ratio.toNat) ∧
      (ratioStep abs ratio (i, BitVec.ofNat 256 k)).toNat ≤ 2 ^ 128 := by
  have hprod : ratio.toNat * k ≤ 2 ^ 128 * k := Nat.mul_le_mul_right k hratio
  have hword : (shrW (mulW ratio (BitVec.ofNat 256 k)) 128).toNat = ratio.toNat * k / 2 ^ 128 := by
    rw [BitVec.toNat_ushiftRight, Nat.shiftRight_eq_div_pow, mulW_toNat, trueProduct,
      toNat_ofNat_of_lt (by omega), Nat.mod_eq_of_lt (by omega)]
  rw [ratioStep, Nat.testBit_eq_decide_div_mod_eq]
  simp only [decide_eq_true_iff]
  split
  · exact ⟨hword, by omega⟩
  · exact ⟨rfl, hratio⟩

theorem foldl_ratioStep_toNat (abs : Nat) {ks : List Nat} (hks : ∀ k ∈ ks, k < 2 ^ 128) (i : Nat)
    {ratio : U256} (hratio : ratio.toNat ≤ 2 ^ 128) :
    (((ks.zipIdx i).map fun p => (p.2, BitVec.ofNat 256 p.1)).foldl (ratioStep abs) ratio).toNat =
      forwardRatio abs i ks ratio.toNat := by
  induction ks generalizing i ratio with
  | nil => rfl
  | cons k ks ih =>
    obtain ⟨hk, hks⟩ := List.forall_mem_cons.1 hks
    obtain ⟨hstep, hle⟩ := ratioStep_toNat (abs := abs) (i := i) hratio hk
    rw [List.zipIdx_cons, List.map_cons, List.foldl_cons, ih hks (i + 1) hle, hstep, forwardRatio]

theorem negativeRatio_toNat (abs : Nat) : (negativeRatio abs).toNat = ratioOf abs := by
  have hbit : abs.testBit 0 = true ↔ abs % 2 = 1 := by
    rw [Nat.testBit_zero, decide_eq_true_iff]
  rw [negativeRatio, ratioSteps_eq, foldl_ratioStep_toNat abs (by decide) 1 (by split <;> decide),
    ratioOf_eq_seeded]
  simp only [hbit, apply_ite BitVec.toNat]
  rfl

theorem tickRatio_toNat (tick : Int) :
    (tickRatio tick).toNat =
      if 0 < tick then (2 ^ 256 - 1) / ratioOf tick.natAbs else ratioOf tick.natAbs := by
  rw [tickRatio, apply_ite BitVec.toNat, BitVec.toNat_udiv, negativeRatio_toNat, maxU256,
    BitVec.toNat_allOnes]

/-- The rounding to Q64.96 does not wrap, whatever the ratio (44_tick_math.md R122). -/
theorem toQ96_toNat (ratio : U256) : (toQ96 ratio).toNat = ceilQ ratio.toNat (2 ^ 32) := by
  have hlow : ratio.setWidth 32 = 0#32 ↔ ratio.toNat % 2 ^ 32 = 0 := by
    rw [← BitVec.toNat_inj, BitVec.toNat_setWidth, BitVec.toNat_ofNat, Nat.zero_mod]
  have hhigh : (shrW ratio 32).toNat = ratio.toNat / 2 ^ 32 := by
    rw [BitVec.toNat_ushiftRight, Nat.shiftRight_eq_div_pow]
  have hlt := ratio.isLt
  rw [toQ96, BitVec.toNat_add, hhigh, ceilQ]
  simp only [ne_eq, hlow, apply_ite BitVec.toNat, BitVec.toNat_ofNat]
  split <;> omega

theorem sqrtRatio_toNat (tick : Int) : (sqrtRatio tick).toNat = forwardPrice tick := by
  rw [sqrtRatio, toQ96_toNat, tickRatio_toNat, forwardPrice_eq]

theorem sqrtRatio_eq_ofNat (tick : Int) : sqrtRatio tick = BitVec.ofNat 256 (forwardPrice tick) := by
  rw [← sqrtRatio_toNat, BitVec.ofNat_toNat, BitVec.setWidth_eq]

/-! #### What the two commands answer -/

theorem getSqrtRatioAtTick_of_legal {tick : I32} (h : tick.toInt.natAbs ≤ 887272) :
    getSqrtRatioAtTick tick = .ok (sqrtRatio tick.toInt) := if_neg (Nat.not_lt.2 h)

theorem getSqrtRatioAtTick_of_illegal {tick : I32} (h : 887272 < tick.toInt.natAbs) :
    getSqrtRatioAtTick tick = .error .tickRange := if_pos h

/-- TICK2SQRT of a legal tick completes with its forward price (44_tick_math.md R122). -/
theorem exec_tick2sqrt_of_legal {s : State} (h : (tickOf s.arg0).natAbs ≤ 887272) :
    exec .tick2sqrt s = .next (completed s (sqrtRatio (tickOf s.arg0)) 0#256 0#256 0#256) := by
  refine exec_eq_completed_of_oneResult rfl ?_
  rw [commandOutcome, getSqrtRatioAtTick_of_legal (tick := low32 s.arg0) h, cmd_map_ok]
  rfl

theorem exec_tick2sqrt_of_illegal {s : State} (h : 887272 < (tickOf s.arg0).natAbs) :
    exec .tick2sqrt s = .next (faulted s 0x1085#32) := by
  refine exec_eq_faulted_of_error (site := .tickRange) rfl ?_
  rw [commandOutcome, getSqrtRatioAtTick_of_illegal (tick := low32 s.arg0) h, cmd_map_error]

theorem priceOutOfRange_iff {p : U256} :
    (p < minSqrtRatio ∨ maxSqrtRatio ≤ p) ↔
      p.toNat < 4295128739 ∨ 1461446703485210103287273052203988822378723970342 ≤ p.toNat := Iff.rfl

theorem exec_sqrt2tick_of_out_of_range {s : State} (h : s.arg0.toNat < 4295128739 ∨
      1461446703485210103287273052203988822378723970342 ≤ s.arg0.toNat) :
    exec .sqrt2tick s = .next (faulted s 0x1096#32) := by
  refine exec_eq_faulted_of_error (site := .priceRange) rfl ?_
  rw [commandOutcome, getTickAtSqrtRatio, if_pos (priceOutOfRange_iff.2 h)]
  rfl

theorem sext32_ofInt {t : Int} (hlow : -2 ^ 31 ≤ t) (hhigh : t < 2 ^ 31) :
    sext32 (BitVec.ofInt 32 t) = BitVec.ofInt 256 t := by
  have ht : (BitVec.ofInt 32 t).toInt = t := BitVec.toInt_ofInt_eq_self (by decide) hlow hhigh
  rw [sext32, BitVec.signExtend, ht]

/-- `t` is the greatest tick SQRT2TICK may answer whose forward price is at most `p` (44_tick_math.md
R125). -/
def IsGreatestTick (p : Nat) (t : Int) : Prop :=
  -887272 ≤ t ∧ t ≤ 887271 ∧ forwardPrice t ≤ p ∧
    ∀ t' : Int, t < t' → t' ≤ 887271 → p < forwardPrice t'

theorem IsGreatestTick.unique {p : Nat} {t u : Int} (ht : IsGreatestTick p t)
    (hu : IsGreatestTick p u) : t = u := by
  obtain ⟨-, htmax, htle, htgt⟩ := ht
  obtain ⟨-, humax, hule, hugt⟩ := hu
  obtain hlt | heq | hgt := lt_trichotomy t u
  · exact absurd hule (Nat.not_le.2 (htgt u hlt humax))
  · exact heq
  · exact absurd htle (Nat.not_le.2 (hugt t hgt htmax))

/-- Because the forward function rises, a tick is the greatest at its own forward price. -/
theorem isGreatestTick_forwardPrice {t : Int} (hlow : -887272 ≤ t) (hhigh : t ≤ 887271) :
    IsGreatestTick (forwardPrice t) t :=
  ⟨hlow, hhigh, Nat.le_refl _, fun _ hlt hmax =>
    forwardPrice_strictMonoOn ⟨hlow, by omega⟩ ⟨by omega, by omega⟩ hlt⟩

/-- One comparison at the next tick decides for all the ticks above, because the forward function
rises. -/
theorem isGreatestTick_of_next {p : Nat} {t : Int} (hlow : -887272 ≤ t) (hhigh : t ≤ 887271)
    (hle : forwardPrice t ≤ p) (hnext : t + 1 ≤ 887271 → p < forwardPrice (t + 1)) :
    IsGreatestTick p t := by
  refine ⟨hlow, hhigh, hle, fun t' hlt hmax => ?_⟩
  calc p < forwardPrice (t + 1) := hnext (by omega)
    _ ≤ forwardPrice t' :=
      forwardPrice_strictMonoOn.monotoneOn ⟨by omega, by omega⟩ ⟨by omega, by omega⟩ hlt

theorem tickAtOffset_succ (offset : Nat) : tickAtOffset (offset + 1) = tickAtOffset offset + 1 := by
  rw [tickAtOffset, tickAtOffset]
  omega

theorem offsetReaches_iff {p : U256} {offset : Nat} :
    offsetReaches p offset = true ↔
      tickAtOffset offset ≤ 887271 ∧ forwardPrice (tickAtOffset offset) ≤ p.toNat := by
  rw [offsetReaches, Bool.and_eq_true, decide_eq_true_iff, decide_eq_true_iff, BitVec.le_def,
    sqrtRatio_toNat, tickAtOffset, maxTick]
  exact and_congr_left' (by omega)

/-- The search of 21 comparisons ends at the greatest tick (44_tick_math.md R125; log 16). -/
theorem isGreatestTick_search {p : U256} (h : 4295128739 ≤ p.toNat) :
    IsGreatestTick p.toNat (tickAtOffset (searchOffset p 21 0)) := by
  have hbeyond : offsetReaches p (0 + 2 ^ 21) = false :=
    Bool.eq_false_iff.2 fun hr => absurd (offsetReaches_iff.1 hr).1 (by decide)
  have hfirst : offsetReaches p 0 = true :=
    offsetReaches_iff.2 ⟨by decide, forwardPrice_least.trans_le h⟩
  obtain ⟨-, -, hnext, hfound⟩ := searchOffset_spec p 21 0 hbeyond
  have hreach : offsetReaches p (searchOffset p 21 0) = true :=
    hfound.elim (fun hzero => by rwa [hzero]) id
  generalize searchOffset p 21 0 = offset at hnext hreach
  obtain ⟨hmax, hle⟩ := offsetReaches_iff.1 hreach
  rw [← Bool.not_eq_true, offsetReaches_iff, tickAtOffset_succ] at hnext
  refine isGreatestTick_of_next (by rw [tickAtOffset, maxTick]; omega) hmax hle fun hlast => ?_
  exact Nat.not_le.1 fun hnot => hnext ⟨hlast, hnot⟩

/-- SQRT2TICK of a price in range completes with the greatest tick, sign-extended (44_tick_math.md
R125). -/
theorem exec_sqrt2tick_of_isGreatestTick {s : State} {t : Int} (hlow : 4295128739 ≤ s.arg0.toNat)
    (hhigh : s.arg0.toNat < 1461446703485210103287273052203988822378723970342)
    (ht : IsGreatestTick s.arg0.toNat t) :
    exec .sqrt2tick s = .next (completed s (BitVec.ofInt 256 t) 0#256 0#256 0#256) := by
  obtain rfl := (isGreatestTick_search hlow).unique ht
  obtain ⟨hmin, hmax, -, -⟩ := ht
  have hrange : ¬ (s.arg0 < minSqrtRatio ∨ maxSqrtRatio ≤ s.arg0) :=
    mt priceOutOfRange_iff.1 (by omega)
  refine exec_eq_completed_of_oneResult rfl ?_
  rw [commandOutcome, getTickAtSqrtRatio, if_neg hrange, cmd_map_ok, greatestTick,
    sext32_ofInt (by omega) (by omega)]

/-- The forward prices of the legal ticks lie between those of the two end ticks (44_tick_math.md
R123). -/
theorem forwardPrice_bounds {t : Int} (hlow : -887272 ≤ t) (hhigh : t ≤ 887272) :
    4295128739 ≤ forwardPrice t ∧
      forwardPrice t ≤ 1461446703485210103287273052203988822378723970342 := by
  have hmono := forwardPrice_strictMonoOn.monotoneOn
  rw [← forwardPrice_least, ← forwardPrice_greatest]
  exact ⟨hmono ⟨le_refl _, by decide⟩ ⟨hlow, hhigh⟩ hlow,
    hmono ⟨hlow, hhigh⟩ ⟨by decide, le_refl _⟩ hhigh⟩

end Sys2Proof.Machine

/-! ### The obligations of 44_tick_math.md -/

namespace Sys2Proof.Machine

open Sys2Proof.Safety

/-- Settles O28: no step of the word computation wraps (`sqrtRatio_toNat`). -/
theorem tick2sqrtForwardPrice : Obligations.Tick2sqrtForwardPrice := fun s hlegal => by
  rw [exec_tick2sqrt_of_legal hlegal, sqrtRatio_eq_ofNat]

/-- Settles O29: neighbouring ticks have prices apart (`forwardPrice_lt_succ`), so the prices rise
between those of the two end ticks. -/
theorem tick2sqrtIncreasing : Obligations.Tick2sqrtIncreasing := by
  intro s s' hs hs'
  refine ⟨_, _, exec_tick2sqrt_of_legal hs, exec_tick2sqrt_of_legal hs', ?_⟩
  simp only [sqrtRatio_toNat]
  have hmem : tickOf s.arg0 ∈ Set.Icc (-887272) 887272 := Set.mem_Icc.2 (by omega)
  have hmem' : tickOf s'.arg0 ∈ Set.Icc (-887272) 887272 := Set.mem_Icc.2 (by omega)
  obtain ⟨hleast, hgreatest⟩ := forwardPrice_bounds hmem.1 hmem.2
  exact ⟨forwardPrice_strictMonoOn hmem hmem', fun h => h ▸ forwardPrice_least,
    fun h => h ▸ forwardPrice_greatest, hleast, hgreatest.trans_lt (by decide)⟩

/-- Settles O30: the search ends at the greatest tick, because the forward function rises
(`isGreatestTick_search`). -/
theorem sqrt2tickGreatestTick : Obligations.Sqrt2tickGreatestTick := by
  intro s hlow hhigh
  have ht := isGreatestTick_search hlow
  have hexec := exec_sqrt2tick_of_isGreatestTick hlow hhigh ht
  obtain ⟨hmin, hmax, hle, hgt⟩ := ht
  exact ⟨_, hmin, hmax, hle, hgt, hexec⟩

/-- Settles O31: the tick is the greatest at its own forward price, and the greatest is unique. -/
theorem tickRoundTrip : Obligations.TickRoundTrip := by
  intro s hlow hhigh
  refine ⟨_, exec_tick2sqrt_of_legal (by omega), ?_⟩
  have hprice := sqrtRatio_toNat (tickOf s.arg0)
  obtain ⟨hleast, -⟩ := forwardPrice_bounds hlow (by omega)
  have hbelow : forwardPrice (tickOf s.arg0) < forwardPrice 887272 :=
    forwardPrice_strictMonoOn ⟨hlow, by omega⟩ ⟨by decide, le_refl _⟩ (by omega)
  exact exec_sqrt2tick_of_isGreatestTick (hprice ▸ hleast)
    (hprice ▸ forwardPrice_greatest ▸ hbelow) (hprice ▸ isGreatestTick_forwardPrice hlow hhigh)

/-- Settles O32: each range test is the command's first, and its one fault. -/
theorem tickRangeFaults : Obligations.TickRangeFaults := fun _ =>
  ⟨exec_tick2sqrt_of_illegal, exec_sqrt2tick_of_out_of_range⟩

end Sys2Proof.Machine
end

section
/-! ### Square-root price math: the next prices and the amounts

What each function of SqrtPriceMath answers, in the clauses of R140 to R146, and the commands that
end in its answer (45_sqrt_price_math.md sections 2 and 3). -/

namespace Sys2Proof.Machine

open Sys2Proof.Safety

/-! #### A command whose one result is a word -/

section
variable {i : Instr} {s t : State} {r : Cmd U256}

theorem exec_completed_of_result {v : U256} (hr : r = .ok v) (hport : readsPort i s = false)
    (hout : commandOutcome i s = r.map oneResult) :
    exec i s = .next (completed s v 0#256 0#256 0#256) :=
  exec_eq_completed_of_oneResult hport (by rw [hout, hr, cmd_map_ok])

theorem exec_faulted_of_result {site : Site} (hr : r = .error site) (hport : readsPort i s = false)
    (hout : commandOutcome i s = r.map oneResult) :
    exec i s = .next (faulted s (statusFault site)) :=
  exec_eq_faulted_of_error hport (by rw [hout, hr, cmd_map_error])

theorem statusFault_ne_ok (site : Site) : statusFault site ≠ 0x1000#32 := by
  cases site <;> decide

/-- A command whose STATUS says that it succeeded has its answer in RES0 (10_state.md R15, R20). -/
theorem result_of_status_ok (h : exec i s = .next t) (hstatus : t.status = 0x1000#32)
    (hout : commandOutcome i s = r.map oneResult) : r = .ok t.res0 := by
  obtain ⟨u, -, rfl⟩ := exec_cases h
  rw [hout] at hstatus ⊢
  cases r with
  | ok v => rfl
  | error site => exact absurd hstatus (statusFault_ne_ok site)

end

/-! #### Ceilings -/

/-- The ceiling is the least number whose product with the divisor reaches the dividend. -/
theorem ceilQ_le_iff {n d k : Nat} (hd : 0 < d) : ceilQ n d ≤ k ↔ n ≤ d * k :=
  ceilDiv_le_iff_le_mul hd

theorem div_le_ceilQ {n d : Nat} (hd : 0 < d) : n / d ≤ ceilQ n d :=
  Nat.div_le_div_right (by omega)

/-- A ceiling above `k` leaves the product with `k` below the dividend. -/
theorem mul_lt_of_lt_ceilQ {n d k : Nat} (hd : 0 < d) (h : k < ceilQ n d) : d * k < n :=
  Nat.lt_of_not_le fun hle => Nat.not_le.2 h ((ceilQ_le_iff hd).2 hle)

/-- Where a ceiling does not fit, MULDIVRU fails at MULDIV's overflow if the floor does not fit
either, else at the increment (43_full_math.md R108). -/
theorem mulDivRoundingUp_of_not_fits {a b d : U256} (hd : d.toNat ≠ 0)
    (hbig : 2 ^ 256 ≤ ceilQ (a.toNat * b.toNat) d.toNat) :
    mulDivRoundingUp a b d = .error
      (if 2 ^ 256 ≤ a.toNat * b.toNat / d.toNat then .muldivOverflow else .muldivruIncrement) := by
  split
  · exact mulDivRoundingUp_of_error (mulDiv_of_overflow hd ‹_›)
  · exact mulDivRoundingUp_of_ceil_overflow hd (Nat.lt_of_not_le ‹_›) hbig

/-! #### The zero tests of NEXTIN and NEXTOUT, and what runs behind them -/

section
variable {price : U256} {l : U128}

theorem checkPriceLiquidity_of_price_zero (hp : price = 0#256) :
    checkPriceLiquidity price l = .error .nextPriceZero := if_pos hp

/-- The price is tested first (45_sqrt_price_math.md R138). -/
theorem checkPriceLiquidity_of_liquidity_zero (hp : price ≠ 0#256) (hl : l.toNat = 0) :
    checkPriceLiquidity price l = .error .nextLiquidityZero := by
  rw [checkPriceLiquidity, if_neg hp, if_pos ((toNat_eq_zero_iff l).1 hl), raise_eq]

theorem checkPriceLiquidity_of_priced (hp : price ≠ 0#256) (hl : l.toNat ≠ 0) :
    checkPriceLiquidity price l = .ok () := by
  rw [checkPriceLiquidity, if_neg hp, if_neg (mt (toNat_eq_zero_iff l).2 hl)]

end

section
variable {s : State}

theorem exec_nextin_of_check_error {site : Site} (zeroForOne : Bool)
    (h : checkPriceLiquidity s.arg0 (low128 s.arg1) = .error site) :
    exec (.nextin zeroForOne) s = .next (faulted s (statusFault site)) :=
  exec_faulted_of_result (by rw [nextPriceFromInput, h, cmd_bind_error]) rfl rfl

theorem exec_nextout_of_check_error {site : Site} (zeroForOne : Bool)
    (h : checkPriceLiquidity s.arg0 (low128 s.arg1) = .error site) :
    exec (.nextout zeroForOne) s = .next (faulted s (statusFault site)) :=
  exec_faulted_of_result (by rw [nextPriceFromOutput, h, cmd_bind_error]) rfl rfl

/-- Past its tests NEXTIN is the add form of NEXTA0 or NEXTA1 (45_sqrt_price_math.md R138). -/
theorem exec_nextin_of_priced (zeroForOne : Bool) (hp : s.arg0 ≠ 0#256)
    (hl : liquidityOf s.arg1 ≠ 0) :
    exec (.nextin zeroForOne) s = exec (if zeroForOne then .nexta0 true else .nexta1 true) s := by
  rw [← low128_toNat] at hl
  have hbody : ∀ m, nextPriceFromInput s.arg0 (low128 s.arg1) s.arg2 m =
      if m then nextFromAmount0 s.arg0 (low128 s.arg1) s.arg2 true
      else nextFromAmount1 s.arg0 (low128 s.arg1) s.arg2 true := by
    intro m
    rw [nextPriceFromInput, checkPriceLiquidity_of_priced hp hl, cmd_bind_ok]
  cases zeroForOne <;> exact congrArg (fun r => s.ends (r.map oneResult)) (hbody _)

/-- Past its tests NEXTOUT is the remove form of NEXTA1 or NEXTA0 (45_sqrt_price_math.md R139). -/
theorem exec_nextout_of_priced (zeroForOne : Bool) (hp : s.arg0 ≠ 0#256)
    (hl : liquidityOf s.arg1 ≠ 0) :
    exec (.nextout zeroForOne) s =
      exec (if zeroForOne then .nexta1 false else .nexta0 false) s := by
  rw [← low128_toNat] at hl
  have hbody : ∀ m, nextPriceFromOutput s.arg0 (low128 s.arg1) s.arg2 m =
      if m then nextFromAmount1 s.arg0 (low128 s.arg1) s.arg2 false
      else nextFromAmount0 s.arg0 (low128 s.arg1) s.arg2 false := by
    intro m
    rw [nextPriceFromOutput, checkPriceLiquidity_of_priced hp hl, cmd_bind_ok]
  cases zeroForOne <;> exact congrArg (fun r => s.ends (r.map oneResult)) (hbody _)

end

/-! #### The next price from an amount of token0 -/

section
variable {price amount : U256} {l : U128}

theorem nextFromAmount0_of_zero (h : amount.toNat = 0) (add : Bool) :
    nextFromAmount0 price l amount add = .ok price := if_pos ((toNat_eq_zero_iff amount).1 h)

/-- The first path of R140 is taken where the true denominator fits, which the word then is. -/
theorem nextFromAmount0_add_of_fits (ha : amount.toNat ≠ 0)
    (hfit : l.toNat * 2 ^ 96 + amount.toNat * price.toNat < 2 ^ 256) :
    ∃ d : U256, d.toNat = l.toNat * 2 ^ 96 + amount.toNat * price.toNat ∧
      nextFromAmount0 price l amount true = mulDivRoundingUp (numerator1 l) price d := by
  have hne := mt (toNat_eq_zero_iff amount).2 ha
  rw [← numerator1_toNat] at hfit
  refine ⟨addW (numerator1 l) (mulW amount price), ?_, ?_⟩
  · rw [← numerator1_toNat, BitVec.toNat_add, BitVec.toNat_mul, Nat.add_mod_mod,
      Nat.mod_eq_of_lt hfit]
  · rw [nextFromAmount0, if_neg hne, if_pos rfl, nextFromAmount0Add]
    exact if_pos ((addDenominator_iff l hne).2 hfit)

/-- The fall-back of R140 is taken where the true denominator needs more than 256 bits; its divisor
is the wrapped sum. -/
theorem nextFromAmount0_add_of_not_fits (ha : amount.toNat ≠ 0)
    (hbig : 2 ^ 256 ≤ l.toNat * 2 ^ 96 + amount.toNat * price.toNat) :
    ∃ d : U256, d.toNat = (l.toNat * 2 ^ 96 / price.toNat + amount.toNat) % 2 ^ 256 ∧
      nextFromAmount0 price l amount true = divRoundingUp (numerator1 l) d .amount0AddByZero := by
  have hne := mt (toNat_eq_zero_iff amount).2 ha
  rw [← numerator1_toNat] at hbig
  refine ⟨addW (divW (numerator1 l) price) amount, ?_, ?_⟩
  · rw [BitVec.toNat_add, BitVec.toNat_udiv, numerator1_toNat]
  · rw [nextFromAmount0, if_neg hne, if_pos rfl, nextFromAmount0Add]
    exact if_neg (mt (addDenominator_iff l hne).1 (Nat.not_lt.2 hbig))

/-- The exact next price of the first path is at most the price (45_sqrt_price_math.md R136). -/
theorem ceilQ_price_le (n1 price paid : Nat) (h : n1 + paid ≠ 0) :
    ceilQ (n1 * price) (n1 + paid) ≤ price :=
  (ceilQ_le_iff (Nat.pos_of_ne_zero h)).2 (Nat.mul_le_mul_right price (Nat.le_add_right n1 paid))

/-- Nothing to divide by: no liquidity, and a price of 0 (45_sqrt_price_math.md R140). -/
theorem nextFromAmount0_add_of_zero_sum (ha : amount.toNat ≠ 0)
    (hsum : l.toNat * 2 ^ 96 + amount.toNat * price.toNat = 0) :
    nextFromAmount0 price l amount true = .error .muldivByZero := by
  obtain ⟨d, hd, heq⟩ := nextFromAmount0_add_of_fits (price := price) (l := l) ha (by omega)
  have hn : l.toNat * 2 ^ 96 = 0 := Nat.eq_zero_of_add_eq_zero_right hsum
  rw [heq]
  refine mulDivRoundingUp_of_error (mulDiv_of_zero_of_fits (hd.trans hsum) ?_)
  rw [numerator1_toNat, hn, Nat.zero_mul]
  exact Nat.two_pow_pos 256

theorem nextFromAmount0_add_of_exact (ha : amount.toNat ≠ 0)
    (hsum : l.toNat * 2 ^ 96 + amount.toNat * price.toNat ≠ 0)
    (hfit : l.toNat * 2 ^ 96 + amount.toNat * price.toNat < 2 ^ 256) :
    nextFromAmount0 price l amount true = .ok (BitVec.ofNat 256
      (ceilQ (l.toNat * 2 ^ 96 * price.toNat)
        (l.toNat * 2 ^ 96 + amount.toNat * price.toNat))) := by
  obtain ⟨d, hd, heq⟩ := nextFromAmount0_add_of_fits ha hfit
  have hle := ceilQ_price_le _ price.toNat _ hsum
  rw [← hd, ← numerator1_toNat] at hle ⊢
  rw [heq]
  exact mulDivRoundingUp_of_fits (hd ▸ hsum) (Nat.lt_of_le_of_lt hle price.isLt)

theorem nextFromAmount0_add_of_fallBack (ha : amount.toNat ≠ 0)
    (hbig : 2 ^ 256 ≤ l.toNat * 2 ^ 96 + amount.toNat * price.toNat)
    (hdiv : (l.toNat * 2 ^ 96 / price.toNat + amount.toNat) % 2 ^ 256 ≠ 0) :
    nextFromAmount0 price l amount true = .ok (BitVec.ofNat 256
      (ceilQ (l.toNat * 2 ^ 96)
        ((l.toNat * 2 ^ 96 / price.toNat + amount.toNat) % 2 ^ 256))) := by
  obtain ⟨d, hd, heq⟩ := nextFromAmount0_add_of_not_fits ha hbig
  rw [← hd] at hdiv ⊢
  rw [heq, divRoundingUp_eq, if_neg hdiv, ceilDiv_eq_ofNat hdiv, numerator1_toNat]

theorem nextFromAmount0_add_of_zero_divisor (ha : amount.toNat ≠ 0)
    (hbig : 2 ^ 256 ≤ l.toNat * 2 ^ 96 + amount.toNat * price.toNat)
    (hdiv : (l.toNat * 2 ^ 96 / price.toNat + amount.toNat) % 2 ^ 256 = 0) :
    nextFromAmount0 price l amount true = .error .amount0AddByZero := by
  obtain ⟨d, hd, heq⟩ := nextFromAmount0_add_of_not_fits ha hbig
  rw [heq, divRoundingUp_eq, if_pos (hd.trans hdiv)]

/-- The `!add` branch divides where `n1` exceeds the true product, by their difference (R140). -/
theorem nextFromAmount0_sub_of_lt (ha : amount.toNat ≠ 0)
    (hlt : amount.toNat * price.toNat < l.toNat * 2 ^ 96) :
    ∃ d : U256, d.toNat = l.toNat * 2 ^ 96 - amount.toNat * price.toNat ∧
      nextFromAmount0 price l amount false = mulDivRoundingUp (numerator1 l) price d := by
  have hne := mt (toNat_eq_zero_iff amount).2 ha
  rw [← numerator1_toNat] at hlt ⊢
  have hfit := Nat.lt_trans hlt (numerator1 l).isLt
  have hprod : (mulW amount price).toNat = amount.toNat * price.toNat :=
    (BitVec.toNat_mul _ _).trans (Nat.mod_eq_of_lt hfit)
  have hword : mulW amount price < numerator1 l := BitVec.lt_def.2 (hprod.trans_lt hlt)
  refine ⟨subW (numerator1 l) (mulW amount price), ?_, ?_⟩
  · rw [BitVec.toNat_sub_of_le (BitVec.le_of_lt hword), hprod]
  · rw [nextFromAmount0, if_neg hne, if_neg Bool.false_ne_true, nextFromAmount0Sub]
    exact if_pos ⟨(productFits_iff hne).2 hfit, hword⟩

theorem nextFromAmount0_sub_of_le (ha : amount.toNat ≠ 0)
    (hle : l.toNat * 2 ^ 96 ≤ amount.toNat * price.toNat) :
    nextFromAmount0 price l amount false = .error .amount0Removed := by
  have hne := mt (toNat_eq_zero_iff amount).2 ha
  rw [nextFromAmount0, if_neg hne, if_neg Bool.false_ne_true, nextFromAmount0Sub]
  refine if_neg fun ⟨hfits, hword⟩ => Nat.not_lt.2 hle ?_
  rw [productFits_iff hne] at hfits
  rwa [BitVec.lt_def, BitVec.toNat_mul, Nat.mod_eq_of_lt hfits, numerator1_toNat] at hword

theorem nextFromAmount0_sub_of_exact (ha : amount.toNat ≠ 0)
    (hlt : amount.toNat * price.toNat < l.toNat * 2 ^ 96)
    (hfit : ceilQ (l.toNat * 2 ^ 96 * price.toNat)
      (l.toNat * 2 ^ 96 - amount.toNat * price.toNat) < 2 ^ 256) :
    nextFromAmount0 price l amount false = .ok (BitVec.ofNat 256
      (ceilQ (l.toNat * 2 ^ 96 * price.toNat)
        (l.toNat * 2 ^ 96 - amount.toNat * price.toNat))) := by
  obtain ⟨d, hd, heq⟩ := nextFromAmount0_sub_of_lt ha hlt
  have hne : d.toNat ≠ 0 := by omega
  rw [← hd, ← numerator1_toNat] at hfit ⊢
  exact heq.trans (mulDivRoundingUp_of_fits hne hfit)

theorem nextFromAmount0_sub_of_overflow (ha : amount.toNat ≠ 0)
    (hlt : amount.toNat * price.toNat < l.toNat * 2 ^ 96)
    (hbig : 2 ^ 256 ≤ ceilQ (l.toNat * 2 ^ 96 * price.toNat)
      (l.toNat * 2 ^ 96 - amount.toNat * price.toNat)) :
    nextFromAmount0 price l amount false = .error
      (if 2 ^ 256 ≤ l.toNat * 2 ^ 96 * price.toNat /
          (l.toNat * 2 ^ 96 - amount.toNat * price.toNat)
        then .muldivOverflow else .muldivruIncrement) := by
  obtain ⟨d, hd, heq⟩ := nextFromAmount0_sub_of_lt ha hlt
  have hne : d.toNat ≠ 0 := by omega
  rw [← hd, ← numerator1_toNat] at hbig ⊢
  exact heq.trans (mulDivRoundingUp_of_not_fits hne hbig)

end

/-! #### The next price from an amount of token1 -/

section
variable {price amount quotient : U256} {l : U128}

theorem le_maxU160_iff : amount ≤ maxU160 ↔ amount.toNat < 2 ^ 160 := Nat.lt_succ_iff.symm

theorem zext128_eq_zero_iff : zext128 l = 0#256 ↔ l.toNat = 0 := by
  rw [← toNat_eq_zero_iff, zext128_toNat]

theorem q96_toNat : q96.toNat = 2 ^ 96 := rfl

/-- A quotient that does not fit takes an amount of more than 160 bits, for whatever divisor. -/
theorem wide_of_quotient_overflow (h : 2 ^ 256 ≤ amount.toNat * 2 ^ 96 / l.toNat) :
    2 ^ 160 ≤ amount.toNat := by
  have := Nat.div_le_self (amount.toNat * 2 ^ 96) l.toNat
  omega

/-- A ceiling that does not fit has a floor that does not fit either: `amount * 2^96` is never so
little below a multiple of the liquidity (45_sqrt_price_math.md R141). -/
theorem floor_overflow_of_ceil_overflow (hl : l.toNat ≠ 0)
    (h : 2 ^ 256 ≤ ceilQ (amount.toNat * 2 ^ 96) l.toNat) :
    2 ^ 256 ≤ amount.toNat * 2 ^ 96 / l.toNat := by
  have ha := amount.isLt
  have hover : l.toNat * (2 ^ 256 - 1) < amount.toNat * 2 ^ 96 :=
    mul_lt_of_lt_ceilQ (Nat.pos_of_ne_zero hl) h
  rw [Nat.le_div_iff_mul_le (Nat.pos_of_ne_zero hl)]
  omega

theorem amount1QuotientDown_of_wide (h : 2 ^ 160 ≤ amount.toNat) :
    amount1QuotientDown l amount = mulDiv amount q96 (zext128 l) :=
  if_neg (mt le_maxU160_iff.1 (Nat.not_lt.2 h))

theorem amount1QuotientUp_of_wide (h : 2 ^ 160 ≤ amount.toNat) :
    amount1QuotientUp l amount = mulDivRoundingUp amount q96 (zext128 l) :=
  if_neg (mt le_maxU160_iff.1 (Nat.not_lt.2 h))

/-- With an amount of more than 160 bits MULDIV by a liquidity of 0 reports the overflow of the
product (90_conflicts.md C3). -/
theorem mulDiv_q96_of_wide_of_zero (hl : l.toNat = 0) (h : 2 ^ 160 ≤ amount.toNat) :
    mulDiv amount q96 (zext128 l) = .error .muldivOverflow :=
  mulDiv_of_zero_of_overflow ((zext128_toNat l).trans hl) (by rw [q96_toNat]; omega)

theorem mulDiv_q96_of_overflow (hl : l.toNat ≠ 0)
    (h : 2 ^ 256 ≤ amount.toNat * 2 ^ 96 / l.toNat) :
    mulDiv amount q96 (zext128 l) = .error .muldivOverflow := by
  rw [← zext128_toNat] at hl h
  exact mulDiv_of_overflow hl h

theorem amount1QuotientDown_of_zero (hl : l.toNat = 0) (h : amount.toNat < 2 ^ 160) :
    amount1QuotientDown l amount = .error .amount1AddByZero := by
  rw [amount1QuotientDown, if_pos (le_maxU160_iff.2 h), if_pos (zext128_eq_zero_iff.2 hl), raise_eq]

theorem amount1QuotientUp_of_zero (hl : l.toNat = 0) (h : amount.toNat < 2 ^ 160) :
    amount1QuotientUp l amount = .error .amount1SubByZero := by
  rw [amount1QuotientUp, if_pos (le_maxU160_iff.2 h), divRoundingUp_eq, zext128_toNat, if_pos hl]

theorem nextFromAmount1_add_of_error {site : Site}
    (h : amount1QuotientDown l amount = .error site) :
    nextFromAmount1 price l amount true = .error site := by
  rw [nextFromAmount1, if_pos rfl, h, cmd_bind_error]

theorem nextFromAmount1_sub_of_error {site : Site} (h : amount1QuotientUp l amount = .error site) :
    nextFromAmount1 price l amount false = .error site := by
  rw [nextFromAmount1, if_neg Bool.false_ne_true, h, cmd_bind_error]

/-- The sum is tested against the 160-bit ceiling before it is taken (45_sqrt_price_math.md
R137). -/
theorem addPriceCeiling_eq_ok_iff {next : U256} :
    addPriceCeiling price quotient = .ok next ↔
      price.toNat + quotient.toNat < 2 ^ 160 ∧ next.toNat = price.toNat + quotient.toNat := by
  have hmax : maxU160.toNat = 2 ^ 160 - 1 := rfl
  rw [addPriceCeiling, hmax, raise_eq]
  split
  · simp only [reduceCtorEq, false_iff, not_and]
    omega
  · have hsum : (addW price quotient).toNat = price.toNat + quotient.toNat := by
      rw [BitVec.toNat_add]
      omega
    rw [Except.ok.injEq, ← BitVec.toNat_inj, hsum, eq_comm]
    exact ⟨fun h => ⟨by omega, h⟩, And.right⟩

theorem addPriceCeiling_of_not_fits (h : 2 ^ 160 ≤ price.toNat + quotient.toNat) :
    addPriceCeiling price quotient = .error .amount1Ceiling :=
  if_pos (Nat.lt_of_succ_le h)

theorem subtractFromPrice_eq_ok_iff {next : U256} :
    subtractFromPrice price quotient = .ok next ↔
      quotient.toNat < price.toNat ∧ next.toNat = price.toNat - quotient.toNat := by
  rw [subtractFromPrice, raise_eq]
  split <;> rename_i h <;> rw [BitVec.le_def] at h
  · simp only [reduceCtorEq, false_iff, not_and]
    omega
  · have hdiff : (subW price quotient).toNat = price.toNat - quotient.toNat :=
      BitVec.toNat_sub_of_le (Nat.le_of_not_le h)
    rw [Except.ok.injEq, ← BitVec.toNat_inj, hdiff, eq_comm]
    exact ⟨fun heq => ⟨Nat.lt_of_not_le h, heq⟩, And.right⟩

theorem subtractFromPrice_of_le (h : price.toNat ≤ quotient.toNat) :
    subtractFromPrice price quotient = .error .amount1Removed := if_pos h

/-- The floor that the add form adds, where it fits (45_sqrt_price_math.md R141). -/
theorem nextFromAmount1_add_of_quotient (hl : l.toNat ≠ 0)
    (hfit : amount.toNat * 2 ^ 96 / l.toNat < 2 ^ 256) :
    ∃ q : U256, q.toNat = amount.toNat * 2 ^ 96 / l.toNat ∧
      nextFromAmount1 price l amount true = addPriceCeiling price q := by
  refine ⟨BitVec.ofNat 256 _, toNat_ofNat_of_lt hfit, ?_⟩
  rw [nextFromAmount1, if_pos rfl,
    amount1QuotientDown_eq_ok_iff.2 ⟨hl, toNat_ofNat_of_lt hfit⟩, cmd_bind_ok]

/-- The ceiling that the remove form subtracts, where it fits (45_sqrt_price_math.md R141). -/
theorem nextFromAmount1_sub_of_quotient (hl : l.toNat ≠ 0)
    (hfit : ceilQ (amount.toNat * 2 ^ 96) l.toNat < 2 ^ 256) :
    ∃ q : U256, q.toNat = ceilQ (amount.toNat * 2 ^ 96) l.toNat ∧
      nextFromAmount1 price l amount false = subtractFromPrice price q := by
  refine ⟨BitVec.ofNat 256 _, toNat_ofNat_of_lt hfit, ?_⟩
  rw [nextFromAmount1, if_neg Bool.false_ne_true,
    amount1QuotientUp_eq_ok_iff.2 ⟨hl, toNat_ofNat_of_lt hfit⟩, cmd_bind_ok]

theorem nextFromAmount1_add_of_exact (hl : l.toNat ≠ 0)
    (hfit : price.toNat + amount.toNat * 2 ^ 96 / l.toNat < 2 ^ 160) :
    nextFromAmount1 price l amount true =
      .ok (BitVec.ofNat 256 (price.toNat + amount.toNat * 2 ^ 96 / l.toNat)) := by
  obtain ⟨q, hq, heq⟩ := nextFromAmount1_add_of_quotient (price := price) hl
    ((Nat.le_add_left _ _).trans_lt (hfit.trans (by decide)))
  rw [← hq] at hfit ⊢
  exact heq.trans (addPriceCeiling_eq_ok_iff.2
    ⟨hfit, toNat_ofNat_of_lt (hfit.trans (by decide))⟩)

theorem nextFromAmount1_add_of_ceiling (hl : l.toNat ≠ 0)
    (hfit : amount.toNat * 2 ^ 96 / l.toNat < 2 ^ 256)
    (hbig : 2 ^ 160 ≤ price.toNat + amount.toNat * 2 ^ 96 / l.toNat) :
    nextFromAmount1 price l amount true = .error .amount1Ceiling := by
  obtain ⟨q, hq, heq⟩ := nextFromAmount1_add_of_quotient (price := price) hl hfit
  rw [← hq] at hbig
  exact heq.trans (addPriceCeiling_of_not_fits hbig)

theorem nextFromAmount1_sub_of_exact (hl : l.toNat ≠ 0)
    (hlt : ceilQ (amount.toNat * 2 ^ 96) l.toNat < price.toNat) :
    nextFromAmount1 price l amount false =
      .ok (BitVec.ofNat 256 (price.toNat - ceilQ (amount.toNat * 2 ^ 96) l.toNat)) := by
  obtain ⟨q, hq, heq⟩ := nextFromAmount1_sub_of_quotient (price := price) hl
    (hlt.trans price.isLt)
  rw [← hq] at hlt ⊢
  exact heq.trans (subtractFromPrice_eq_ok_iff.2
    ⟨hlt, toNat_ofNat_of_lt ((Nat.sub_le _ _).trans_lt price.isLt)⟩)

theorem nextFromAmount1_sub_of_le (hl : l.toNat ≠ 0)
    (hle : price.toNat ≤ ceilQ (amount.toNat * 2 ^ 96) l.toNat)
    (hfit : ceilQ (amount.toNat * 2 ^ 96) l.toNat < 2 ^ 256) :
    nextFromAmount1 price l amount false = .error .amount1Removed := by
  obtain ⟨q, hq, heq⟩ := nextFromAmount1_sub_of_quotient (price := price) hl hfit
  rw [← hq] at hle
  exact heq.trans (subtractFromPrice_of_le hle)

/-- The quotient's fault ends the add form before the sum is tested (43_full_math.md R111). -/
theorem nextFromAmount1_add_of_overflow (hl : l.toNat ≠ 0)
    (hbig : 2 ^ 256 ≤ amount.toNat * 2 ^ 96 / l.toNat) :
    nextFromAmount1 price l amount true = .error .muldivOverflow :=
  nextFromAmount1_add_of_error ((amount1QuotientDown_of_wide (wide_of_quotient_overflow hbig)).trans
    (mulDiv_q96_of_overflow hl hbig))

theorem nextFromAmount1_add_of_zero_of_wide (hl : l.toNat = 0) (hwide : 2 ^ 160 ≤ amount.toNat) :
    nextFromAmount1 price l amount true = .error .muldivOverflow :=
  nextFromAmount1_add_of_error ((amount1QuotientDown_of_wide hwide).trans
    (mulDiv_q96_of_wide_of_zero hl hwide))

/-- The increment of MULDIVRU never fails here: its floor overflows first
(`floor_overflow_of_ceil_overflow`). -/
theorem nextFromAmount1_sub_of_overflow (hl : l.toNat ≠ 0)
    (hbig : 2 ^ 256 ≤ ceilQ (amount.toNat * 2 ^ 96) l.toNat) :
    nextFromAmount1 price l amount false = .error .muldivOverflow := by
  have hfloor := floor_overflow_of_ceil_overflow hl hbig
  exact nextFromAmount1_sub_of_error
    ((amount1QuotientUp_of_wide (wide_of_quotient_overflow hfloor)).trans
      (mulDivRoundingUp_of_error (mulDiv_q96_of_overflow hl hfloor)))

theorem nextFromAmount1_sub_of_zero_of_wide (hl : l.toNat = 0) (hwide : 2 ^ 160 ≤ amount.toNat) :
    nextFromAmount1 price l amount false = .error .muldivOverflow :=
  nextFromAmount1_sub_of_error ((amount1QuotientUp_of_wide hwide).trans
    (mulDivRoundingUp_of_error (mulDiv_q96_of_wide_of_zero hl hwide)))

end

/-! #### The direction of the next price -/

section
variable {price amount next : U256} {l : U128}

/-- The fall-back's divisor, unwrapped, times the price exceeds `n1`
(45_sqrt_price_math.md R136). -/
theorem ceilQ_fallBack_le {n1 price amount : Nat} (ha : amount ≠ 0) (hp : price ≠ 0) :
    ceilQ n1 (n1 / price + amount) ≤ price := by
  rw [ceilQ_le_iff (Nat.add_pos_right _ (Nat.pos_of_ne_zero ha)), Nat.mul_comm]
  calc n1 ≤ price * (n1 / price + 1) := (Nat.lt_mul_div_succ n1 (Nat.pos_of_ne_zero hp)).le
    _ ≤ price * (n1 / price + amount) := Nat.mul_le_mul_left price (by omega)

theorem nextFromAmount0_add_le (h : nextFromAmount0 price l amount true = .ok next)
    (hwrap : l.toNat * 2 ^ 96 / price.toNat + amount.toNat < 2 ^ 256) :
    next.toNat ≤ price.toNat := by
  have hp := price.isLt
  have hl := l.isLt
  by_cases ha : amount.toNat = 0
  · rw [nextFromAmount0_of_zero ha, Except.ok.injEq] at h
    rw [h]
  by_cases hfit : l.toNat * 2 ^ 96 + amount.toNat * price.toNat < 2 ^ 256
  · by_cases hsum : l.toNat * 2 ^ 96 + amount.toNat * price.toNat = 0
    · rw [nextFromAmount0_add_of_zero_sum ha hsum] at h
      cases h
    · have hle := ceilQ_price_le (l.toNat * 2 ^ 96) price.toNat _ hsum
      rw [nextFromAmount0_add_of_exact ha hsum hfit, Except.ok.injEq] at h
      rwa [← h, toNat_ofNat_of_lt (by omega)]
  · have hbig := Nat.le_of_not_lt hfit
    have hprice : price.toNat ≠ 0 := fun h0 => by rw [h0] at hbig; omega
    have hle := ceilQ_fallBack_le (n1 := l.toNat * 2 ^ 96) ha hprice
    have hdiv : (l.toNat * 2 ^ 96 / price.toNat + amount.toNat) % 2 ^ 256 ≠ 0 := by
      rw [Nat.mod_eq_of_lt hwrap]
      exact Nat.ne_of_gt (Nat.add_pos_right _ (Nat.pos_of_ne_zero ha))
    have hfall := nextFromAmount0_add_of_fallBack ha hbig hdiv
    rw [Nat.mod_eq_of_lt hwrap] at hfall
    rw [hfall, Except.ok.injEq] at h
    rwa [← h, toNat_ofNat_of_lt (by omega)]

theorem le_nextFromAmount0_sub (h : nextFromAmount0 price l amount false = .ok next) :
    price.toNat ≤ next.toNat := by
  by_cases ha : amount.toNat = 0
  · rw [nextFromAmount0_of_zero ha, Except.ok.injEq] at h
    rw [h]
  rcases Nat.lt_or_ge (amount.toNat * price.toNat) (l.toNat * 2 ^ 96) with hlt | hge
  · obtain ⟨d, hd, heq⟩ := nextFromAmount0_sub_of_lt ha hlt
    obtain ⟨-, hnext⟩ := mulDivRoundingUp_eq_ok_iff.1 (heq ▸ h)
    have hpos : 0 < d.toNat := by omega
    have hle : d.toNat ≤ (numerator1 l).toNat := by rw [numerator1_toNat]; omega
    calc price.toNat ≤ (numerator1 l).toNat * price.toNat / d.toNat := by
          rw [Nat.le_div_iff_mul_le hpos, Nat.mul_comm]
          exact Nat.mul_le_mul_right _ hle
      _ ≤ ceilQ ((numerator1 l).toNat * price.toNat) d.toNat := div_le_ceilQ hpos
      _ = next.toNat := hnext.symm
  · rw [nextFromAmount0_sub_of_le ha hge] at h
    cases h

theorem le_nextFromAmount1_add (h : nextFromAmount1 price l amount true = .ok next) :
    price.toNat ≤ next.toNat := by
  obtain ⟨q, -, hnext⟩ := cmd_bind_eq_ok.1 h
  obtain ⟨-, hsum⟩ := addPriceCeiling_eq_ok_iff.1 hnext
  omega

theorem nextFromAmount1_sub_le (h : nextFromAmount1 price l amount false = .ok next) :
    next.toNat ≤ price.toNat := by
  obtain ⟨q, -, hnext⟩ := cmd_bind_eq_ok.1 h
  obtain ⟨-, hdiff⟩ := subtractFromPrice_eq_ok_iff.1 hnext
  omega

end

/-! #### The amounts between two prices -/

section
variable {a b : U256} {l : U128} {up : Bool}

theorem toNat_ne_zero {x : U256} (h : x ≠ 0#256) : x.toNat ≠ 0 := mt (toNat_eq_zero_iff x).1 h

theorem quot_le (up : Bool) (n : Nat) {d : Nat} (hd : 0 < d) : quot up n d ≤ n := by
  have h := quot_gap_le up n 1 d hd hd
  rwa [Nat.mul_one] at h

/-- The amount of token0 is at most `n1`, below 2^224 (45_sqrt_price_math.md R143). -/
theorem amount0_lt (ha : a.toNat ≠ 0) (hb : b.toNat ≠ 0) :
    amount0 up a.toNat b.toNat l.toNat < 2 ^ 256 := by
  have hl := l.isLt
  have hle : amount0 up a.toNat b.toNat l.toNat ≤ l.toNat * 2 ^ 96 :=
    (quot_le up _ (by omega)).trans (quot_gap_le up _ _ _ (Nat.sub_le _ _) (by omega))
  omega

theorem amount0Delta_of_priced (ha : a.toNat ≠ 0) (hb : b.toNat ≠ 0) :
    amount0Delta a b l up = .ok (BitVec.ofNat 256 (amount0 up a.toNat b.toNat l.toNat)) :=
  amount0Delta_eq_ok_iff.2 ⟨ha, hb, toNat_ofNat_of_lt (amount0_lt ha hb)⟩

theorem amount0Delta_of_price_zero (h : a.toNat = 0 ∨ b.toNat = 0) :
    amount0Delta a b l up = .error .delta0PriceZero :=
  if_pos ((lowerPrice_eq_zero_iff a b).2 h)

theorem amount1Delta_of_fits (ha : a.toNat ≠ 0) (hb : b.toNat ≠ 0)
    (hfit : amount1 up a.toNat b.toNat l.toNat < 2 ^ 256) :
    amount1Delta a b l up = .ok (BitVec.ofNat 256 (amount1 up a.toNat b.toNat l.toNat)) :=
  amount1Delta_eq_ok_iff.2 ⟨ha, hb, toNat_ofNat_of_lt hfit⟩

theorem amount1Delta_of_price_zero (h : a.toNat = 0 ∨ b.toNat = 0) :
    amount1Delta a b l up = .error .delta1PriceZero :=
  if_pos ((lowerPrice_eq_zero_iff a b).2 h)

theorem amount1Delta_of_priced (ha : a.toNat ≠ 0) (hb : b.toNat ≠ 0) :
    amount1Delta a b l up = amount1Between (lowerPrice a b) (upperPrice a b) l up :=
  if_neg fun h => ((lowerPrice_eq_zero_iff a b).1 h).elim ha hb

theorem amount1_down_eq (a b : U256) (l : U128) :
    amount1 false a.toNat b.toNat l.toNat =
      (zext128 l).toNat * (subW (upperPrice a b) (lowerPrice a b)).toNat / q96.toNat := by
  rw [zext128_toNat, priceGap_toNat, q96_toNat, amount1, quot, if_neg Bool.false_ne_true]

theorem amount1_up_eq (a b : U256) (l : U128) :
    amount1 true a.toNat b.toNat l.toNat =
      ceilQ ((zext128 l).toNat * (subW (upperPrice a b) (lowerPrice a b)).toNat) q96.toNat := by
  rw [zext128_toNat, priceGap_toNat, q96_toNat, amount1, quot, if_pos rfl]

theorem q96_ne_zero : q96.toNat ≠ 0 := by decide

/-- A floor that does not fit ends both roundings at MULDIV's overflow. -/
theorem amount1Delta_of_floor_overflow (ha : a.toNat ≠ 0) (hb : b.toNat ≠ 0)
    (hbig : 2 ^ 256 ≤ amount1 false a.toNat b.toNat l.toNat) :
    amount1Delta a b l up = .error .muldivOverflow := by
  rw [amount1_down_eq] at hbig
  have hover := mulDiv_of_overflow q96_ne_zero hbig
  rw [amount1Delta_of_priced ha hb, amount1Between, mulDivRoundingUp_of_error hover, hover,
    ite_self]

/-- Where only the ceiling does not fit, rounding up fails at its increment (log 35). -/
theorem amount1Delta_of_ceil_overflow (ha : a.toNat ≠ 0) (hb : b.toNat ≠ 0)
    (hfloor : amount1 false a.toNat b.toNat l.toNat < 2 ^ 256)
    (hceil : 2 ^ 256 ≤ amount1 true a.toNat b.toNat l.toNat) :
    amount1Delta a b l true = .error .muldivruIncrement := by
  rw [amount1_down_eq] at hfloor
  rw [amount1_up_eq] at hceil
  rw [amount1Delta_of_priced ha hb, amount1Between, if_pos rfl]
  exact mulDivRoundingUp_of_ceil_overflow q96_ne_zero hfloor hceil

end

/-! #### The signed amounts: the rounding and the magnitude go by the sign -/

section
variable {a b r : U256}

/-- The magnitude of a change that is not negative is the pattern itself. -/
theorem low128_toNat_of_nonneg (h : 0 ≤ deltaOf r) :
    negative128 (low128 r) = false ∧ (low128 r).toNat = (deltaOf r).natAbs := by
  have hneg : negative128 (low128 r) = false := by
    rw [negative128, BitVec.msb_eq_toInt]
    exact decide_eq_false (Int.not_lt.2 h)
  refine ⟨hneg, ?_⟩
  rw [deltaOf, ← low128, BitVec.toInt_eq_toNat_of_msb hneg, Int.natAbs_natCast]

/-- The magnitude of a negative change is the negated pattern, that of -2^127 included
(45_sqrt_price_math.md R145). -/
theorem magnitude128_toNat_of_neg (h : ¬ 0 ≤ deltaOf r) :
    negative128 (low128 r) = true ∧
      (magnitude128 (low128 r)).toNat = (deltaOf r).natAbs := by
  have hneg : negative128 (low128 r) = true := by
    rw [negative128, BitVec.msb_eq_toInt]
    exact decide_eq_true (Int.lt_of_not_ge h)
  refine ⟨hneg, ?_⟩
  have hlt := (low128 r).isLt
  rw [deltaOf, ← low128, BitVec.toInt_eq_toNat_cond] at h ⊢
  rw [BitVec.toNat_neg]
  split at h <;> omega

theorem signedAmount0Delta_of_nonneg (h : 0 ≤ deltaOf r) :
    signedAmount0Delta a b (low128 r) = amount0Delta a b (low128 r) true :=
  if_neg (by rw [(low128_toNat_of_nonneg h).1]; exact Bool.false_ne_true)

theorem signedAmount0Delta_of_neg (h : ¬ 0 ≤ deltaOf r) :
    signedAmount0Delta a b (low128 r) =
      (amount0Delta a b (magnitude128 (low128 r)) false).map negW :=
  if_pos (magnitude128_toNat_of_neg h).1

theorem signedAmount1Delta_of_nonneg (h : 0 ≤ deltaOf r) :
    signedAmount1Delta a b (low128 r) = amount1Delta a b (low128 r) true :=
  if_neg (by rw [(low128_toNat_of_nonneg h).1]; exact Bool.false_ne_true)

theorem signedAmount1Delta_of_neg (h : ¬ 0 ≤ deltaOf r) :
    signedAmount1Delta a b (low128 r) =
      (amount1Delta a b (magnitude128 (low128 r)) false).map negW :=
  if_pos (magnitude128_toNat_of_neg h).1

/-- The negated pattern of an amount is the pattern of the negated amount, with no range check
(45_sqrt_price_math.md R145). -/
theorem negW_ofNat (n : Nat) : negW (BitVec.ofNat 256 n) = BitVec.ofInt 256 (-(n : Int)) := by
  rw [BitVec.ofInt_neg, BitVec.ofInt_natCast]

theorem signedAmount0Delta_of_priced (ha : a.toNat ≠ 0) (hb : b.toNat ≠ 0) :
    signedAmount0Delta a b (low128 r) = .ok (BitVec.ofInt 256
      (if 0 ≤ deltaOf r then (amount0 true a.toNat b.toNat (deltaOf r).natAbs : Int)
        else -(amount0 false a.toNat b.toNat (deltaOf r).natAbs : Int))) := by
  split
  · rw [signedAmount0Delta_of_nonneg ‹_›, amount0Delta_of_priced ha hb,
      (low128_toNat_of_nonneg ‹_›).2, BitVec.ofInt_natCast]
  · rw [signedAmount0Delta_of_neg ‹_›, amount0Delta_of_priced ha hb,
      (magnitude128_toNat_of_neg ‹_›).2, cmd_map_ok, negW_ofNat]

theorem signedAmount1Delta_of_fits (ha : a.toNat ≠ 0) (hb : b.toNat ≠ 0)
    (hfit : amount1 (decide (0 ≤ deltaOf r)) a.toNat b.toNat (deltaOf r).natAbs < 2 ^ 256) :
    signedAmount1Delta a b (low128 r) = .ok (BitVec.ofInt 256
      (if 0 ≤ deltaOf r then (amount1 true a.toNat b.toNat (deltaOf r).natAbs : Int)
        else -(amount1 false a.toNat b.toNat (deltaOf r).natAbs : Int))) := by
  split
  · have hmag := (low128_toNat_of_nonneg ‹_›).2
    rw [decide_eq_true ‹_›, ← hmag] at hfit
    rw [signedAmount1Delta_of_nonneg ‹_›, amount1Delta_of_fits ha hb hfit, hmag,
      BitVec.ofInt_natCast]
  · have hmag := (magnitude128_toNat_of_neg ‹_›).2
    rw [decide_eq_false ‹_›, ← hmag] at hfit
    rw [signedAmount1Delta_of_neg ‹_›, amount1Delta_of_fits ha hb hfit, hmag, cmd_map_ok,
      negW_ofNat]

theorem signedAmount0Delta_of_price_zero (h : a.toNat = 0 ∨ b.toNat = 0) :
    signedAmount0Delta a b (low128 r) = .error .delta0PriceZero := by
  by_cases hsign : 0 ≤ deltaOf r
  · rw [signedAmount0Delta_of_nonneg hsign, amount0Delta_of_price_zero h]
  · rw [signedAmount0Delta_of_neg hsign, amount0Delta_of_price_zero h, cmd_map_error]

theorem signedAmount1Delta_of_price_zero (h : a.toNat = 0 ∨ b.toNat = 0) :
    signedAmount1Delta a b (low128 r) = .error .delta1PriceZero := by
  by_cases hsign : 0 ≤ deltaOf r
  · rw [signedAmount1Delta_of_nonneg hsign, amount1Delta_of_price_zero h]
  · rw [signedAmount1Delta_of_neg hsign, amount1Delta_of_price_zero h, cmd_map_error]

theorem signedAmount1Delta_of_floor_overflow (ha : a.toNat ≠ 0) (hb : b.toNat ≠ 0)
    (hbig : 2 ^ 256 ≤ amount1 false a.toNat b.toNat (deltaOf r).natAbs) :
    signedAmount1Delta a b (low128 r) = .error .muldivOverflow := by
  by_cases hsign : 0 ≤ deltaOf r
  · rw [← (low128_toNat_of_nonneg hsign).2] at hbig
    rw [signedAmount1Delta_of_nonneg hsign, amount1Delta_of_floor_overflow ha hb hbig]
  · rw [← (magnitude128_toNat_of_neg hsign).2] at hbig
    rw [signedAmount1Delta_of_neg hsign, amount1Delta_of_floor_overflow ha hb hbig, cmd_map_error]

theorem signedAmount1Delta_of_ceil_overflow (ha : a.toNat ≠ 0) (hb : b.toNat ≠ 0)
    (hsign : 0 ≤ deltaOf r)
    (hfloor : amount1 false a.toNat b.toNat (deltaOf r).natAbs < 2 ^ 256)
    (hceil : 2 ^ 256 ≤ amount1 true a.toNat b.toNat (deltaOf r).natAbs) :
    signedAmount1Delta a b (low128 r) = .error .muldivruIncrement := by
  rw [← (low128_toNat_of_nonneg hsign).2] at hfloor hceil
  rw [signedAmount1Delta_of_nonneg hsign, amount1Delta_of_ceil_overflow ha hb hfloor hceil]

end

end Sys2Proof.Machine

/-! ### The obligations of 45_sqrt_price_math.md -/

namespace Sys2Proof.Machine

open Sys2Proof.Safety

/-- Settles O34: NEXTIN is NEXTA0.ADD behind its tests, and the word tests of R140 are those of the
true sum. -/
theorem priceAfterAmount0Added : Obligations.PriceAfterAmount0Added := by
  intro i s hi
  have hexec : exec i s = exec (.nexta0 true) s := by
    obtain rfl | ⟨rfl, hp, hl⟩ := hi
    · rfl
    · exact exec_nextin_of_priced true hp hl
  simp only [hexec, ← low128_toNat]
  exact ⟨fun ha => exec_completed_of_result (nextFromAmount0_of_zero ha true) rfl rfl,
    fun ha hsum => exec_faulted_of_result (nextFromAmount0_add_of_zero_sum ha hsum) rfl rfl,
    fun ha hsum hfit =>
      exec_completed_of_result (nextFromAmount0_add_of_exact ha hsum hfit) rfl rfl,
    fun ha hbig hdiv =>
      exec_completed_of_result (nextFromAmount0_add_of_fallBack ha hbig hdiv) rfl rfl,
    fun ha hbig hdiv =>
      exec_faulted_of_result (nextFromAmount0_add_of_zero_divisor ha hbig hdiv) rfl rfl⟩

/-- Settles O35: NEXTOUT is NEXTA0.SUB behind its tests; where the divisor is not 0 only MULDIVRU
can fail. -/
theorem priceAfterAmount0Removed : Obligations.PriceAfterAmount0Removed := by
  intro i s hi
  have hexec : exec i s = exec (.nexta0 false) s := by
    obtain rfl | ⟨rfl, hp, hl⟩ := hi
    · rfl
    · exact exec_nextout_of_priced false hp hl
  simp only [hexec, ← low128_toNat]
  refine ⟨fun ha => exec_completed_of_result (nextFromAmount0_of_zero ha false) rfl rfl,
    fun ha hle => exec_faulted_of_result (nextFromAmount0_sub_of_le ha hle) rfl rfl,
    fun ha hlt hfit =>
      exec_completed_of_result (nextFromAmount0_sub_of_exact ha hlt hfit) rfl rfl,
    fun ha hlt hbig => ?_⟩
  have hfault := nextFromAmount0_sub_of_overflow ha hlt hbig
  split at hfault
  · rw [if_pos ‹_›]
    exact exec_faulted_of_result hfault rfl rfl
  · rw [if_neg ‹_›]
    exact exec_faulted_of_result hfault rfl rfl

/-- Settles O36: NEXTIN is NEXTA1.ADD behind its tests; the quotient is the exact floor in both its
forms, and the sum is tested before it is taken. -/
theorem priceAfterAmount1Added : Obligations.PriceAfterAmount1Added := by
  intro i s hi
  have hexec : exec i s = exec (.nexta1 true) s := by
    obtain rfl | ⟨rfl, hp, hl⟩ := hi
    · rfl
    · exact exec_nextin_of_priced false hp hl
  simp only [hexec, ← low128_toNat]
  exact ⟨fun hl hnarrow => exec_faulted_of_result
      (nextFromAmount1_add_of_error (amount1QuotientDown_of_zero hl hnarrow)) rfl rfl,
    fun hl hwide =>
      exec_faulted_of_result (nextFromAmount1_add_of_zero_of_wide hl hwide) rfl rfl,
    fun hl hfit => exec_completed_of_result (nextFromAmount1_add_of_exact hl hfit) rfl rfl,
    fun hl hfit hbig =>
      exec_faulted_of_result (nextFromAmount1_add_of_ceiling hl hfit hbig) rfl rfl,
    fun hl hbig => exec_faulted_of_result (nextFromAmount1_add_of_overflow hl hbig) rfl rfl⟩

/-- Settles O37: NEXTOUT is NEXTA1.SUB behind its tests; a ceiling that does not fit has a floor
that does not fit, so the increment never fails (`floor_overflow_of_ceil_overflow`). -/
theorem priceAfterAmount1Removed : Obligations.PriceAfterAmount1Removed := by
  intro i s hi
  have hexec : exec i s = exec (.nexta1 false) s := by
    obtain rfl | ⟨rfl, hp, hl⟩ := hi
    · rfl
    · exact exec_nextout_of_priced true hp hl
  simp only [hexec, ← low128_toNat]
  exact ⟨fun hl hnarrow => exec_faulted_of_result
      (nextFromAmount1_sub_of_error (amount1QuotientUp_of_zero hl hnarrow)) rfl rfl,
    fun hl hwide =>
      exec_faulted_of_result (nextFromAmount1_sub_of_zero_of_wide hl hwide) rfl rfl,
    fun hl hlt => exec_completed_of_result (nextFromAmount1_sub_of_exact hl hlt) rfl rfl,
    fun hl hle hfit => exec_faulted_of_result (nextFromAmount1_sub_of_le hl hle hfit) rfl rfl,
    fun hl hbig => exec_faulted_of_result (nextFromAmount1_sub_of_overflow hl hbig) rfl rfl⟩

/-- Settles O38: a command that succeeded has passed the two tests, and then its path's bound is
that of the exact quotient. -/
theorem nextPriceDirection : Obligations.NextPriceDirection := by
  refine fun s t hstatus => ⟨fun hexec hwrap => ?_, fun hexec => ?_, fun hexec => ?_,
    fun hexec => ?_⟩ <;>
    obtain ⟨-, -, hnext⟩ := cmd_bind_eq_ok.1 (result_of_status_ok hexec hstatus rfl)
  · exact nextFromAmount0_add_le hnext (by rwa [low128_toNat])
  · exact le_nextFromAmount1_add hnext
  · exact nextFromAmount1_sub_le hnext
  · exact le_nextFromAmount0_sub hnext

/-- Settles O39: the amount is at most `n1`, so it always fits. -/
theorem amt0ExactAmount : Obligations.Amt0ExactAmount := by
  intro s up ha hb
  rw [← low128_toNat]
  exact exec_completed_of_result
    (amount0Delta_of_priced (toNat_ne_zero ha) (toNat_ne_zero hb)) rfl rfl

/-- Settles O40: MULDIV and MULDIVRU are exact where the amount fits. -/
theorem amt1ExactAmount : Obligations.Amt1ExactAmount := by
  intro s up ha hb hfit
  rw [← low128_toNat] at hfit ⊢
  exact exec_completed_of_result
    (amount1Delta_of_fits (toNat_ne_zero ha) (toNat_ne_zero hb) hfit) rfl rfl

/-- Settles O41: by the sign of the change; the magnitude of -2^127 is an unsigned 128-bit word. -/
theorem samt0SignedAmount : Obligations.Samt0SignedAmount := fun _ ha hb =>
  exec_completed_of_result
    (signedAmount0Delta_of_priced (toNat_ne_zero ha) (toNat_ne_zero hb)) rfl rfl

/-- Settles O42: by the sign of the change, which also picks the rounding that has to fit. -/
theorem samt1SignedAmount : Obligations.Samt1SignedAmount := fun _ ha hb hfit =>
  exec_completed_of_result
    (signedAmount1Delta_of_fits (toNat_ne_zero ha) (toNat_ne_zero hb) hfit) rfl rfl

/-- Settles O43: the zero test comes first; past it MULDIV's overflow is that of the floor, in both
roundings, and only then can the increment fail. -/
theorem amountFaults : Obligations.AmountFaults := by
  intro s up
  simp only [← low128_toNat]
  refine ⟨fun hzero => ⟨?_, ?_, ?_, ?_⟩, fun ha hb hbig => ?_, fun ha hb hbig => ?_,
    fun ha hb hfloor hceil => ?_, fun ha hb hsign hfloor hceil => ?_⟩
  · exact exec_faulted_of_result (amount0Delta_of_price_zero hzero) rfl rfl
  · exact exec_faulted_of_result (signedAmount0Delta_of_price_zero hzero) rfl rfl
  · exact exec_faulted_of_result (amount1Delta_of_price_zero hzero) rfl rfl
  · exact exec_faulted_of_result (signedAmount1Delta_of_price_zero hzero) rfl rfl
  · exact exec_faulted_of_result (amount1Delta_of_floor_overflow ha hb hbig) rfl rfl
  · exact exec_faulted_of_result (signedAmount1Delta_of_floor_overflow ha hb hbig) rfl rfl
  · exact exec_faulted_of_result (amount1Delta_of_ceil_overflow ha hb hfloor hceil) rfl rfl
  · exact exec_faulted_of_result
      (signedAmount1Delta_of_ceil_overflow ha hb hsign hfloor hceil) rfl rfl

/-- Settles O33: by the two tests, the price first. -/
theorem nextinNextoutZeroFaults : Obligations.NextinNextoutZeroFaults := by
  refine fun s m => ⟨fun hp => ?_, fun hp hl => ?_⟩
  · have hcheck := checkPriceLiquidity_of_price_zero (l := low128 s.arg1) hp
    exact ⟨exec_nextin_of_check_error m hcheck, exec_nextout_of_check_error m hcheck⟩
  · have hcheck := checkPriceLiquidity_of_liquidity_zero hp ((low128_toNat s.arg1).trans hl)
    exact ⟨exec_nextin_of_check_error m hcheck, exec_nextout_of_check_error m hcheck⟩

end Sys2Proof.Machine
end

section
/-! ### The tick bitmap: BMPOS, FLIP, NEXTINIT

The compressed tick as an unbounded integer, which a word holds modulo 2^32; the searches in one
word of the bitmap; and what a command that reads the word port leaves (46_tick_bitmap.md). -/

namespace Sys2Proof.Machine

open Sys2Proof.Safety

/-! #### The end of a command that has read the word port -/

section
variable {i : Instr} {s : State}

/-- A command that succeeds after its read has spent one answer of the port (20_memory.md R40;
log 4). -/
theorem exec_eq_succeed_of_readsPort {out : Success} (hport : readsPort i s = true)
    (hout : commandOutcome i s = .ok out) : exec i s = .next (s.afterWordRead.succeed out) := by
  rw [exec_eq_ends, hport, hout, ends_ok]
  rfl

/-- A command whose read fails has spent that answer too (20_memory.md R38; log 4). -/
theorem exec_eq_faulted_of_readsPort {site : Site} (hport : readsPort i s = true)
    (hout : commandOutcome i s = .error site) :
    exec i s =
      .next (faulted { s with portAnswers := s.portAnswers.tail } (statusFault site)) := by
  rw [exec_eq_ends, hport, hout, ends_error]
  rfl

end

/-! #### A compressed tick, as an integer and as a word -/

/-- The word of a compressed tick does not see its multiples of 2^32 (46_tick_bitmap.md R160). -/
theorem wordOf_bmod (c : Int) : wordOf (c.bmod (2 ^ 32)) = wordOf c := by
  have hdiv : (c.bmod (2 ^ 32) / 256).bmod (2 ^ 16) = (c / 256).bmod (2 ^ 16) := by
    simp only [Int.bmod_def]
    omega
  apply BitVec.eq_of_toInt_eq
  rw [wordOf, wordOf, BitVec.toInt_ofInt, BitVec.toInt_ofInt, hdiv]

/-- Nor does its bit (46_tick_bitmap.md R160). -/
theorem bitOf_bmod (c : Int) : bitOf (c.bmod (2 ^ 32)) = bitOf c := by
  have hmod : c.bmod (2 ^ 32) % 256 = c % 256 := by
    rw [Int.bmod_def]
    omega
  rw [bitOf, bitOf, hmod]

theorem wordIndex_ofInt (c : Int) : wordIndex (BitVec.ofInt 32 c) = wordOf c := by
  rw [wordIndex_eq, BitVec.toInt_ofInt, wordOf_bmod]

theorem bitPosition_ofInt (c : Int) : (bitPosition (BitVec.ofInt 32 c)).toNat = bitOf c := by
  rw [bitPosition_toNat, BitVec.toInt_ofInt, bitOf_bmod]

theorem bitOf_lt (c : Int) : bitOf c < 256 := by
  rw [bitOf]
  omega

theorem bitMask_ofInt (c : Int) :
    bitMask (bitPosition (BitVec.ofInt 32 c)) = 1#256 <<< bitOf c := by
  rw [bitMask, bitPosition_ofInt]

/-- The mask of FLIP has the one bit of the compressed tick (46_tick_bitmap.md R164). -/
theorem getLsbD_one_shiftLeft_bitOf (c : Int) (b : Nat) :
    (1#256 <<< bitOf c).getLsbD b = decide (b = bitOf c) := by
  rw [← bitMask_ofInt, bitMask_getLsbD, bitPosition_ofInt]

/-- The word that holds the quotient holds the floor (46_tick_bitmap.md R163). -/
theorem compress_eq_ofInt {s : State} (hpos : 0 < tickOf s.arg1) :
    compress (low32 s.arg0) (low32 s.arg1) = BitVec.ofInt 32 (compressedOf s) := by
  have hquot : (compress (low32 s.arg0) (low32 s.arg1)).toInt = compressedOf s :=
    compress_toInt _ _ hpos
  rw [← hquot, BitVec.ofInt_toInt]

/-- A product with the spacing, taken modulo 2^32 and sign-extended, is the result of the exact
product (46_tick_bitmap.md R166). -/
theorem sext32_mul32_ofInt (c : Int) (r : U256) :
    sext32 (mul32 (BitVec.ofInt 32 c) (low32 r)) = tickResult (c * tickOf r) := by
  have hprod : mul32 (BitVec.ofInt 32 c) (low32 r) = BitVec.ofInt 32 (c * tickOf r) := by
    rw [BitVec.ofInt_mul, tickOf, BitVec.ofInt_toInt, low32]
  rw [hprod, sext32, BitVec.signExtend, BitVec.toInt_ofInt, tickResult]

theorem sub32_ofInt_ofNat (c : Int) (n : Nat) :
    sub32 (BitVec.ofInt 32 c) (BitVec.ofNat 32 n) = BitVec.ofInt 32 (c - n) := by
  rw [sub32, BitVec.sub_eq_add_neg, Int.sub_eq_add_neg, BitVec.ofInt_add, BitVec.ofInt_neg,
    BitVec.ofInt_natCast]

theorem add32_ofInt_ofNat (c : Int) (n : Nat) :
    add32 (BitVec.ofInt 32 c) (BitVec.ofNat 32 n) = BitVec.ofInt 32 (c + n) := by
  rw [BitVec.ofInt_add, BitVec.ofInt_natCast]

/-! #### BMPOS -/

theorem sext16_wordIndex_low32 (r : U256) :
    sext16 (wordIndex (low32 r)) = BitVec.ofInt 256 ((tickOf r / 256).bmod (2 ^ 16)) := by
  rw [sext16, BitVec.signExtend, wordIndex_eq, wordOf, BitVec.toInt_ofInt, low32, tickOf]

theorem zext8_bitPosition_low32 (r : U256) :
    zext8 (bitPosition (low32 r)) = BitVec.ofInt 256 (tickOf r % 256) := by
  have hcast : ((bitOf (tickOf r) : Nat) : Int) = tickOf r % 256 :=
    Int.toNat_of_nonneg (Int.emod_nonneg _ (by decide))
  rw [zext8, ← BitVec.ofNat_toNat, bitPosition_toNat, ← hcast, BitVec.ofInt_natCast, low32,
    tickOf]

/-! #### The test of the spacing -/

theorem spacingBad_of_nonpos {r : U256} (h : tickOf r ≤ 0) : spacingBad (low32 r) = true :=
  decide_eq_true h

theorem spacingBad_of_pos {r : U256} (h : 0 < tickOf r) : spacingBad (low32 r) = false :=
  decide_eq_false (Int.not_le.2 h)

/-! #### FLIP -/

section
variable {s : State}

theorem flipTarget_of_nonpos (h : tickOf s.arg1 ≤ 0) :
    flipTarget (low32 s.arg0) (low32 s.arg1) = .error .spacingNotPositive :=
  if_pos (spacingBad_of_nonpos h)

theorem flipTarget_of_mismatch (hpos : 0 < tickOf s.arg1)
    (hmod : tickOf s.arg0 % tickOf s.arg1 ≠ 0) :
    flipTarget (low32 s.arg0) (low32 s.arg1) = .error .spacingMismatch := by
  have hrem : rem32 (low32 s.arg0) (low32 s.arg1) ≠ 0#32 := fun hzero =>
    hmod (Int.emod_eq_zero_of_dvd ((rem32_eq_zero_iff _ _).1 hzero))
  rw [flipTarget, spacingBad_of_pos hpos, if_neg Bool.false_ne_true, if_pos hrem, raise_eq]

/-- Where the spacing divides the tick the exact division is the floor (46_tick_bitmap.md R163,
R164). -/
theorem flipTarget_of_multiple (hpos : 0 < tickOf s.arg1)
    (hmod : tickOf s.arg0 % tickOf s.arg1 = 0) :
    flipTarget (low32 s.arg0) (low32 s.arg1) = .ok (BitVec.ofInt 32 (compressedOf s)) := by
  rw [← compress_eq_ofInt hpos]
  exact flipTarget_eq_ok_iff.2 ⟨hpos, Int.dvd_of_emod_eq_zero hmod, compress_toInt _ _ hpos⟩

theorem readsPort_flip_of_error {site : Site}
    (h : flipTarget (low32 s.arg0) (low32 s.arg1) = .error site) : readsPort .flip s = false := by
  rw [readsPort, h]
  rfl

theorem commandOutcome_flip_of_error {site : Site}
    (h : flipTarget (low32 s.arg0) (low32 s.arg1) = .error site) :
    commandOutcome .flip s = .error site := by
  rw [commandOutcome, h, cmd_bind_error]

theorem readsPort_flip_of_multiple (hpos : 0 < tickOf s.arg1)
    (hmod : tickOf s.arg0 % tickOf s.arg1 = 0) : readsPort .flip s = true := by
  rw [readsPort, flipTarget_of_multiple hpos hmod]
  rfl

/-- Past its two checks FLIP's outcome is that of its word read (46_tick_bitmap.md R164). -/
theorem commandOutcome_flip_of_multiple (hpos : 0 < tickOf s.arg1)
    (hmod : tickOf s.arg0 % tickOf s.arg1 = 0) :
    commandOutcome .flip s =
      (s.wordRead (wordOf (compressedOf s))).map
        (flipStore (BitVec.ofInt 32 (compressedOf s))) := by
  rw [commandOutcome, flipTarget_of_multiple hpos hmod, cmd_bind_ok, wordIndex_ofInt]

/-- FLIP with a word read that answers (46_tick_bitmap.md R164). -/
theorem exec_flip_of_word {word : U256} (hpos : 0 < tickOf s.arg1)
    (hmod : tickOf s.arg0 % tickOf s.arg1 = 0)
    (hread : s.wordRead (wordOf (compressedOf s)) = .ok word) :
    exec .flip s = .next { completed s 0#256 0#256 0#256 0#256 with
      portAnswers := s.portAnswers.tail
      words := s.words.write (wordOf (compressedOf s))
        (word ^^^ (1#256 <<< bitOf (compressedOf s))) } := by
  have hout := commandOutcome_flip_of_multiple hpos hmod
  rw [hread, cmd_map_ok, flipStore, wordIndex_ofInt, bitMask_ofInt] at hout
  rw [exec_eq_succeed_of_readsPort (readsPort_flip_of_multiple hpos hmod) hout,
    State.succeed, statusOk_eq]
  rfl

end

/-- A second FLIP of the same bit restores W (46_tick_bitmap.md R164). -/
theorem write_xor_twice {m : Memory} (h : m.wf = true) (idx : I16) (mask : U256) :
    (m.write idx (m.read idx ^^^ mask)).write idx
        ((m.write idx (m.read idx ^^^ mask)).read idx ^^^ mask) = m := by
  rw [read_write_same h, write_write_same h, BitVec.xor_assoc, BitVec.xor_self, BitVec.xor_zero,
    write_read_self h]

/-- After one FLIP exactly the bits of the mask differ, in its word (46_tick_bitmap.md R164). -/
theorem write_xor_getLsbD_ne_iff {m : Memory} (h : m.wf = true) (idx other : I16) (mask : U256)
    (b : Nat) :
    (((m.write idx (m.read idx ^^^ mask)).read other).getLsbD b ≠ (m.read other).getLsbD b) ↔
      other = idx ∧ mask.getLsbD b = true := by
  by_cases hidx : other = idx
  · subst hidx
    rw [read_write_same h, BitVec.getLsbD_xor]
    cases mask.getLsbD b <;> simp
  · simp [read_write_other m _ hidx, hidx]

/-! #### The searches of NEXTINIT in one word -/

section
variable {c : Int} {word : U256} {i j : Nat}

theorem getLsbD_andW_maskLte (word : U256) (c : Int) (j : Nat) :
    (andW word (maskLte (bitPosition (BitVec.ofInt 32 c)))).getLsbD j =
      (word.getLsbD j && decide (j ≤ bitOf c)) := by
  rw [BitVec.getLsbD_and, maskLte_getLsbD, bitPosition_ofInt]

theorem getLsbD_andW_maskGt (word : U256) (c : Int) (j : Nat) :
    (andW word (maskGt (bitPosition (BitVec.ofInt 32 c)))).getLsbD j =
      (word.getLsbD j && (decide (bitOf c ≤ j) && decide (j < 256))) := by
  rw [BitVec.getLsbD_and, maskGt_getLsbD, bitPosition_ofInt]

theorem getLsbD_andW_maskLte_eq_false (h : j ≤ bitOf c → word.getLsbD j = false) :
    (andW word (maskLte (bitPosition (BitVec.ofInt 32 c)))).getLsbD j = false := by
  rw [getLsbD_andW_maskLte, Bool.and_eq_false_iff, decide_eq_false_iff_not]
  exact (Classical.em (j ≤ bitOf c)).imp h id

theorem getLsbD_andW_maskGt_eq_false (h : bitOf c ≤ j → j < 256 → word.getLsbD j = false) :
    (andW word (maskGt (bitPosition (BitVec.ofInt 32 c)))).getLsbD j = false := by
  rw [getLsbD_andW_maskGt, ← Bool.decide_and, Bool.and_eq_false_iff, decide_eq_false_iff_not]
  exact (Classical.em (bitOf c ≤ j ∧ j < 256)).imp (fun hj => h hj.1 hj.2) id

theorem ne_zero_of_getLsbD {x : U256} (h : x.getLsbD i = true) : x ≠ 0#256 := by
  rintro rfl
  exact Bool.false_ne_true (BitVec.getLsbD_zero ▸ h)

/-- The search at or below finds the highest set bit up to the tick's (46_tick_bitmap.md R166). -/
theorem foundLte_of_bit (hi : i ≤ bitOf c) (hset : word.getLsbD i = true)
    (habove : ∀ j, i < j → j ≤ bitOf c → word.getLsbD j = false) :
    foundLte (BitVec.ofInt 32 c) word =
      (BitVec.ofInt 32 (c - ((bitOf c : Int) - (i : Int))), true) := by
  have hbit : (andW word (maskLte (bitPosition (BitVec.ofInt 32 c)))).getLsbD i = true := by
    rw [getLsbD_andW_maskLte, hset, decide_eq_true hi, Bool.and_self]
  have hhigh := highestBit_unique hbit fun j hj => getLsbD_andW_maskLte_eq_false (habove j hj)
  rw [foundLte, if_pos (ne_zero_of_getLsbD hbit), hhigh, bitPosition_ofInt, sub32_ofInt_ofNat,
    Nat.cast_sub hi]

/-- With no set bit up to the tick's the search ends at the word's left edge (46_tick_bitmap.md
R166). -/
theorem foundLte_of_none (hnone : ∀ j, j ≤ bitOf c → word.getLsbD j = false) :
    foundLte (BitVec.ofInt 32 c) word = (BitVec.ofInt 32 (c - (bitOf c : Int)), false) := by
  have hzero : andW word (maskLte (bitPosition (BitVec.ofInt 32 c))) = 0#256 :=
    BitVec.eq_of_getLsbD_eq fun j _ =>
      (getLsbD_andW_maskLte_eq_false (hnone j)).trans BitVec.getLsbD_zero.symm
  rw [foundLte, if_neg (not_not.2 hzero), bitPosition_ofInt, sub32_ofInt_ofNat]

/-- The search above finds the lowest set bit from the successor's on (46_tick_bitmap.md R166;
90_conflicts.md C4). -/
theorem foundGt_of_bit (hi : bitOf c ≤ i) (hlast : i ≤ 255) (hset : word.getLsbD i = true)
    (hbelow : ∀ j, bitOf c ≤ j → j < i → word.getLsbD j = false) :
    foundGt (BitVec.ofInt 32 c) word =
      (BitVec.ofInt 32 (c + ((i : Int) - (bitOf c : Int))), true) := by
  have hbit : (andW word (maskGt (bitPosition (BitVec.ofInt 32 c)))).getLsbD i = true := by
    rw [getLsbD_andW_maskGt, hset, decide_eq_true hi, decide_eq_true (by omega), Bool.and_self,
      Bool.and_self]
  have hlow := lowestBit_unique hbit fun j hj =>
    getLsbD_andW_maskGt_eq_false fun hle _ => hbelow j hle hj
  rw [foundGt, if_pos (ne_zero_of_getLsbD hbit), hlow, bitPosition_ofInt, add32_ofInt_ofNat,
    Nat.cast_sub hi]

/-- With no set bit from the successor's on the search ends at the word's right edge
(46_tick_bitmap.md R166). -/
theorem foundGt_of_none (hnone : ∀ j, bitOf c ≤ j → j ≤ 255 → word.getLsbD j = false) :
    foundGt (BitVec.ofInt 32 c) word =
      (BitVec.ofInt 32 (c + (255 - (bitOf c : Int))), false) := by
  have hzero : andW word (maskGt (bitPosition (BitVec.ofInt 32 c))) = 0#256 :=
    BitVec.eq_of_getLsbD_eq fun j _ =>
      (getLsbD_andW_maskGt_eq_false fun hle hlt => hnone j hle (Nat.le_of_lt_succ hlt)).trans
        BitVec.getLsbD_zero.symm
  rw [foundGt, if_neg (not_not.2 hzero), bitPosition_ofInt, add32_ofInt_ofNat,
    Nat.cast_sub (Nat.le_of_lt_succ (bitOf_lt c)), Nat.cast_ofNat]

end

/-! #### NEXTINIT -/

/-- The compressed tick at which NEXTINIT starts its search, not yet taken modulo 2^32
(46_tick_bitmap.md R166). -/
def searchFrom (lte : Bool) (s : State) : Int :=
  if lte then compressedOf s else compressedOf s + 1

section
variable {s : State}

theorem searchStart_eq_ofInt (lte : Bool) (hpos : 0 < tickOf s.arg1) :
    searchStart lte (low32 s.arg0) (low32 s.arg1) = BitVec.ofInt 32 (searchFrom lte s) := by
  rw [searchStart, searchFrom, compress_eq_ofInt hpos]
  cases lte with
  | true => rfl
  | false => exact add32_ofInt_ofNat _ 1

theorem exec_nextinit_of_nonpos (lte : Bool) (h : tickOf s.arg1 ≤ 0) :
    exec (.nextinit lte) s = .next (faulted s 0x1134#32) := by
  refine exec_eq_faulted_of_error (site := .spacingNotPositive) ?_ ?_
  · rw [readsPort, spacingBad_of_nonpos h, Bool.not_true]
  · rw [commandOutcome, if_pos (spacingBad_of_nonpos h), raise_eq]

theorem readsPort_nextinit_of_pos (lte : Bool) (hpos : 0 < tickOf s.arg1) :
    readsPort (.nextinit lte) s = true := by
  rw [readsPort, spacingBad_of_pos hpos, Bool.not_false]

/-- Past its check of the spacing NEXTINIT's outcome is that of its word read (46_tick_bitmap.md
R166). -/
theorem commandOutcome_nextinit_of_pos (lte : Bool) (hpos : 0 < tickOf s.arg1) :
    commandOutcome (.nextinit lte) s =
      (s.wordRead (wordOf (searchFrom lte s))).map
        (searchResults lte (BitVec.ofInt 32 (searchFrom lte s)) (low32 s.arg1)) := by
  rw [commandOutcome, spacingBad_of_pos hpos, if_neg Bool.false_ne_true,
    searchStart_eq_ofInt lte hpos, wordIndex_ofInt]

/-- NEXTINIT with a word read that answers multiplies what its search found by the spacing
(46_tick_bitmap.md R166). -/
theorem exec_nextinit_of_found (lte : Bool) {found : Bool} {word : U256} {c : Int}
    (hpos : 0 < tickOf s.arg1) (hread : s.wordRead (wordOf (searchFrom lte s)) = .ok word)
    (hfound : (if lte then foundLte (BitVec.ofInt 32 (searchFrom lte s)) word
      else foundGt (BitVec.ofInt 32 (searchFrom lte s)) word) = (BitVec.ofInt 32 c, found)) :
    exec (.nextinit lte) s = .next
      { completed s (tickResult (c * tickOf s.arg1)) (ofBool found) 0#256 0#256 with
        portAnswers := s.portAnswers.tail } := by
  have hout := commandOutcome_nextinit_of_pos lte hpos
  rw [hread, cmd_map_ok, searchResults, hfound, sext32_mul32_ofInt] at hout
  rw [exec_eq_succeed_of_readsPort (readsPort_nextinit_of_pos lte hpos) hout,
    succeed_eq_completed _ rfl]
  rfl

end

end Sys2Proof.Machine

/-! ### The obligations of 46_tick_bitmap.md -/

namespace Sys2Proof.Machine

open Sys2Proof.Safety

/-- Settles O44: BMPOS has no check, and its two results are the parts of the floor division by
256. -/
theorem bmposWordAndBit : Obligations.BmposWordAndBit := by
  intro s
  rw [← sext16_wordIndex_low32, ← zext8_bitPosition_low32]
  exact congrArg Host.Outcome.next (succeed_eq_completed s rfl)

/-- Settles O45: the spacing, the multiple, then the word read, each past the one before. -/
theorem flipInvertsOneBit : Obligations.FlipInvertsOneBit := by
  refine fun s => ⟨fun word hpos hmod hread => exec_flip_of_word hpos hmod hread,
    fun hbad => ?_, fun hpos hmod => ?_, fun hpos hmod hread => ?_⟩
  · have htarget := flipTarget_of_nonpos hbad
    exact exec_eq_faulted_of_error (readsPort_flip_of_error htarget)
      (commandOutcome_flip_of_error htarget)
  · have htarget := flipTarget_of_mismatch hpos hmod
    exact exec_eq_faulted_of_error (readsPort_flip_of_error htarget)
      (commandOutcome_flip_of_error htarget)
  · refine exec_eq_faulted_of_readsPort (site := .wordReadError)
      (readsPort_flip_of_multiple hpos hmod) ?_
    rw [commandOutcome_flip_of_multiple hpos hmod, hread, cmd_map_error]

/-- Settles O46: the first FLIP keeps the operands, so the second inverts the same bit of the word
the first one wrote. -/
theorem flipTwice : Obligations.FlipTwice := by
  intro s hwf hport hpos hmod
  have hfirst := exec_flip_of_word hpos hmod (wordRead_of_no_answers hport _)
  refine ⟨_, _, hfirst,
    exec_flip_of_word hpos hmod (wordRead_of_no_answers (congrArg List.tail hport) _),
    rfl, rfl, write_xor_twice hwf _ _, fun idx b _ => ?_⟩
  refine (write_xor_getLsbD_ne_iff hwf _ idx _ b).trans (and_congr_right' ?_)
  rw [getLsbD_one_shiftLeft_bitOf, decide_eq_true_iff]

/-- Settles O47: the masked word's highest bit is the highest set bit up to the tick's. -/
theorem nextinitLteFindsBitAtOrBelow : Obligations.NextinitLteFindsBitAtOrBelow :=
  fun _ _ hpos hread =>
    ⟨fun _ hi hset habove =>
      exec_nextinit_of_found true hpos hread (foundLte_of_bit hi hset habove),
    fun hnone => exec_nextinit_of_found true hpos hread (foundLte_of_none hnone)⟩

/-- Settles O48: the masked word's lowest bit is the lowest set bit from the successor's on; a
successor of 2^31 wraps to a tick of the same word and bit. -/
theorem nextinitGtFindsBitAbove : Obligations.NextinitGtFindsBitAbove :=
  fun _ _ hpos hread =>
    ⟨fun _ hi hlast hset hbelow =>
      exec_nextinit_of_found false hpos hread (foundGt_of_bit hi hlast hset hbelow),
    fun hnone => exec_nextinit_of_found false hpos hread (foundGt_of_none hnone)⟩

/-- Settles O49: the spacing is tested before the word read, in both forms. -/
theorem nextinitFaults : Obligations.NextinitFaults := by
  refine fun s lte => ⟨exec_nextinit_of_nonpos lte, fun hpos hread => ?_⟩
  refine exec_eq_faulted_of_readsPort (site := .wordReadError)
    (readsPort_nextinit_of_pos lte hpos) ?_
  rw [commandOutcome_nextinit_of_pos lte hpos, searchFrom, hread, cmd_map_error]

end Sys2Proof.Machine
end

section
/-! ### Liquidity: ADDDELTA

The two tests for a wrapped result as facts about the exact sum, and what the wraparound sum of the
patterns is where that sum fits (47_liquidity_math.md R175). -/

namespace Sys2Proof.Machine

open Sys2Proof.Safety

/-! #### The tests for a wrapped result -/

/-- The sum stays at or above its first term exactly when it does not carry (47_liquidity_math.md
R175). -/
theorem le_add128_iff {x y : U128} : x ≤ add128 x y ↔ x.toNat + y.toNat < 2 ^ 128 := by
  have hx := x.isLt
  rw [BitVec.le_def, BitVec.toNat_add]
  omega

/-- The difference stays below its first term exactly when it does not borrow, since a magnitude is
not 0 (40_word_arithmetic.md R86; 47_liquidity_math.md R175). -/
theorem sub128_lt_iff {x m : U128} (hm : m.toNat ≠ 0) : sub128 x m < x ↔ m.toNat ≤ x.toNat := by
  have hx := x.isLt
  have hlt := m.isLt
  rw [BitVec.lt_def, BitVec.toNat_sub]
  omega

/-- Subtracting the magnitude of a change adds the change, modulo 2^128. -/
theorem sub128_magnitude128 (x : U128) (y : I128) : sub128 x (magnitude128 y) = add128 x y := by
  rw [sub128, magnitude128, BitVec.sub_eq_add_neg, BitVec.neg_neg]

/-! #### The answer by the exact sum -/

section
variable {x : U128} {r : U256}

theorem addDelta_of_nonneg (h : 0 ≤ deltaOf r) :
    addDelta x (low128 r) =
      if (x.toNat : Int) + deltaOf r < 2 ^ 128 then .ok (add128 x (low128 r))
      else .error .liquidityAboveMax := by
  obtain ⟨hsign, hmag⟩ := low128_toNat_of_nonneg h
  have hcarry : x ≤ add128 x (low128 r) ↔ (x.toNat : Int) + deltaOf r < 2 ^ 128 := by
    rw [le_add128_iff, hmag]
    omega
  rw [addDelta, hsign, if_neg Bool.false_ne_true, raise_eq]
  exact if_congr hcarry rfl rfl

theorem addDelta_of_neg (h : ¬ 0 ≤ deltaOf r) :
    addDelta x (low128 r) =
      if 0 ≤ (x.toNat : Int) + deltaOf r then .ok (add128 x (low128 r))
      else .error .liquidityBelowZero := by
  obtain ⟨hsign, hmag⟩ := magnitude128_toNat_of_neg h
  have hborrow : sub128 x (magnitude128 (low128 r)) < x ↔ 0 ≤ (x.toNat : Int) + deltaOf r := by
    rw [sub128_lt_iff (by omega), hmag]
    omega
  rw [addDelta, if_pos hsign, raise_eq, ← sub128_magnitude128]
  exact if_congr hborrow rfl rfl

/-- A change that is not negative cannot take the sum below 0, a negative one cannot take it to
2^128: each form needs only its own test (47_liquidity_math.md R175). -/
theorem addDelta_of_fits (hlow : 0 ≤ (x.toNat : Int) + deltaOf r)
    (hhigh : (x.toNat : Int) + deltaOf r < 2 ^ 128) :
    addDelta x (low128 r) = .ok (add128 x (low128 r)) := by
  by_cases h : 0 ≤ deltaOf r
  · rw [addDelta_of_nonneg h, if_pos hhigh]
  · rw [addDelta_of_neg h, if_pos hlow]

theorem addDelta_of_negative_sum (h : (x.toNat : Int) + deltaOf r < 0) :
    addDelta x (low128 r) = .error .liquidityBelowZero := by
  rw [addDelta_of_neg (by omega), if_neg (Int.not_le.2 h)]

theorem addDelta_of_overflow (h : 2 ^ 128 ≤ (x.toNat : Int) + deltaOf r) :
    addDelta x (low128 r) = .error .liquidityAboveMax := by
  have hx := x.isLt
  rw [addDelta_of_nonneg (by omega), if_neg (Int.not_lt.2 h)]

/-- The wraparound sum of the patterns is the exact sum modulo 2^128, for either sign of the
change. -/
theorem add128_low128_toNat (x : U128) (r : U256) :
    ((add128 x (low128 r)).toNat : Int) = ((x.toNat : Int) + deltaOf r) % 2 ^ 128 := by
  rw [BitVec.toNat_add, deltaOf, ← low128, BitVec.toInt_eq_toNat_cond]
  split <;> omega

/-- Zero-extended, the sum that fits is the pattern of the exact sum (10_state.md R17). -/
theorem zext128_add128_low128 (hlow : 0 ≤ (x.toNat : Int) + deltaOf r)
    (hhigh : (x.toNat : Int) + deltaOf r < 2 ^ 128) :
    zext128 (add128 x (low128 r)) = BitVec.ofInt 256 ((x.toNat : Int) + deltaOf r) := by
  rw [← Int.emod_eq_of_lt hlow hhigh, ← add128_low128_toNat, BitVec.ofInt_natCast,
    BitVec.ofNat_toNat, zext128]

end

end Sys2Proof.Machine

/-! ### The obligation of 47_liquidity_math.md -/

namespace Sys2Proof.Machine

open Sys2Proof.Safety

/-- Settles O50: the tests for a wrapped result are the two bounds of the exact sum, by the sign of
the change, and within them the wraparound sum is exact. -/
theorem adddeltaExactSum : Obligations.AdddeltaExactSum := by
  intro s
  simp only [← low128_toNat]
  refine ⟨fun hlow hhigh => ?_, fun hneg => ?_, fun hover => ?_⟩
  · refine exec_eq_completed_of_oneResult rfl ?_
    rw [commandOutcome, addDelta_of_fits hlow hhigh, cmd_map_ok, zext128_add128_low128 hlow hhigh]
  · refine exec_eq_faulted_of_error (site := .liquidityBelowZero) rfl ?_
    rw [commandOutcome, addDelta_of_negative_sum hneg, cmd_map_error]
  · refine exec_eq_faulted_of_error (site := .liquidityAboveMax) rfl ?_
    rw [commandOutcome, addDelta_of_overflow hover, cmd_map_error]

end Sys2Proof.Machine
end


section
/-! ### The swap step: SWAPSTEP

The next price of a swap step and, from it, the amounts and the fee. A step that stops short of its
target calls NEXTIN or NEXTOUT with less than the amount of the whole distance; that bound keeps the
next price between the two prices, and most faults of the functions it calls away
(48_swap_step.md R180 to R185). -/

namespace Sys2Proof.Machine

open Sys2Proof.Safety

/-! #### The amounts between two prices, as bounds on the next price -/

section
variable {lo hi p q l a n k : Nat}

theorem amount0_comm (up : Bool) (p q l : Nat) : amount0 up p q l = amount0 up q p l := by
  rw [amount0, amount0, Nat.max_comm, Nat.min_comm]

/-- An amount of token0 in covers the way between two prices exactly when the lower one is at least
the exact next price of R140 (45_sqrt_price_math.md R140, R143). -/
theorem amount0_up_le_iff (hlo : 0 < lo) (hle : lo ≤ hi) :
    amount0 true lo hi l ≤ a ↔ l * 2 ^ 96 * hi ≤ lo * (l * 2 ^ 96 + hi * a) := by
  obtain ⟨gap, rfl⟩ := Nat.exists_eq_add_of_le hle
  generalize hn : l * 2 ^ 96 = n
  have hsum : lo * (n + (lo + gap) * a) = n * lo + (lo + gap) * (lo * a) := by ring
  rw [amount0, hn, quot, quot, if_pos rfl, if_pos rfl, Nat.max_eq_right hle, Nat.min_eq_left hle,
    ceilQ_le_iff hlo, ceilQ_le_iff (Nat.add_pos_left hlo gap), Nat.add_sub_cancel_left, hsum,
    Nat.mul_add, Nat.add_le_add_iff_left]

/-- An amount of token0 out is at most that of a distance in these terms (45_sqrt_price_math.md
R143). -/
theorem le_amount0_down_iff (hlo : 0 < lo) (hle : lo ≤ hi) :
    a ≤ amount0 false lo hi l ↔ a * lo * hi ≤ l * 2 ^ 96 * (hi - lo) := by
  rw [amount0, quot, quot, if_neg Bool.false_ne_true, if_neg Bool.false_ne_true,
    Nat.max_eq_right hle, Nat.min_eq_left hle, Nat.le_div_iff_mul_le hlo,
    Nat.le_div_iff_mul_le (hlo.trans_le hle)]

theorem amount1_up_le_iff :
    amount1 true p q l ≤ a ↔ l * (max p q - min p q) ≤ 2 ^ 96 * a := by
  rw [amount1, quot, if_pos rfl, ceilQ_le_iff (Nat.two_pow_pos 96)]

theorem le_amount1_down_iff :
    a ≤ amount1 false p q l ↔ a * 2 ^ 96 ≤ l * (max p q - min p q) := by
  rw [amount1, quot, if_neg Bool.false_ne_true, Nat.le_div_iff_mul_le (Nat.two_pow_pos 96)]

theorem amount0_le (up : Bool) (hp : p ≠ 0) (hq : q ≠ 0) : amount0 up p q l ≤ l * 2 ^ 96 :=
  (quot_le up _ (by omega)).trans (quot_gap_le up _ _ _ (Nat.sub_le _ _) (by omega))

/-- The fall-back's quotient, its divisor not wrapped, is at least the exact next price
(45_sqrt_price_math.md R140). -/
theorem fallBack_covers (n1 price : Nat) {amount : Nat} (ha : amount ≠ 0) :
    n1 * price ≤ ceilQ n1 (n1 / price + amount) * (n1 + price * amount) := by
  have hdiv : 0 < n1 / price + amount := Nat.add_pos_right _ (Nat.pos_of_ne_zero ha)
  have hceil := (ceilQ_le_iff (n := n1) hdiv).1 le_rfl
  have hfloor := Nat.div_mul_le_self n1 price
  generalize ceilQ n1 (n1 / price + amount) = next at hceil ⊢
  calc n1 * price ≤ (n1 / price + amount) * next * price := Nat.mul_le_mul_right _ hceil
    _ = next * (n1 / price * price + price * amount) := by ring
    _ ≤ next * (n1 + price * amount) := Nat.mul_le_mul_left next (Nat.add_le_add_right hfloor _)

/-- Where one unit more than the amount of token0 out still stays within the distance to `t`, the
divisor of the remove form is at least the price, and its quotient at most `t` and at most `n1`
(45_sqrt_price_math.md R140). -/
theorem removed_bounds {n1 price amount t : Nat} (hp : price ≠ 0) (hle : price ≤ t)
    (hgap : (amount + 1) * price * t ≤ n1 * (t - price)) :
    amount * price + price ≤ n1 ∧ ceilQ (n1 * price) (n1 - amount * price) ≤ t ∧
      ceilQ (n1 * price) (n1 - amount * price) ≤ n1 := by
  obtain ⟨gap, rfl⟩ := Nat.exists_eq_add_of_le hle
  rw [Nat.add_sub_cancel_left] at hgap
  have hdivisor : amount * price + price ≤ n1 := by
    refine Nat.le_of_mul_le_mul_right ?_ (show 0 < price + gap by omega)
    calc (amount * price + price) * (price + gap) = (amount + 1) * price * (price + gap) := by ring
      _ ≤ n1 * gap := hgap
      _ ≤ n1 * (price + gap) := Nat.mul_le_mul_left n1 (Nat.le_add_left gap _)
  refine ⟨hdivisor, ?_⟩
  obtain ⟨left, rfl⟩ := Nat.exists_eq_add_of_le hdivisor
  rw [Nat.add_assoc (amount * price), Nat.add_sub_cancel_left, ceilQ_le_iff (by omega),
    ceilQ_le_iff (by omega)]
  constructor
  · nlinarith only [hgap]
  · rw [Nat.mul_comm]
    exact Nat.mul_le_mul_right _ (Nat.le_add_right price left)

end

/-! #### The next price for less than the amount of the whole distance -/

section
variable {price amount : U256} {l : U128}

/-- Where the fall-back's divisor does not wrap, adding token0 has an answer, at least the exact
next price and at most the price (45_sqrt_price_math.md R136, R140). -/
theorem nextFromAmount0_add_covers (hp : price.toNat ≠ 0) (hl : l.toNat ≠ 0)
    (hwrap : l.toNat * 2 ^ 96 / price.toNat + amount.toNat < 2 ^ 256) :
    ∃ next, nextFromAmount0 price l amount true = .ok next ∧ next.toNat ≤ price.toNat ∧
      l.toNat * 2 ^ 96 * price.toNat ≤
        next.toNat * (l.toNat * 2 ^ 96 + price.toNat * amount.toNat) := by
  suffices h : ∃ next, nextFromAmount0 price l amount true = .ok next ∧
      l.toNat * 2 ^ 96 * price.toNat ≤
        next.toNat * (l.toNat * 2 ^ 96 + price.toNat * amount.toNat) by
    obtain ⟨next, hnext, hcover⟩ := h
    exact ⟨next, hnext, nextFromAmount0_add_le hnext hwrap, hcover⟩
  by_cases ha : amount.toNat = 0
  · refine ⟨price, nextFromAmount0_of_zero ha true, ?_⟩
    rw [ha, Nat.mul_zero, Nat.add_zero, Nat.mul_comm]
  by_cases hfit : l.toNat * 2 ^ 96 + amount.toNat * price.toNat < 2 ^ 256
  · have hsum : l.toNat * 2 ^ 96 + amount.toNat * price.toNat ≠ 0 :=
      Nat.ne_of_gt (Nat.add_pos_left (by omega) _)
    have hle := ceilQ_price_le (l.toNat * 2 ^ 96) price.toNat _ hsum
    refine ⟨_, nextFromAmount0_add_of_exact ha hsum hfit, ?_⟩
    rw [toNat_ofNat_of_lt (hle.trans_lt price.isLt), Nat.mul_comm price.toNat amount.toNat,
      Nat.mul_comm (ceilQ _ _)]
    exact (ceilQ_le_iff (Nat.pos_of_ne_zero hsum)).1 le_rfl
  · have hdiv : (l.toNat * 2 ^ 96 / price.toNat + amount.toNat) % 2 ^ 256 ≠ 0 := by
      rw [Nat.mod_eq_of_lt hwrap]
      exact Nat.ne_of_gt (Nat.add_pos_right _ (Nat.pos_of_ne_zero ha))
    refine ⟨_, nextFromAmount0_add_of_fallBack ha (Nat.le_of_not_lt hfit) hdiv, ?_⟩
    rw [Nat.mod_eq_of_lt hwrap,
      toNat_ofNat_of_lt ((ceilQ_fallBack_le ha hp).trans_lt price.isLt)]
    exact fallBack_covers _ _ ha

/-- Removing token0, where a price `t` lies beyond the next one: the answer is at most `t`, and at
most `n1` (48_swap_step.md R183, the row of SITE `0x0C`). -/
theorem nextFromAmount0_sub_of_lt_amount0 {t : Nat} (hp : price.toNat ≠ 0) (hle : price.toNat ≤ t)
    (ht : t < 2 ^ 256) (ha : amount.toNat ≠ 0)
    (hlt : amount.toNat < amount0 false price.toNat t l.toNat) :
    ∃ next, nextFromAmount0 price l amount false = .ok next ∧ next.toNat ≤ t ∧
      next.toNat ≤ l.toNat * 2 ^ 96 := by
  obtain ⟨hdivisor, hle_t, hle_n⟩ := removed_bounds hp hle
    ((le_amount0_down_iff (Nat.pos_of_ne_zero hp) hle).1 (Nat.succ_le_of_lt hlt))
  have hfit := hle_t.trans_lt ht
  refine ⟨_, nextFromAmount0_sub_of_exact ha (by omega) hfit, ?_⟩
  rw [toNat_ofNat_of_lt hfit]
  exact ⟨hle_t, hle_n⟩

/-- Adding token1, where a price `t` lies beyond the way the amount pays for: the quotient stays
short of the distance (48_swap_step.md R183). -/
theorem quotient_lt_of_lt_amount1 {t a : Nat} (hle : price.toNat ≤ t)
    (hlt : a < amount1 true t price.toNat l.toNat) :
    l.toNat ≠ 0 ∧ price.toNat + a * 2 ^ 96 / l.toNat < t := by
  have hgap := mt amount1_up_le_iff.2 (Nat.not_le.2 hlt)
  rw [Nat.max_eq_left hle, Nat.min_eq_right hle, Nat.not_le, Nat.mul_comm, Nat.mul_comm l.toNat]
    at hgap
  have hl : l.toNat ≠ 0 := fun h => by rw [h] at hgap; omega
  have := (Nat.div_lt_iff_lt_mul (Nat.pos_of_ne_zero hl)).2 hgap
  exact ⟨hl, by omega⟩

/-- Removing token1, where a price `t` lies beyond the next one: the quotient is at most the
distance (48_swap_step.md R183, the row of SITE `0x0E`). -/
theorem quotient_le_of_lt_amount1 {t a : Nat} (hle : t ≤ price.toNat)
    (hlt : a < amount1 false t price.toNat l.toNat) :
    l.toNat ≠ 0 ∧ t + ceilQ (a * 2 ^ 96) l.toNat ≤ price.toNat := by
  have hgap := le_amount1_down_iff.1 (Nat.succ_le_of_lt hlt)
  rw [Nat.max_eq_right hle, Nat.min_eq_left hle] at hgap
  have hl : l.toNat ≠ 0 := fun h => by rw [h] at hgap; omega
  have := (ceilQ_le_iff (Nat.pos_of_ne_zero hl)).2
    ((Nat.mul_le_mul_right (2 ^ 96) (Nat.le_succ a)).trans hgap)
  exact ⟨hl, by omega⟩

/-- Past the zero tests the next price of an amount in is that of the add forms
(45_sqrt_price_math.md R138). -/
theorem nextPriceFromInput_of_priced (zeroForOne : Bool) (hp : price ≠ 0#256) (hl : l.toNat ≠ 0) :
    nextPriceFromInput price l amount zeroForOne =
      if zeroForOne then nextFromAmount0 price l amount true
      else nextFromAmount1 price l amount true := by
  rw [nextPriceFromInput, checkPriceLiquidity_of_priced hp hl, cmd_bind_ok]

/-- Past the zero tests the next price of an amount out is that of the remove forms
(45_sqrt_price_math.md R139). -/
theorem nextPriceFromOutput_of_priced (zeroForOne : Bool) (hp : price ≠ 0#256) (hl : l.toNat ≠ 0) :
    nextPriceFromOutput price l amount zeroForOne =
      if zeroForOne then nextFromAmount1 price l amount false
      else nextFromAmount0 price l amount false := by
  rw [nextPriceFromOutput, checkPriceLiquidity_of_priced hp hl, cmd_bind_ok]

end

/-! #### The terms of a swap step over natural numbers -/

section
variable {s : State} {p q : U256}

theorem exactIn_swapOperands (s : State) : exactIn s.swapOperands = !s.arg3.msb := rfl

theorem liquidity_toNat (s : State) : (low128 s.arg2).toNat = swapLiquidity s :=
  low128_toNat s.arg2

theorem feePips_toNat (s : State) : (zext32 s.swapOperands.feePips).toNat = feeOf s := by
  have hlt := (low32 s.arg4).isLt
  calc (zext32 (low32 s.arg4)).toNat = (low32 s.arg4).toNat := by
        rw [zext32, BitVec.toNat_setWidth, Nat.mod_eq_of_lt (hlt.trans (by decide))]
    _ = feeOf s := BitVec.toNat_setWidth ..

theorem feeDenominator_toNat : feeDenominator.toNat = 1000000 := rfl

/-- The wrapped difference is the wrapped difference of R180 (48_swap_step.md R182). -/
theorem feeCompl_toNat (s : State) : (feeCompl s.swapOperands).toNat = feeComplOf s := by
  have hlt := (zext32 s.swapOperands.feePips).isLt
  rw [feePips_toNat] at hlt
  rw [feeCompl, BitVec.toNat_sub, feePips_toNat, feeDenominator_toNat, feeComplOf]
  congr 1
  omega

/-- A legal fee leaves a part of the remainder (70_reset_and_hazards.md R229). -/
theorem feeComplOf_of_legal (h : feeOf s < 1000000) : feeComplOf s = 1000000 - feeOf s := by
  rw [feeComplOf]
  omega

/-- The magnitude of a negative remainder, -2^255 included (48_swap_step.md R182). -/
theorem wanted_toNat (hout : s.arg3.msb = true) : (wanted s.swapOperands).toNat = wantOf s := by
  have hbig := BitVec.msb_eq_true_iff_two_mul_ge.1 hout
  have hneg : (wanted s.swapOperands).toNat = (2 ^ 256 - s.arg3.toNat) % 2 ^ 256 :=
    BitVec.toNat_neg ..
  rw [hneg, wantOf]
  omega

theorem wantOf_lt (hout : s.arg3.msb = true) : wantOf s < 2 ^ 256 :=
  (wanted_toNat hout).symm.trans_lt (BitVec.isLt _)

theorem wanted_ne_zero (hout : s.arg3.msb = true) : (wanted s.swapOperands).toNat ≠ 0 := by
  have hlt := s.arg3.isLt
  rw [wanted_toNat hout, wantOf]
  omega

theorem swapDown_iff : swapDown s = true ↔ s.arg1.toNat < s.arg0.toNat := decide_eq_true_iff

theorem not_swapDown_iff : swapDown s = false ↔ s.arg0.toNat ≤ s.arg1.toNat := by
  rw [swapDown, decide_eq_false_iff_not, Nat.not_lt]

theorem stepIn_of_down (h : swapDown s = true) (p q : Nat) :
    stepIn s p q = amount0 true p q (swapLiquidity s) := by rw [stepIn, swapIn, if_pos h]

theorem stepIn_of_up (h : swapDown s = false) (p q : Nat) :
    stepIn s p q = amount1 true p q (swapLiquidity s) := by
  rw [stepIn, swapIn, if_neg (Bool.not_eq_true _ ▸ h)]

theorem stepOut_of_down (h : swapDown s = true) (p q : Nat) :
    stepOut s p q = amount1 false p q (swapLiquidity s) := by rw [stepOut, swapOut, if_pos h]

theorem stepOut_of_up (h : swapDown s = false) (p q : Nat) :
    stepOut s p q = amount0 false p q (swapLiquidity s) := by
  rw [stepOut, swapOut, if_neg (Bool.not_eq_true _ ▸ h)]

/-! #### The two amounts of a swap step -/

/-- The site of a rounded-up quotient `ceil(n / d)`, `d != 0`, that does not fit 256 bits
(43_full_math.md R108). -/
def ceilSite (n d : Nat) : Site :=
  if 2 ^ 256 ≤ n / d then .muldivOverflow else .muldivruIncrement

theorem statusFault_ceilSite (n d : Nat) : statusFault (ceilSite n d) = ceilFault n d := by
  rw [ceilSite, ceilFault]
  split <;> rfl

theorem swapAmountIn_of_down (h : swapDown s = true) (p q : U256) :
    swapAmountIn s.swapOperands p q = amount0Delta p q (low128 s.arg2) true := if_pos h

theorem swapAmountIn_of_up (h : swapDown s = false) (p q : U256) :
    swapAmountIn s.swapOperands p q = amount1Delta p q (low128 s.arg2) true :=
  if_neg (Bool.not_eq_true _ ▸ h)

theorem swapAmountOut_of_down (h : swapDown s = true) (p q : U256) :
    swapAmountOut s.swapOperands p q = amount1Delta p q (low128 s.arg2) false := if_pos h

theorem swapAmountOut_of_up (h : swapDown s = false) (p q : U256) :
    swapAmountOut s.swapOperands p q = amount0Delta p q (low128 s.arg2) false :=
  if_neg (Bool.not_eq_true _ ▸ h)

/-- The amount in has a value exactly when neither price is 0 and it fits, and which
(48_swap_step.md R181). -/
theorem swapAmountIn_eq_ok_iff {v : U256} :
    swapAmountIn s.swapOperands p q = .ok v ↔
      p.toNat ≠ 0 ∧ q.toNat ≠ 0 ∧ v.toNat = stepIn s p.toNat q.toNat := by
  cases h : swapDown s
  · rw [swapAmountIn_of_up h, stepIn_of_up h, amount1Delta_eq_ok_iff, low128_toNat, swapLiquidity]
  · rw [swapAmountIn_of_down h, stepIn_of_down h, amount0Delta_eq_ok_iff, low128_toNat,
      swapLiquidity]

/-- The amount out, likewise. -/
theorem swapAmountOut_eq_ok_iff {v : U256} :
    swapAmountOut s.swapOperands p q = .ok v ↔
      p.toNat ≠ 0 ∧ q.toNat ≠ 0 ∧ v.toNat = stepOut s p.toNat q.toNat := by
  cases h : swapDown s
  · rw [swapAmountOut_of_up h, stepOut_of_up h, amount0Delta_eq_ok_iff, low128_toNat, swapLiquidity]
  · rw [swapAmountOut_of_down h, stepOut_of_down h, amount1Delta_eq_ok_iff, low128_toNat,
      swapLiquidity]

theorem swapAmountIn_of_fits (hp : p ≠ 0#256) (hq : q ≠ 0#256)
    (hfit : stepIn s p.toNat q.toNat < 2 ^ 256) :
    swapAmountIn s.swapOperands p q = .ok (BitVec.ofNat 256 (stepIn s p.toNat q.toNat)) :=
  swapAmountIn_eq_ok_iff.2 ⟨toNat_ne_zero hp, toNat_ne_zero hq, toNat_ofNat_of_lt hfit⟩

theorem swapAmountOut_of_fits (hp : p ≠ 0#256) (hq : q ≠ 0#256)
    (hfit : stepOut s p.toNat q.toNat < 2 ^ 256) :
    swapAmountOut s.swapOperands p q = .ok (BitVec.ofNat 256 (stepOut s p.toNat q.toNat)) :=
  swapAmountOut_eq_ok_iff.2 ⟨toNat_ne_zero hp, toNat_ne_zero hq, toNat_ofNat_of_lt hfit⟩

/-- Two prices that are not both other than 0, as the deltas test them. -/
theorem zero_of_not_priced (h : ¬(p ≠ 0#256 ∧ q ≠ 0#256)) : q.toNat = 0 ∨ p.toNat = 0 := by
  rw [toNat_eq_zero_iff, toNat_eq_zero_iff]
  tauto

theorem swapAmountIn_of_price_zero (h : p.toNat = 0 ∨ q.toNat = 0) :
    swapAmountIn s.swapOperands p q =
      .error (if swapDown s then .delta0PriceZero else .delta1PriceZero) := by
  cases hdown : swapDown s
  · rw [swapAmountIn_of_up hdown, amount1Delta_of_price_zero h, if_neg Bool.false_ne_true]
  · rw [swapAmountIn_of_down hdown, amount0Delta_of_price_zero h, if_pos rfl]

theorem swapAmountOut_of_price_zero (h : p.toNat = 0 ∨ q.toNat = 0) :
    swapAmountOut s.swapOperands p q =
      .error (if swapDown s then .delta1PriceZero else .delta0PriceZero) := by
  cases hdown : swapDown s
  · rw [swapAmountOut_of_up hdown, amount0Delta_of_price_zero h, if_neg Bool.false_ne_true]
  · rw [swapAmountOut_of_down hdown, amount1Delta_of_price_zero h, if_pos rfl]

/-- An amount of token0 in always fits (45_sqrt_price_math.md R143). -/
theorem stepIn_lt_of_down (hdown : swapDown s = true) (hp : p ≠ 0#256) (hq : q ≠ 0#256) :
    stepIn s p.toNat q.toNat < 2 ^ 256 := by
  rw [stepIn_of_down hdown, ← liquidity_toNat]
  exact amount0_lt (toNat_ne_zero hp) (toNat_ne_zero hq)

/-- An amount of token0 out always fits (45_sqrt_price_math.md R143). -/
theorem stepOut_lt_of_up (hup : swapDown s = false) (hp : p ≠ 0#256) (hq : q ≠ 0#256) :
    stepOut s p.toNat q.toNat < 2 ^ 256 := by
  rw [stepOut_of_up hup, ← liquidity_toNat]
  exact amount0_lt (toNat_ne_zero hp) (toNat_ne_zero hq)

/-- An amount in that does not fit is one of token1, and its floor is tested first
(45_sqrt_price_math.md R144; log 35). -/
theorem swapAmountIn_of_not_fits (hp : p ≠ 0#256) (hq : q ≠ 0#256)
    (hbig : 2 ^ 256 ≤ stepIn s p.toNat q.toNat) :
    swapAmountIn s.swapOperands p q = .error (ceilSite
      (swapLiquidity s * (max p.toNat q.toNat - min p.toNat q.toNat)) (2 ^ 96)) := by
  have hup : swapDown s = false := by
    by_contra hdown
    exact Nat.not_le.2 (stepIn_lt_of_down (Bool.not_eq_false _ ▸ hdown) hp hq) hbig
  have hfloor : swapLiquidity s * (max p.toNat q.toNat - min p.toNat q.toNat) / 2 ^ 96 =
      amount1 false p.toNat q.toNat (low128 s.arg2).toNat := by
    rw [low128_toNat]
    rfl
  rw [stepIn_of_up hup, ← liquidity_toNat] at hbig
  rw [swapAmountIn_of_up hup, ceilSite, hfloor]
  split
  · exact amount1Delta_of_floor_overflow (toNat_ne_zero hp) (toNat_ne_zero hq) ‹_›
  · exact amount1Delta_of_ceil_overflow (toNat_ne_zero hp) (toNat_ne_zero hq)
      (Nat.lt_of_not_le ‹_›) hbig

/-- An amount out that does not fit is one of token1, rounded down (45_sqrt_price_math.md R144). -/
theorem swapAmountOut_of_not_fits (hp : p ≠ 0#256) (hq : q ≠ 0#256)
    (hbig : 2 ^ 256 ≤ stepOut s p.toNat q.toNat) :
    swapAmountOut s.swapOperands p q = .error .muldivOverflow := by
  have hdown : swapDown s = true := by
    by_contra hup
    exact Nat.not_le.2 (stepOut_lt_of_up (Bool.not_eq_true _ ▸ hup) hp hq) hbig
  rw [stepOut_of_down hdown, ← liquidity_toNat] at hbig
  rw [swapAmountOut_of_down hdown]
  exact amount1Delta_of_floor_overflow (toNat_ne_zero hp) (toNat_ne_zero hq) hbig

end

/-! #### The next price of a step that stops short -/

/-- The next price lies between the current price and the target, either included. -/
def betweenPrices (s : State) (next : U256) : Prop :=
  min s.arg0.toNat s.arg1.toNat ≤ next.toNat ∧ next.toNat ≤ max s.arg0.toNat s.arg1.toNat

section
variable {s : State} {next amount : U256}

theorem betweenPrices_target (s : State) : betweenPrices s s.arg1 :=
  ⟨Nat.min_le_right _ _, Nat.le_max_right _ _⟩

theorem ne_zero_of_betweenPrices (hp : s.arg0 ≠ 0#256) (ht : s.arg1 ≠ 0#256)
    (h : betweenPrices s next) : next ≠ 0#256 := by
  obtain ⟨hlow, -⟩ := h
  have hp' := toNat_ne_zero hp
  have ht' := toNat_ne_zero ht
  exact mt (toNat_eq_zero_iff next).2 (by omega)

/-- The amount out of a part of the distance fits where that of the whole distance does. -/
theorem stepOut_lt_of_betweenPrices (hp : s.arg0 ≠ 0#256) (ht : s.arg1 ≠ 0#256)
    (hnext : betweenPrices s next) (hfit : stepOut s s.arg1.toNat s.arg0.toNat < 2 ^ 256) :
    stepOut s next.toNat s.arg0.toNat < 2 ^ 256 := by
  cases hdown : swapDown s
  · exact stepOut_lt_of_up hdown (ne_zero_of_betweenPrices hp ht hnext) hp
  · obtain ⟨hlow, hhigh⟩ := hnext
    have hdir := swapDown_iff.1 hdown
    refine lt_of_le_of_lt ?_ hfit
    rw [stepOut_of_down hdown, stepOut_of_down hdown]
    exact Nat.div_le_div_right (Nat.mul_le_mul_left _ (by omega))

/-- An amount of token0 in short of the whole distance has a next price before the target, whose
amount in it covers (48_swap_step.md R183, the row of SITE `0x11`). -/
theorem nextPriceFromInput_of_down (hdown : swapDown s = true) (hp : s.arg0 ≠ 0#256)
    (ht : s.arg1 ≠ 0#256) (hlt : amount.toNat < stepIn s s.arg1.toNat s.arg0.toNat) :
    ∃ next, nextPriceFromInput s.arg0 (low128 s.arg2) amount (swapDown s) = .ok next ∧
      next ≠ s.arg1 ∧ betweenPrices s next ∧
      stepIn s next.toNat s.arg0.toNat ≤ amount.toNat := by
  have hp' := toNat_ne_zero hp
  have ht' := toNat_ne_zero ht
  have hdir := swapDown_iff.1 hdown
  rw [stepIn_of_down hdown, ← liquidity_toNat] at hlt
  have hmax := amount0_le (l := (low128 s.arg2).toNat) true ht' hp'
  have hl : (low128 s.arg2).toNat < 2 ^ 128 := (low128 s.arg2).isLt
  have hl0 : (low128 s.arg2).toNat ≠ 0 := by omega
  have hdiv := Nat.div_le_self ((low128 s.arg2).toNat * 2 ^ 96) s.arg0.toNat
  obtain ⟨next, hnext, hle, hcover⟩ := nextFromAmount0_add_covers (amount := amount) hp' hl0
    (by omega)
  have hfar := mt (amount0_up_le_iff (Nat.pos_of_ne_zero ht') hdir.le).2 (Nat.not_le.2 hlt)
  have hbeyond : s.arg1.toNat < next.toNat :=
    Nat.lt_of_not_le fun hge => hfar (hcover.trans (Nat.mul_le_mul_right _ hge))
  refine ⟨next, ?_, fun h => by rw [h] at hbeyond; omega, ⟨by omega, by omega⟩, ?_⟩
  · rw [nextPriceFromInput_of_priced _ hp hl0, if_pos hdown, hnext]
  · rw [stepIn_of_down hdown, ← liquidity_toNat]
    exact (amount0_up_le_iff (by omega) hle).2 hcover

/-- An amount of token1 in short of the whole distance has a next price before the target, whose
amount in it covers, unless that price needs more than 160 bits (45_sqrt_price_math.md R141). -/
theorem nextPriceFromInput_of_up (hup : swapDown s = false) (hp : s.arg0 ≠ 0#256)
    (hlt : amount.toNat < stepIn s s.arg1.toNat s.arg0.toNat)
    (hfit : s.arg0.toNat + amount.toNat * 2 ^ 96 / swapLiquidity s < 2 ^ 160) :
    ∃ next, nextPriceFromInput s.arg0 (low128 s.arg2) amount (swapDown s) = .ok next ∧
      next ≠ s.arg1 ∧ betweenPrices s next ∧
      stepIn s next.toNat s.arg0.toNat ≤ amount.toNat := by
  have hdir := not_swapDown_iff.1 hup
  rw [stepIn_of_up hup, ← liquidity_toNat] at hlt
  obtain ⟨hl, hshort⟩ := quotient_lt_of_lt_amount1 hdir hlt
  rw [← liquidity_toNat] at hfit
  have hnext := nextFromAmount1_add_of_exact hl hfit
  have hval := toNat_ofNat_of_lt (hfit.trans (show 2 ^ 160 < 2 ^ 256 by decide))
  have hpaid := Nat.div_mul_le_self (amount.toNat * 2 ^ 96) (low128 s.arg2).toNat
  generalize BitVec.ofNat 256 _ = next at hnext hval
  generalize amount.toNat * 2 ^ 96 / (low128 s.arg2).toNat = quotient at hshort hval hpaid
  refine ⟨next, ?_, fun h => by rw [h] at hval; omega, ⟨by omega, by omega⟩, ?_⟩
  · rw [nextPriceFromInput_of_priced _ hp hl, if_neg (Bool.not_eq_true _ ▸ hup)]
    exact hnext
  · rw [stepIn_of_up hup, amount1_up_le_iff, Nat.max_eq_left (by omega),
      Nat.min_eq_right (by omega), hval, Nat.add_sub_cancel_left, ← liquidity_toNat, Nat.mul_comm,
      Nat.mul_comm (2 ^ 96)]
    exact hpaid

/-- A token1 input that lifts the price to 2^160 fails at the ceiling and at nothing else, since the
quotient of an amount short of the distance fits (48_swap_step.md R183). -/
theorem nextPriceFromInput_of_ceiling (hup : swapDown s = false) (hp : s.arg0 ≠ 0#256)
    (hlt : amount.toNat < stepIn s s.arg1.toNat s.arg0.toNat)
    (hbig : 2 ^ 160 ≤ s.arg0.toNat + amount.toNat * 2 ^ 96 / swapLiquidity s) :
    nextPriceFromInput s.arg0 (low128 s.arg2) amount (swapDown s) = .error .amount1Ceiling ∧
      s.arg0.toNat + amount.toNat * 2 ^ 96 / swapLiquidity s < s.arg1.toNat := by
  have ht := s.arg1.isLt
  rw [stepIn_of_up hup, ← liquidity_toNat] at hlt
  rw [← liquidity_toNat] at hbig ⊢
  obtain ⟨hl, hshort⟩ := quotient_lt_of_lt_amount1 (not_swapDown_iff.1 hup) hlt
  refine ⟨?_, hshort⟩
  rw [nextPriceFromInput_of_priced _ hp hl, if_neg (Bool.not_eq_true _ ▸ hup)]
  exact nextFromAmount1_add_of_ceiling hl (by omega) hbig

/-- Everything the next price of an exact-in step that stops short can be. -/
theorem nextPriceFromInput_short (hp : s.arg0 ≠ 0#256) (ht : s.arg1 ≠ 0#256)
    (hlt : amount.toNat < stepIn s s.arg1.toNat s.arg0.toNat) :
    (∃ next, nextPriceFromInput s.arg0 (low128 s.arg2) amount (swapDown s) = .ok next ∧
      next ≠ s.arg1 ∧ betweenPrices s next ∧
      stepIn s next.toNat s.arg0.toNat ≤ amount.toNat) ∨
    (2 ^ 160 < s.arg1.toNat ∧
      nextPriceFromInput s.arg0 (low128 s.arg2) amount (swapDown s) = .error .amount1Ceiling) := by
  cases hdown : swapDown s
  · rw [← hdown]
    rcases Nat.lt_or_ge (s.arg0.toNat + amount.toNat * 2 ^ 96 / swapLiquidity s) (2 ^ 160) with
      hfit | hbig
    · exact .inl (nextPriceFromInput_of_up hdown hp hlt hfit)
    · obtain ⟨herror, hfar⟩ := nextPriceFromInput_of_ceiling hdown hp hlt hbig
      exact .inr ⟨hbig.trans_lt hfar, herror⟩
  · rw [← hdown]
    exact .inl (nextPriceFromInput_of_down hdown hp ht hlt)

/-- The next price of an exact-out step that stops short, where token1 goes out: it is not beyond
the target (48_swap_step.md R183, the row of SITE `0x0E`). -/
theorem nextPriceFromOutput_of_down (hdown : swapDown s = true) (hp : s.arg0 ≠ 0#256)
    (ht : s.arg1 ≠ 0#256) (hlt : amount.toNat < stepOut s s.arg1.toNat s.arg0.toNat) :
    ∃ next, nextPriceFromOutput s.arg0 (low128 s.arg2) amount (swapDown s) = .ok next ∧
      betweenPrices s next ∧ stepIn s next.toNat s.arg0.toNat < 2 ^ 256 := by
  have hlt_p := s.arg0.isLt
  have ht' := toNat_ne_zero ht
  rw [stepOut_of_down hdown, ← liquidity_toNat] at hlt
  obtain ⟨hl, hshort⟩ := quotient_le_of_lt_amount1 (swapDown_iff.1 hdown).le hlt
  have hnext := nextFromAmount1_sub_of_exact (price := s.arg0) (amount := amount) hl (by omega)
  generalize ceilQ (amount.toNat * 2 ^ 96) (low128 s.arg2).toNat = quotient at hshort hnext
  have hval := toNat_ofNat_of_lt ((Nat.sub_le s.arg0.toNat quotient).trans_lt hlt_p)
  generalize BitVec.ofNat 256 _ = next at hnext hval
  have hbetween : betweenPrices s next := ⟨by omega, by omega⟩
  refine ⟨next, ?_, hbetween, stepIn_lt_of_down hdown (ne_zero_of_betweenPrices hp ht hbetween) hp⟩
  rw [nextPriceFromOutput_of_priced _ hp hl, if_pos hdown]
  exact hnext

/-- The next price of an exact-out step that stops short, where token0 goes out: it is not beyond
the target, and at most `n1`, so that the amount of token1 in is below 2^256 (48_swap_step.md R183,
the row of SITE `0x0C`). -/
theorem nextPriceFromOutput_of_up (hup : swapDown s = false) (hp : s.arg0 ≠ 0#256)
    (ha : amount.toNat ≠ 0) (hlt : amount.toNat < stepOut s s.arg1.toNat s.arg0.toNat) :
    ∃ next, nextPriceFromOutput s.arg0 (low128 s.arg2) amount (swapDown s) = .ok next ∧
      betweenPrices s next ∧ stepIn s next.toNat s.arg0.toNat < 2 ^ 256 := by
  have hdir := not_swapDown_iff.1 hup
  rw [stepOut_of_up hup, ← liquidity_toNat, amount0_comm] at hlt
  obtain ⟨next, hnext, hle_t, hle_n⟩ := nextFromAmount0_sub_of_lt_amount0 (toNat_ne_zero hp) hdir
    s.arg1.isLt ha hlt
  have hge := le_nextFromAmount0_sub hnext
  have hl0 : (low128 s.arg2).toNat ≠ 0 := fun h => by
    have hp' := toNat_ne_zero hp
    omega
  refine ⟨next, ?_, ⟨by omega, by omega⟩, ?_⟩
  · rw [nextPriceFromOutput_of_priced _ hp hl0, if_neg (Bool.not_eq_true _ ▸ hup)]
    exact hnext
  · have hl := (low128 s.arg2).isLt
    have hgap : max next.toNat s.arg0.toNat - min next.toNat s.arg0.toNat ≤
        (low128 s.arg2).toNat * 2 ^ 96 := by omega
    have hamount : stepIn s next.toNat s.arg0.toNat ≤
        (low128 s.arg2).toNat * (low128 s.arg2).toNat := by
      rw [stepIn_of_up hup, ← liquidity_toNat, amount1_up_le_iff]
      calc _ ≤ (low128 s.arg2).toNat * ((low128 s.arg2).toNat * 2 ^ 96) :=
            Nat.mul_le_mul_left _ hgap
        _ = _ := by ring
    exact hamount.trans_lt ((Nat.mul_lt_mul'' hl hl).trans_eq (by norm_num))

/-- The next price of an exact-out step that stops short: it always has one. -/
theorem nextPriceFromOutput_short (hp : s.arg0 ≠ 0#256) (ht : s.arg1 ≠ 0#256)
    (ha : amount.toNat ≠ 0) (hlt : amount.toNat < stepOut s s.arg1.toNat s.arg0.toNat) :
    ∃ next, nextPriceFromOutput s.arg0 (low128 s.arg2) amount (swapDown s) = .ok next ∧
      betweenPrices s next ∧ stepIn s next.toNat s.arg0.toNat < 2 ^ 256 := by
  cases hdown : swapDown s <;> rw [← hdown]
  · exact nextPriceFromOutput_of_up hdown hp ha hlt
  · exact nextPriceFromOutput_of_down hdown hp ht hlt

end

/-! #### The step as its next price and what follows from it -/

/-- The next price of a swap step: the first half of R180 without the amounts it keeps. -/
def swapNext (o : SwapOperands) : Cmd U256 :=
  if exactIn o then
    (mulDiv o.remaining (feeCompl o) feeDenominator).bind fun lessFee =>
      (swapAmountIn o o.target o.current).bind fun whole =>
        if whole ≤ lessFee then .ok o.target
        else nextPriceFromInput o.current o.liquidity lessFee (zeroForOne o)
  else
    (swapAmountOut o o.target o.current).bind fun whole =>
      if whole ≤ wanted o then .ok o.target
      else nextPriceFromOutput o.current o.liquidity (wanted o) (zeroForOne o)

/-- The second half of R180, with both amounts taken between the current and the next price. -/
def swapResults (o : SwapOperands) (next : U256) : Cmd Success :=
  (swapAmountIn o next o.current).bind fun amountIn =>
    (swapAmountOut o next o.current).bind fun amountOut =>
      (swapFee o next amountIn).map fun fee =>
        { res0 := next, res1 := amountIn, res2 := capAmountOut o amountOut, res3 := fee }

/-- The first half of R180: the next price, with the amounts computed on the way. -/
def swapReach (o : SwapOperands) : Cmd Reached :=
  if exactIn o then reachExactIn o else reachExactOut o

section
variable {o : SwapOperands} {r : Reached}

/-- An exact-in step reaches `swapNext`, and keeps the amount in of the whole distance. -/
theorem swapReach_of_exactIn (hin : exactIn o = true) :
    (swapReach o).map Reached.next = swapNext o ∧
      ∀ r, swapReach o = .ok r → swapAmountIn o o.target o.current = .ok r.amountIn := by
  rw [swapReach, swapNext, if_pos hin, if_pos hin, reachExactIn]
  cases mulDiv o.remaining (feeCompl o) feeDenominator with
  | error site => exact ⟨rfl, nofun⟩
  | ok lessFee =>
    cases swapAmountIn o o.target o.current with
    | error site => exact ⟨rfl, nofun⟩
    | ok whole =>
      simp only [cmd_bind_ok]
      split
      · exact ⟨rfl, fun r h => by cases h; rfl⟩
      · cases nextPriceFromInput o.current o.liquidity lessFee (zeroForOne o) with
        | error site => exact ⟨rfl, nofun⟩
        | ok next => exact ⟨rfl, fun r h => by cases h; rfl⟩

/-- An exact-out step reaches `swapNext`, and keeps the amount out of the whole distance. -/
theorem swapReach_of_exactOut (hout : exactIn o = false) :
    (swapReach o).map Reached.next = swapNext o ∧
      ∀ r, swapReach o = .ok r → swapAmountOut o o.target o.current = .ok r.amountOut := by
  rw [← Bool.not_eq_true] at hout
  rw [swapReach, swapNext, if_neg hout, if_neg hout, reachExactOut]
  cases swapAmountOut o o.target o.current with
  | error site => exact ⟨rfl, nofun⟩
  | ok whole =>
    simp only [cmd_bind_ok]
    split
    · exact ⟨rfl, fun r h => by cases h; rfl⟩
    · cases nextPriceFromOutput o.current o.liquidity (wanted o) (zeroForOne o) with
      | error site => exact ⟨rfl, nofun⟩
      | ok next => exact ⟨rfl, fun r h => by cases h; rfl⟩

theorem swapReach_next (o : SwapOperands) : (swapReach o).map Reached.next = swapNext o := by
  cases hmode : exactIn o
  · exact (swapReach_of_exactOut hmode).1
  · exact (swapReach_of_exactIn hmode).1

/-- The amount in that is reused at the target is the one computed there. -/
theorem finalAmountIn_of_reach (h : swapReach o = .ok r) :
    finalAmountIn o r = swapAmountIn o r.next o.current := by
  rw [finalAmountIn]
  split
  · obtain ⟨htarget, hin⟩ := ‹_ ∧ _›
    rw [← htarget, (swapReach_of_exactIn hin).2 r h]
  · rfl

/-- The amount out that is reused at the target is the one computed there. -/
theorem finalAmountOut_of_reach (h : swapReach o = .ok r) :
    finalAmountOut o r = swapAmountOut o r.next o.current := by
  rw [finalAmountOut]
  split
  · obtain ⟨htarget, hout⟩ := ‹_ ∧ _›
    rw [← htarget, (swapReach_of_exactOut hout).2 r h]
  · rfl

/-- Reusing an amount makes no difference: a swap step is its next price, then the amounts and the
fee of that price (48_swap_step.md R180). -/
theorem computeSwapStep_eq (o : SwapOperands) :
    computeSwapStep o = (swapNext o).bind (swapResults o) := by
  rw [← swapReach_next, computeSwapStep, ← swapReach]
  cases hreach : swapReach o with
  | error site => rfl
  | ok r =>
    rw [cmd_map_ok, cmd_bind_ok, cmd_bind_ok, finalAmountIn_of_reach hreach,
      finalAmountOut_of_reach hreach, swapResults]

end

/-! #### Where the step's next price comes from -/

section
variable {s : State} {next : U256}

theorem swapNext_exactIn_eq (hin : s.arg3.msb = false) :
    swapNext s.swapOperands =
      (mulDiv s.arg3 (feeCompl s.swapOperands) feeDenominator).bind fun lessFee =>
        (swapAmountIn s.swapOperands s.arg1 s.arg0).bind fun whole =>
          if whole ≤ lessFee then .ok s.arg1
          else nextPriceFromInput s.arg0 (low128 s.arg2) lessFee (swapDown s) :=
  if_pos (by rw [exactIn_swapOperands, hin]; rfl)

theorem swapNext_exactOut_eq (hout : s.arg3.msb = true) :
    swapNext s.swapOperands =
      (swapAmountOut s.swapOperands s.arg1 s.arg0).bind fun whole =>
        if whole ≤ wanted s.swapOperands then .ok s.arg1
        else nextPriceFromOutput s.arg0 (low128 s.arg2) (wanted s.swapOperands) (swapDown s) :=
  if_neg (by rw [exactIn_swapOperands, hout]; decide)

/-- The remainder less the fee, where it fits (48_swap_step.md R180). -/
theorem lessFee_eq_ok_iff {a : U256} :
    mulDiv s.arg3 (feeCompl s.swapOperands) feeDenominator = .ok a ↔ a.toNat = lessFee s := by
  rw [mulDiv_eq_ok_iff, feeCompl_toNat, feeDenominator_toNat, lessFee]
  exact and_iff_right (by decide)

theorem swapNext_of_lessFee_overflow (hin : s.arg3.msb = false) (hbig : 2 ^ 256 ≤ lessFee s) :
    swapNext s.swapOperands = .error .muldivOverflow := by
  rw [lessFee, ← feeCompl_toNat, ← feeDenominator_toNat] at hbig
  rw [swapNext_exactIn_eq hin, mulDiv_of_overflow (by decide) hbig, cmd_bind_error]

theorem swapNext_of_amountIn_error {site : Site} (hin : s.arg3.msb = false)
    (hfit : lessFee s < 2 ^ 256)
    (h : swapAmountIn s.swapOperands s.arg1 s.arg0 = .error site) :
    swapNext s.swapOperands = .error site := by
  rw [swapNext_exactIn_eq hin, lessFee_eq_ok_iff.2 (toNat_ofNat_of_lt hfit), cmd_bind_ok, h,
    cmd_bind_error]

theorem swapNext_of_amountOut_error {site : Site} (hout : s.arg3.msb = true)
    (h : swapAmountOut s.swapOperands s.arg1 s.arg0 = .error site) :
    swapNext s.swapOperands = .error site := by
  rw [swapNext_exactOut_eq hout, h, cmd_bind_error]

theorem swapNext_of_covered_in (hp : s.arg0 ≠ 0#256) (ht : s.arg1 ≠ 0#256)
    (hin : s.arg3.msb = false) (hfit : lessFee s < 2 ^ 256)
    (hcover : stepIn s s.arg1.toNat s.arg0.toNat ≤ lessFee s) :
    swapNext s.swapOperands = .ok s.arg1 := by
  have hwhole := hcover.trans_lt hfit
  rw [swapNext_exactIn_eq hin, lessFee_eq_ok_iff.2 (toNat_ofNat_of_lt hfit), cmd_bind_ok,
    swapAmountIn_of_fits ht hp hwhole, cmd_bind_ok, if_pos]
  rwa [BitVec.le_def, toNat_ofNat_of_lt hwhole, toNat_ofNat_of_lt hfit]

theorem swapNext_of_short_in (hp : s.arg0 ≠ 0#256) (ht : s.arg1 ≠ 0#256)
    (hin : s.arg3.msb = false) (hwhole : stepIn s s.arg1.toNat s.arg0.toNat < 2 ^ 256)
    (hshort : lessFee s < stepIn s s.arg1.toNat s.arg0.toNat) :
    swapNext s.swapOperands = nextPriceFromInput s.arg0 (low128 s.arg2)
      (BitVec.ofNat 256 (lessFee s)) (swapDown s) := by
  have hfit := hshort.trans hwhole
  rw [swapNext_exactIn_eq hin, lessFee_eq_ok_iff.2 (toNat_ofNat_of_lt hfit), cmd_bind_ok,
    swapAmountIn_of_fits ht hp hwhole, cmd_bind_ok, if_neg]
  rwa [BitVec.le_def, toNat_ofNat_of_lt hwhole, toNat_ofNat_of_lt hfit, Nat.not_le]

theorem swapNext_of_covered_out (hp : s.arg0 ≠ 0#256) (ht : s.arg1 ≠ 0#256)
    (hout : s.arg3.msb = true) (hcover : stepOut s s.arg1.toNat s.arg0.toNat ≤ wantOf s) :
    swapNext s.swapOperands = .ok s.arg1 := by
  have hwant := wanted_toNat hout
  have hwhole := hcover.trans_lt (wantOf_lt hout)
  rw [← hwant] at hcover
  rw [swapNext_exactOut_eq hout, swapAmountOut_of_fits ht hp hwhole, cmd_bind_ok, if_pos]
  rwa [BitVec.le_def, toNat_ofNat_of_lt hwhole]

theorem swapNext_of_short_out (hp : s.arg0 ≠ 0#256) (ht : s.arg1 ≠ 0#256)
    (hout : s.arg3.msb = true) (hwhole : stepOut s s.arg1.toNat s.arg0.toNat < 2 ^ 256)
    (hshort : wantOf s < stepOut s s.arg1.toNat s.arg0.toNat) :
    swapNext s.swapOperands = nextPriceFromOutput s.arg0 (low128 s.arg2)
      (wanted s.swapOperands) (swapDown s) := by
  have hwant := wanted_toNat hout
  rw [swapNext_exactOut_eq hout, swapAmountOut_of_fits ht hp hwhole, cmd_bind_ok, if_neg]
  rwa [BitVec.le_def, toNat_ofNat_of_lt hwhole, hwant, Nat.not_le]

/-- An exact-in step that has a next price has prices other than 0; its next price lies between
them, and the remainder less the fee covers the amount in. -/
theorem swapNext_exactIn_spec (hin : s.arg3.msb = false) (h : swapNext s.swapOperands = .ok next) :
    s.arg0 ≠ 0#256 ∧ s.arg1 ≠ 0#256 ∧ betweenPrices s next ∧
      stepIn s next.toNat s.arg0.toNat ≤ lessFee s := by
  rw [swapNext_exactIn_eq hin] at h
  obtain ⟨a, ha, h⟩ := cmd_bind_eq_ok.1 h
  obtain ⟨whole, hwhole, h⟩ := cmd_bind_eq_ok.1 h
  obtain ⟨ht, hp, hval⟩ := swapAmountIn_eq_ok_iff.1 hwhole
  rw [lessFee_eq_ok_iff] at ha
  rw [ne_eq, toNat_eq_zero_iff] at hp ht
  refine ⟨hp, ht, ?_⟩
  rw [← ha]
  split at h <;> rename_i hcover <;> rw [BitVec.le_def, hval] at hcover
  · cases h
    exact ⟨betweenPrices_target s, hcover⟩
  · obtain ⟨next', hnext, -, hbetween, hpaid⟩ | ⟨-, herror⟩ :=
      nextPriceFromInput_short hp ht (Nat.lt_of_not_le hcover)
    · cases hnext.symm.trans h
      exact ⟨hbetween, hpaid⟩
    · cases herror.symm.trans h

/-- An exact-out step that has a next price has prices other than 0, and its next price lies between
them. -/
theorem swapNext_exactOut_spec (hout : s.arg3.msb = true)
    (h : swapNext s.swapOperands = .ok next) :
    s.arg0 ≠ 0#256 ∧ s.arg1 ≠ 0#256 ∧ betweenPrices s next := by
  rw [swapNext_exactOut_eq hout] at h
  obtain ⟨whole, hwhole, h⟩ := cmd_bind_eq_ok.1 h
  obtain ⟨ht, hp, hval⟩ := swapAmountOut_eq_ok_iff.1 hwhole
  rw [ne_eq, toNat_eq_zero_iff] at hp ht
  refine ⟨hp, ht, ?_⟩
  split at h <;> rename_i hcover <;> rw [BitVec.le_def, hval] at hcover
  · cases h
    exact betweenPrices_target s
  · obtain ⟨next', hnext, hbetween, -⟩ :=
      nextPriceFromOutput_short hp ht (wanted_ne_zero hout) (Nat.lt_of_not_le hcover)
    cases hnext.symm.trans h
    exact hbetween

theorem betweenPrices_of_swapNext (h : swapNext s.swapOperands = .ok next) :
    betweenPrices s next := by
  cases hsign : s.arg3.msb
  · obtain ⟨-, -, hbetween, -⟩ := swapNext_exactIn_spec hsign h
    exact hbetween
  · obtain ⟨-, -, hbetween⟩ := swapNext_exactOut_spec hsign h
    exact hbetween

/-! #### The fee -/

/-- All of the remainder past the amount in, for an exact-in step short of the target. -/
theorem swapFee_of_short (hin : s.arg3.msb = false) (hnext : next ≠ s.arg1) (a : U256) :
    swapFee s.swapOperands next a = .ok (s.arg3 - a) :=
  if_pos ⟨by rw [exactIn_swapOperands, hin]; rfl, hnext⟩

theorem swapFee_of_second (h : s.arg3.msb = true ∨ next = s.arg1) (a : U256) :
    swapFee s.swapOperands next a =
      mulDivRoundingUp a (zext32 s.swapOperands.feePips) (feeCompl s.swapOperands) := by
  refine if_neg fun ⟨hin, hnext⟩ => ?_
  rw [exactIn_swapOperands] at hin
  obtain hout | htarget := h
  · rw [hout] at hin
    cases hin
  · exact hnext htarget

theorem secondFee_of_fits {a : Nat} (hne : feeComplOf s ≠ 0) (ha : a < 2 ^ 256)
    (hfit : fullFee s a < 2 ^ 256) :
    mulDivRoundingUp (BitVec.ofNat 256 a) (zext32 s.swapOperands.feePips)
      (feeCompl s.swapOperands) = .ok (BitVec.ofNat 256 (fullFee s a)) := by
  refine mulDivRoundingUp_eq_ok_iff.2 ?_
  rw [feeCompl_toNat, feePips_toNat, toNat_ofNat_of_lt ha, toNat_ofNat_of_lt hfit]
  exact ⟨hne, rfl⟩

/-- The site at which the second formula of the fee fails (48_swap_step.md R182, R183). -/
def feeSite (s : State) (amountIn : Nat) : Site :=
  if feeComplOf s = 0 then
    if amountIn * feeOf s < 2 ^ 256 then .muldivByZero else .muldivOverflow
  else ceilSite (amountIn * feeOf s) (feeComplOf s)

theorem statusFault_feeSite (s : State) (a : Nat) : statusFault (feeSite s a) = feeFault s a := by
  rw [feeSite, feeFault]
  split
  · split <;> rfl
  · exact statusFault_ceilSite _ _

theorem secondFee_of_fails {a : Nat} (ha : a < 2 ^ 256) (hfails : feeFails s a) :
    mulDivRoundingUp (BitVec.ofNat 256 a) (zext32 s.swapOperands.feePips)
      (feeCompl s.swapOperands) = .error (feeSite s a) := by
  have hprod : (BitVec.ofNat 256 a).toNat * (zext32 s.swapOperands.feePips).toNat =
      a * feeOf s := by rw [feePips_toNat, toNat_ofNat_of_lt ha]
  rw [feeSite]
  by_cases hzero : feeComplOf s = 0
  · have hd := (feeCompl_toNat s).trans hzero
    rw [if_pos hzero, ← hprod]
    split
    · exact mulDivRoundingUp_of_error (mulDiv_of_zero_of_fits hd ‹_›)
    · exact mulDivRoundingUp_of_error (mulDiv_of_zero_of_overflow hd (Nat.le_of_not_lt ‹_›))
  · have hbig := hfails.resolve_left hzero
    rw [fullFee, ← hprod, ← feeCompl_toNat] at hbig
    rw [if_neg hzero, ceilSite, ← hprod, ← feeCompl_toNat]
    exact mulDivRoundingUp_of_not_fits (by rwa [feeCompl_toNat]) hbig

/-! #### The results of a step at its next price -/

theorem swapResults_eq (s : State) (next : U256) :
    swapResults s.swapOperands next =
      (swapAmountIn s.swapOperands next s.arg0).bind fun amountIn =>
        (swapAmountOut s.swapOperands next s.arg0).bind fun amountOut =>
          (swapFee s.swapOperands next amountIn).map fun fee =>
            { res0 := next, res1 := amountIn, res2 := capAmountOut s.swapOperands amountOut,
              res3 := fee } := rfl

theorem swapResults_of_amountIn_error {site : Site}
    (h : swapAmountIn s.swapOperands next s.arg0 = .error site) :
    swapResults s.swapOperands next = .error site := by
  rw [swapResults_eq, h, cmd_bind_error]

theorem swapResults_of_amountOut_error {site : Site} (hp : s.arg0 ≠ 0#256) (hnext : next ≠ 0#256)
    (hin : stepIn s next.toNat s.arg0.toNat < 2 ^ 256)
    (h : swapAmountOut s.swapOperands next s.arg0 = .error site) :
    swapResults s.swapOperands next = .error site := by
  rw [swapResults_eq, swapAmountIn_of_fits hnext hp hin, cmd_bind_ok, h, cmd_bind_error]

/-- Where both amounts fit, only the fee can fail. -/
theorem swapResults_of_fits (hp : s.arg0 ≠ 0#256) (hnext : next ≠ 0#256)
    (hin : stepIn s next.toNat s.arg0.toNat < 2 ^ 256)
    (hout : stepOut s next.toNat s.arg0.toNat < 2 ^ 256) :
    swapResults s.swapOperands next =
      (swapFee s.swapOperands next (BitVec.ofNat 256 (stepIn s next.toNat s.arg0.toNat))).map
        fun fee =>
          { res0 := next
            res1 := BitVec.ofNat 256 (stepIn s next.toNat s.arg0.toNat)
            res2 := capAmountOut s.swapOperands
              (BitVec.ofNat 256 (stepOut s next.toNat s.arg0.toNat))
            res3 := fee } := by
  rw [swapResults_eq, swapAmountIn_of_fits hnext hp hin, cmd_bind_ok,
    swapAmountOut_of_fits hnext hp hout, cmd_bind_ok]

/-- The cap leaves an exact-in step alone (48_swap_step.md R180). -/
theorem capAmountOut_exactIn (hin : s.arg3.msb = false) (v : U256) :
    capAmountOut s.swapOperands v = v :=
  if_neg fun ⟨h, _⟩ => by rw [exactIn_swapOperands, hin] at h; cases h

/-- An exact-out step pays the lesser of its amount and the wanted one (48_swap_step.md R180). -/
theorem capAmountOut_exactOut (hout : s.arg3.msb = true) (v : U256) :
    capAmountOut s.swapOperands v = BitVec.ofNat 256 (min v.toNat (wantOf s)) := by
  have hwant := wanted_toNat hout
  have hmode : exactIn s.swapOperands = false := by rw [exactIn_swapOperands, hout]; rfl
  rw [capAmountOut, ← hwant]
  simp only [hmode, true_and, BitVec.lt_def]
  split
  · rw [Nat.min_eq_right (Nat.le_of_lt ‹_›), BitVec.ofNat_toNat, BitVec.setWidth_eq]
  · rw [Nat.min_eq_left (Nat.le_of_not_lt ‹_›), BitVec.ofNat_toNat, BitVec.setWidth_eq]

/-! #### The command -/

/-- A SWAPSTEP whose amounts fit and whose fee does not fail. -/
theorem exec_swapstep_of_fits {fee : U256} (hp : s.arg0 ≠ 0#256) (hne : next ≠ 0#256)
    (hnext : swapNext s.swapOperands = .ok next)
    (hin : stepIn s next.toNat s.arg0.toNat < 2 ^ 256)
    (hout : stepOut s next.toNat s.arg0.toNat < 2 ^ 256)
    (hfee : swapFee s.swapOperands next
      (BitVec.ofNat 256 (stepIn s next.toNat s.arg0.toNat)) = .ok fee) :
    exec .swapstep s = .next
      (completed s next (BitVec.ofNat 256 (stepIn s next.toNat s.arg0.toNat))
        (capAmountOut s.swapOperands (BitVec.ofNat 256 (stepOut s next.toNat s.arg0.toNat)))
        fee) := by
  have hport : readsPort .swapstep s = false := rfl
  rw [exec_eq_ends, hport, commandOutcome, computeSwapStep_eq, hnext, cmd_bind_ok,
    swapResults_of_fits hp hne hin hout, hfee, cmd_map_ok, ends_ok]
  exact congrArg _ (succeed_eq_completed s rfl)

theorem exec_swapstep_of_next_error {site : Site}
    (hnext : swapNext s.swapOperands = .error site) :
    exec .swapstep s = .next (faulted s (statusFault site)) :=
  exec_eq_faulted_of_error rfl (by rw [commandOutcome, computeSwapStep_eq, hnext, cmd_bind_error])

/-- A SWAPSTEP whose amounts fit and whose fee fails. -/
theorem exec_swapstep_of_fee_error {site : Site} (hp : s.arg0 ≠ 0#256) (hne : next ≠ 0#256)
    (hnext : swapNext s.swapOperands = .ok next)
    (hin : stepIn s next.toNat s.arg0.toNat < 2 ^ 256)
    (hout : stepOut s next.toNat s.arg0.toNat < 2 ^ 256)
    (hfee : swapFee s.swapOperands next
      (BitVec.ofNat 256 (stepIn s next.toNat s.arg0.toNat)) = .error site) :
    exec .swapstep s = .next (faulted s (statusFault site)) :=
  exec_eq_faulted_of_error rfl (by
    rw [commandOutcome, computeSwapStep_eq, hnext, cmd_bind_ok,
      swapResults_of_fits hp hne hin hout, hfee, cmd_map_error])

theorem exec_swapstep_of_results_error {site : Site}
    (hnext : swapNext s.swapOperands = .ok next)
    (hres : swapResults s.swapOperands next = .error site) :
    exec .swapstep s = .next (faulted s (statusFault site)) :=
  exec_eq_faulted_of_error rfl
    (by rw [commandOutcome, computeSwapStep_eq, hnext, cmd_bind_ok, hres])

/-- Everything a SWAPSTEP that succeeded has done. -/
theorem swapstep_of_status_ok {t : State} (h : exec .swapstep s = .next t)
    (hstatus : t.status = 0x1000#32) :
    ∃ amountOut, swapNext s.swapOperands = .ok t.res0 ∧
      swapFee s.swapOperands t.res0 t.res1 = .ok t.res3 ∧
      t.res2 = capAmountOut s.swapOperands amountOut := by
  obtain ⟨u, -, rfl⟩ := exec_cases h
  cases hout : commandOutcome .swapstep s with
  | error site =>
    rw [hout] at hstatus
    exact absurd hstatus (statusFault_ne_ok site)
  | ok out =>
    rw [commandOutcome, computeSwapStep_eq] at hout
    obtain ⟨next, hnext, hout⟩ := cmd_bind_eq_ok.1 hout
    obtain ⟨amountIn, -, hout⟩ := cmd_bind_eq_ok.1 hout
    obtain ⟨amountOut, -, hout⟩ := cmd_bind_eq_ok.1 hout
    obtain ⟨fee, hfee, rfl⟩ := cmd_map_eq_ok.1 hout
    exact ⟨amountOut, hnext, hfee, rfl⟩

end

/-! #### The next price that NEXTIN or NEXTOUT answers -/

section
variable {s : State} {next : U256}

/-- An exact-in step that stops short goes where NEXTIN goes with the remainder less the fee, before
the target. -/
theorem swapNext_of_nextin (hp : s.arg0 ≠ 0#256) (ht : s.arg1 ≠ 0#256) (hin : s.arg3.msb = false)
    (hwhole : stepIn s s.arg1.toNat s.arg0.toNat < 2 ^ 256)
    (hshort : lessFee s < stepIn s s.arg1.toNat s.arg0.toNat)
    (hexec : exec (.nextin (swapDown s)) (nextPriceCall s (lessFee s)) =
      .next (completed (nextPriceCall s (lessFee s)) next 0#256 0#256 0#256)) :
    swapNext s.swapOperands = .ok next ∧ next ≠ s.arg1 ∧ betweenPrices s next ∧
      stepIn s next.toNat s.arg0.toNat < 2 ^ 256 := by
  have hcall : nextPriceFromInput s.arg0 (low128 s.arg2) (BitVec.ofNat 256 (lessFee s))
      (swapDown s) = .ok next := result_of_status_ok hexec rfl rfl
  have hval := toNat_ofNat_of_lt (hshort.trans hwhole)
  obtain ⟨next', hnext, hne, hbetween, hpaid⟩ | ⟨-, herror⟩ :=
    nextPriceFromInput_short hp ht (hval.trans_lt hshort)
  · cases hnext.symm.trans hcall
    exact ⟨(swapNext_of_short_in hp ht hin hwhole hshort).trans hcall, hne, hbetween,
      hpaid.trans_lt (BitVec.isLt _)⟩
  · cases herror.symm.trans hcall

/-- An exact-out step that stops short goes where NEXTOUT goes with the wanted amount, not beyond
the target. -/
theorem swapNext_of_nextout (hp : s.arg0 ≠ 0#256) (ht : s.arg1 ≠ 0#256) (hout : s.arg3.msb = true)
    (hwhole : stepOut s s.arg1.toNat s.arg0.toNat < 2 ^ 256)
    (hshort : wantOf s < stepOut s s.arg1.toNat s.arg0.toNat)
    (hexec : exec (.nextout (swapDown s)) (nextPriceCall s (wantOf s)) =
      .next (completed (nextPriceCall s (wantOf s)) next 0#256 0#256 0#256)) :
    swapNext s.swapOperands = .ok next ∧ betweenPrices s next ∧
      stepIn s next.toNat s.arg0.toNat < 2 ^ 256 := by
  have hwant := wanted_toNat hout
  have hcall : nextPriceFromOutput s.arg0 (low128 s.arg2) (BitVec.ofNat 256 (wantOf s))
      (swapDown s) = .ok next := result_of_status_ok hexec rfl rfl
  rw [← hwant, BitVec.ofNat_toNat, BitVec.setWidth_eq] at hcall
  obtain ⟨next', hnext, hbetween, hfit⟩ :=
    nextPriceFromOutput_short hp ht (wanted_ne_zero hout) (hwant.trans_lt hshort)
  cases hnext.symm.trans hcall
  exact ⟨(swapNext_of_short_out hp ht hout hwhole hshort).trans hcall, hbetween, hfit⟩

end

/-! #### The sites at which a swap step can fail -/

/-- A sequence raises what its first part raises, and its second after a first that succeeds. -/
theorem RaisesAmong.bind_of_ok {α β : Type} {sites : List Site} {f : α → Cmd β} {r : Cmd α}
    (h : RaisesAmong sites r) (hf : ∀ a, r = .ok a → RaisesAmong sites (f a)) :
    RaisesAmong sites (r.bind f) := fun site he => by
  obtain he | ⟨a, ha, he⟩ := cmd_bind_eq_error.1 he
  · exact h site he
  · exact hf a ha site he

/-- The sites that R183 does not rule out. -/
def swapReachableSites : List Site :=
  .delta0PriceZero :: .delta1PriceZero :: .amount1Ceiling :: mulDivSites

section
variable (s : State) (p q next : U256)

theorem swapAmountIn_raisesReachable :
    RaisesAmong swapReachableSites (swapAmountIn s.swapOperands p q) :=
  .ite ((amount0Delta_raisesAmong _ _ _ _).mono (by decide))
    ((amount1Delta_raisesAmong _ _ _ _).mono (by decide))

theorem swapAmountOut_raisesReachable :
    RaisesAmong swapReachableSites (swapAmountOut s.swapOperands p q) :=
  .ite ((amount1Delta_raisesAmong _ _ _ _).mono (by decide))
    ((amount0Delta_raisesAmong _ _ _ _).mono (by decide))

/-- The next-price functions are entered only short of the whole distance, where they have no fault
but the ceiling of token1 (48_swap_step.md R183). -/
theorem swapNext_raisesReachable : RaisesAmong swapReachableSites (swapNext s.swapOperands) := by
  cases hsign : s.arg3.msb
  · rw [swapNext_exactIn_eq hsign]
    refine .bind ((mulDiv_raisesAmong _ _ _).mono (by decide)) fun lessFee =>
      .bind_of_ok (swapAmountIn_raisesReachable s _ _) fun whole hwhole => ?_
    obtain ⟨ht, hp, hval⟩ := swapAmountIn_eq_ok_iff.1 hwhole
    rw [ne_eq, toNat_eq_zero_iff] at hp ht
    split
    · exact .ok
    · rename_i hshort
      rw [BitVec.le_def, hval, Nat.not_le] at hshort
      obtain ⟨next, hnext, -⟩ | ⟨-, hceiling⟩ := nextPriceFromInput_short hp ht hshort
      · rw [hnext]
        exact .ok
      · rw [hceiling]
        exact .raise (by decide)
  · rw [swapNext_exactOut_eq hsign]
    refine .bind_of_ok (swapAmountOut_raisesReachable s _ _) fun whole hwhole => ?_
    obtain ⟨ht, hp, hval⟩ := swapAmountOut_eq_ok_iff.1 hwhole
    rw [ne_eq, toNat_eq_zero_iff] at hp ht
    split
    · exact .ok
    · rename_i hshort
      rw [BitVec.le_def, hval, Nat.not_le] at hshort
      obtain ⟨next, hnext, -⟩ := nextPriceFromOutput_short hp ht (wanted_ne_zero hsign) hshort
      rw [hnext]
      exact .ok

theorem swapResults_raisesReachable :
    RaisesAmong swapReachableSites (swapResults s.swapOperands next) :=
  .bind (swapAmountIn_raisesReachable s _ _) fun _ =>
    .bind (swapAmountOut_raisesReachable s _ _) fun _ =>
      .map (.ite .ok ((mulDivRoundingUp_raisesAmong _ _ _).mono (by decide)))

/-- SWAPSTEP raises no other site (48_swap_step.md R183). -/
theorem computeSwapStep_raisesReachable :
    RaisesAmong swapReachableSites (computeSwapStep s.swapOperands) := by
  rw [computeSwapStep_eq]
  exact .bind (swapNext_raisesReachable s) fun next => swapResults_raisesReachable s next

end

/-! #### A step inside the host's bounds -/

section
variable {s : State} {next : U256}

theorem ne_zero_of_inBounds (h : swapInBounds s) : s.arg0 ≠ 0#256 ∧ s.arg1 ≠ 0#256 := by
  obtain ⟨hp, -, ht, -, -⟩ := h
  exact ⟨mt (toNat_eq_zero_iff _).2 (by omega), mt (toNat_eq_zero_iff _).2 (by omega)⟩

theorem priceGap_lt_of_inBounds (h : swapInBounds s) (hnext : betweenPrices s next) :
    max next.toNat s.arg0.toNat - min next.toNat s.arg0.toNat < 2 ^ 160 := by
  obtain ⟨-, hp, -, ht, -⟩ := h
  obtain ⟨-, hhigh⟩ := hnext
  omega

theorem swapLiquidity_lt (s : State) : swapLiquidity s < 2 ^ 128 := Nat.mod_lt _ (by decide)

/-- Between prices of 160 bits an amount of either token in is below 2^224. -/
theorem stepIn_lt_of_inBounds (h : swapInBounds s) (hnext : betweenPrices s next) :
    stepIn s next.toNat s.arg0.toNat < 2 ^ 224 := by
  have hl := swapLiquidity_lt s
  suffices hle : stepIn s next.toNat s.arg0.toNat ≤ swapLiquidity s * 2 ^ 96 by omega
  obtain ⟨hp, ht⟩ := ne_zero_of_inBounds h
  cases hdown : swapDown s
  · have hgap := priceGap_lt_of_inBounds h hnext
    rw [stepIn_of_up hdown, amount1_up_le_iff]
    calc _ ≤ swapLiquidity s * (2 ^ 96 * 2 ^ 96) := Nat.mul_le_mul_left _ (by omega)
      _ = _ := by ring
  · rw [stepIn_of_down hdown]
    exact amount0_le true (toNat_ne_zero (ne_zero_of_betweenPrices hp ht hnext)) (toNat_ne_zero hp)

theorem stepOut_lt_of_inBounds (h : swapInBounds s) (hnext : betweenPrices s next) :
    stepOut s next.toNat s.arg0.toNat < 2 ^ 256 := by
  obtain ⟨hp, ht⟩ := ne_zero_of_inBounds h
  cases hdown : swapDown s
  · exact stepOut_lt_of_up hdown (ne_zero_of_betweenPrices hp ht hnext) hp
  · have hprod := Nat.mul_lt_mul'' (swapLiquidity_lt s) (priceGap_lt_of_inBounds h hnext)
    rw [stepOut_of_down hdown, ← Nat.not_le, le_amount1_down_iff, Nat.not_le]
    exact hprod.trans (by decide)

theorem lessFee_le_of_legal (hfee : feeOf s < 1000000) : lessFee s ≤ s.arg3.toNat := by
  rw [lessFee, feeComplOf_of_legal hfee]
  exact Nat.div_le_of_le_mul (by rw [Nat.mul_comm]; exact Nat.mul_le_mul_right _ (by omega))

/-- What the remainder less the fee covers leaves room for the fee of the second formula: the two
together are at most the remainder (48_swap_step.md R180). -/
theorem add_fullFee_le {a : Nat} (hfee : feeOf s < 1000000) (ha : a ≤ lessFee s) :
    a + fullFee s a ≤ s.arg3.toNat := by
  obtain ⟨left, hleft⟩ := Nat.exists_eq_add_of_le (ha.trans (lessFee_le_of_legal hfee))
  rw [lessFee, Nat.le_div_iff_mul_le (by decide), hleft, feeComplOf_of_legal hfee] at ha
  rw [hleft, fullFee, feeComplOf_of_legal hfee, Nat.add_le_add_iff_left, ceilQ_le_iff (by omega)]
  obtain ⟨compl, hcompl⟩ := Nat.exists_eq_add_of_le hfee.le
  rw [hcompl, Nat.add_sub_cancel_left] at ha ⊢
  linarith

theorem fullFee_lt_of_legal {a : Nat} (hfee : feeOf s < 1000000) (ha : a < 2 ^ 224) :
    fullFee s a < 2 ^ 256 := by
  have hle : fullFee s a ≤ a * feeOf s :=
    quot_le true _ (by rw [feeComplOf_of_legal hfee]; omega)
  exact hle.trans_lt ((Nat.mul_lt_mul'' ha hfee).trans (by decide))

/-- Inside the bounds a step always has a next price (48_swap_step.md R183). -/
theorem swapNext_of_inBounds (h : swapInBounds s) : ∃ next, swapNext s.swapOperands = .ok next := by
  obtain ⟨hp, ht⟩ := ne_zero_of_inBounds h
  have hwholeIn := (stepIn_lt_of_inBounds h (betweenPrices_target s)).trans
    (show 2 ^ 224 < 2 ^ 256 by decide)
  have hwholeOut := stepOut_lt_of_inBounds h (betweenPrices_target s)
  obtain ⟨-, -, -, htarget, hfee⟩ := h
  cases hsign : s.arg3.msb
  · have hless := (lessFee_le_of_legal hfee).trans_lt s.arg3.isLt
    rcases Nat.lt_or_ge (lessFee s) (stepIn s s.arg1.toNat s.arg0.toNat) with hshort | hcover
    · rw [swapNext_of_short_in hp ht hsign hwholeIn hshort]
      obtain ⟨next, hnext, -⟩ | ⟨hfar, -⟩ :=
        nextPriceFromInput_short hp ht ((toNat_ofNat_of_lt hless).trans_lt hshort)
      · exact ⟨next, hnext⟩
      · omega
    · exact ⟨_, swapNext_of_covered_in hp ht hsign hless hcover⟩
  · have hwant := wanted_toNat hsign
    rcases Nat.lt_or_ge (wantOf s) (stepOut s s.arg1.toNat s.arg0.toNat) with hshort | hcover
    · rw [swapNext_of_short_out hp ht hsign hwholeOut hshort]
      obtain ⟨next, hnext, -⟩ :=
        nextPriceFromOutput_short hp ht (wanted_ne_zero hsign) (hwant.trans_lt hshort)
      exact ⟨next, hnext⟩
    · exact ⟨_, swapNext_of_covered_out hp ht hsign hcover⟩

/-- Inside the bounds the fee of a step has no fault, and an exact-in step's amount in and fee are
at most the remainder, and all of it short of the target (48_swap_step.md R184). -/
theorem swapFee_of_inBounds (h : swapInBounds s) (hnext : swapNext s.swapOperands = .ok next) :
    ∃ fee, swapFee s.swapOperands next
        (BitVec.ofNat 256 (stepIn s next.toNat s.arg0.toNat)) = .ok fee ∧
      (s.arg3.msb = false →
        stepIn s next.toNat s.arg0.toNat + fee.toNat ≤ s.arg3.toNat ∧
          (next ≠ s.arg1 → stepIn s next.toNat s.arg0.toNat + fee.toNat = s.arg3.toNat)) := by
  have hin := stepIn_lt_of_inBounds h (betweenPrices_of_swapNext hnext)
  have hin256 := hin.trans (show 2 ^ 224 < 2 ^ 256 by decide)
  obtain ⟨-, -, -, -, hfee⟩ := h
  have hcovered : s.arg3.msb = false → stepIn s next.toNat s.arg0.toNat ≤ lessFee s := by
    intro hsign
    obtain ⟨-, -, -, hle⟩ := swapNext_exactIn_spec hsign hnext
    exact hle
  by_cases hshort : s.arg3.msb = false ∧ next ≠ s.arg1
  · obtain ⟨hsign, hne⟩ := hshort
    have hle := (hcovered hsign).trans (lessFee_le_of_legal hfee)
    have hsum : stepIn s next.toNat s.arg0.toNat +
        (s.arg3 - BitVec.ofNat 256 (stepIn s next.toNat s.arg0.toNat)).toNat = s.arg3.toNat := by
      rw [BitVec.toNat_sub_of_le (by rwa [BitVec.le_def, toNat_ofNat_of_lt hin256]),
        toNat_ofNat_of_lt hin256, Nat.add_sub_cancel' hle]
    exact ⟨_, swapFee_of_short hsign hne _, fun _ => ⟨hsum.le, fun _ => hsum⟩⟩
  · have hfits := fullFee_lt_of_legal hfee hin
    have hcompl : feeComplOf s ≠ 0 := by
      rw [feeComplOf_of_legal hfee]
      exact (Nat.sub_pos_of_lt hfee).ne'
    have hsecond : s.arg3.msb = true ∨ next = s.arg1 := by
      cases hsign : s.arg3.msb
      · exact .inr (by_contra fun hne => hshort ⟨hsign, hne⟩)
      · exact .inl rfl
    refine ⟨_, (swapFee_of_second hsecond _).trans (secondFee_of_fits hcompl hin256 hfits),
      fun hsign => ⟨?_, fun hne => absurd ⟨hsign, hne⟩ hshort⟩⟩
    rw [toNat_ofNat_of_lt hfits]
    exact add_fullFee_le hfee (hcovered hsign)

theorem capAmountOut_le_wantOf (hout : s.arg3.msb = true) (v : U256) :
    (capAmountOut s.swapOperands v).toNat ≤ wantOf s := by
  rw [capAmountOut_exactOut hout, toNat_ofNat_of_lt ((Nat.min_le_left _ _).trans_lt v.isLt)]
  exact Nat.min_le_right _ _

end

/-! #### The faults, by the place they come from -/

section
variable {s : State} {next : U256}

theorem exec_swapstep_of_price_zero_in (hin : s.arg3.msb = false) (hless : lessFee s < 2 ^ 256)
    (hzero : ¬(s.arg0 ≠ 0#256 ∧ s.arg1 ≠ 0#256)) :
    exec .swapstep s = .next (faulted s (if swapDown s then 0x10FB#32 else 0x11AB#32)) := by
  rw [exec_swapstep_of_next_error (swapNext_of_amountIn_error hin hless
    (swapAmountIn_of_price_zero (zero_of_not_priced hzero)))]
  cases swapDown s <;> rfl

theorem exec_swapstep_of_price_zero_out (hout : s.arg3.msb = true)
    (hzero : ¬(s.arg0 ≠ 0#256 ∧ s.arg1 ≠ 0#256)) :
    exec .swapstep s = .next (faulted s (if swapDown s then 0x11AB#32 else 0x10FB#32)) := by
  rw [exec_swapstep_of_next_error (swapNext_of_amountOut_error hout
    (swapAmountOut_of_price_zero (zero_of_not_priced hzero)))]
  cases swapDown s <;> rfl

theorem exec_swapstep_of_whole_overflow (hp : s.arg0 ≠ 0#256) (ht : s.arg1 ≠ 0#256)
    (hin : s.arg3.msb = false) (hless : lessFee s < 2 ^ 256)
    (hbig : 2 ^ 256 ≤ stepIn s s.arg1.toNat s.arg0.toNat) :
    exec .swapstep s = .next (faulted s (amountInFault s s.arg1.toNat s.arg0.toNat)) := by
  rw [exec_swapstep_of_next_error
    (swapNext_of_amountIn_error hin hless (swapAmountIn_of_not_fits ht hp hbig)),
    statusFault_ceilSite, amountInFault]

/-- At the next price the amount in is recomputed before the amount out (48_swap_step.md R180). -/
theorem exec_swapstep_of_amountIn_overflow (hp : s.arg0 ≠ 0#256) (hne : next ≠ 0#256)
    (hnext : swapNext s.swapOperands = .ok next)
    (hbig : 2 ^ 256 ≤ stepIn s next.toNat s.arg0.toNat) :
    exec .swapstep s = .next (faulted s (amountInFault s next.toNat s.arg0.toNat)) := by
  rw [exec_swapstep_of_results_error hnext
    (swapResults_of_amountIn_error (swapAmountIn_of_not_fits hne hp hbig)),
    statusFault_ceilSite, amountInFault]

theorem exec_swapstep_of_amountOut_overflow (hp : s.arg0 ≠ 0#256) (hne : next ≠ 0#256)
    (hnext : swapNext s.swapOperands = .ok next)
    (hin : stepIn s next.toNat s.arg0.toNat < 2 ^ 256)
    (hbig : 2 ^ 256 ≤ stepOut s next.toNat s.arg0.toNat) :
    exec .swapstep s = .next (faulted s 0x1063#32) :=
  exec_swapstep_of_results_error hnext
    (swapResults_of_amountOut_error hp hne hin (swapAmountOut_of_not_fits hne hp hbig))

theorem exec_swapstep_of_fee_fails (hp : s.arg0 ≠ 0#256) (hne : next ≠ 0#256)
    (hnext : swapNext s.swapOperands = .ok next)
    (hin : stepIn s next.toNat s.arg0.toNat < 2 ^ 256)
    (hout : stepOut s next.toNat s.arg0.toNat < 2 ^ 256)
    (hsecond : s.arg3.msb = true ∨ next = s.arg1)
    (hfails : feeFails s (stepIn s next.toNat s.arg0.toNat)) :
    exec .swapstep s = .next (faulted s (feeFault s (stepIn s next.toNat s.arg0.toNat))) := by
  rw [exec_swapstep_of_fee_error hp hne hnext hin hout
    ((swapFee_of_second hsecond _).trans (secondFee_of_fails hin hfails)), statusFault_feeSite]

/-- With a fee of 1000000 pips nothing is left to spend, so only an amount in of 0 is covered, and
its fee divides by 0 (48_swap_step.md R182; log 26). -/
theorem exec_swapstep_of_zero_feeCompl (hp : s.arg0 ≠ 0#256) (ht : s.arg1 ≠ 0#256)
    (hin : s.arg3.msb = false) (hcover : stepIn s s.arg1.toNat s.arg0.toNat ≤ lessFee s)
    (hout : stepOut s s.arg1.toNat s.arg0.toNat < 2 ^ 256) (hzero : feeComplOf s = 0) :
    exec .swapstep s = .next (faulted s 0x1052#32) := by
  have hless : lessFee s = 0 := by rw [lessFee, hzero, Nat.mul_zero, Nat.zero_div]
  have hwhole : stepIn s s.arg1.toNat s.arg0.toNat = 0 := by omega
  rw [exec_swapstep_of_fee_fails hp ht
    (swapNext_of_covered_in hp ht hin (hless.trans_lt (Nat.two_pow_pos 256)) hcover)
    (hwhole.trans_lt (Nat.two_pow_pos 256)) hout (.inr rfl) (.inl hzero), feeFault, if_pos hzero,
    hwhole, Nat.zero_mul, if_pos (Nat.two_pow_pos 256)]

theorem exec_swapstep_of_ceiling (hp : s.arg0 ≠ 0#256) (ht : s.arg1 ≠ 0#256)
    (hin : s.arg3.msb = false) (hshort : lessFee s < stepIn s s.arg1.toNat s.arg0.toNat)
    (hwhole : stepIn s s.arg1.toNat s.arg0.toNat < 2 ^ 256) (hup : swapDown s = false)
    (hbig : 2 ^ 160 ≤ s.arg0.toNat + lessFee s * 2 ^ 96 / swapLiquidity s) :
    exec .swapstep s = .next (faulted s 0x10D3#32) := by
  have hval := toNat_ofNat_of_lt (hshort.trans hwhole)
  rw [← hval] at hbig
  exact exec_swapstep_of_next_error ((swapNext_of_short_in hp ht hin hwhole hshort).trans
    (nextPriceFromInput_of_ceiling hup hp (hval.trans_lt hshort) hbig).1)

end

end Sys2Proof.Machine

/-! ### The obligations of 48_swap_step.md -/

namespace Sys2Proof.Machine

open Sys2Proof.Safety

/-- Settles O17: the next-price functions are entered only short of the whole distance
(`swapNext_raisesReachable`). -/
theorem swapStepUnreachableFaults : Obligations.SwapStepUnreachableFaults := by
  have hreachable : ∀ site ∈ swapReachableSites, statusFault site ∉
      [0x10AB#32, 0x10BC#32, 0x10C4#32, 0x10E4#32, 0x1112#32, 0x1102#32, 0x1122#32] := by decide
  intro s t h
  obtain ⟨u, -, rfl⟩ := exec_cases h
  cases hout : commandOutcome .swapstep s with
  | ok out => rw [finish_ok, succeed_status]; decide
  | error site => exact hreachable site (computeSwapStep_raisesReachable s site hout)

/-- Settles O51: the remainder less the fee covers the distance, so the next price is the target. -/
theorem swapReachesExactIn : Obligations.SwapReachesExactIn := by
  intro s hp ht hin hless amountIn amountOut hcover hout hcompl hfee
  have hamount : amountIn < 2 ^ 256 := hcover.trans_lt hless
  rw [exec_swapstep_of_fits hp ht (swapNext_of_covered_in hp ht hin hless hcover) hamount hout
    ((swapFee_of_second (.inr rfl) _).trans (secondFee_of_fits hcompl hamount hfee)),
    capAmountOut_exactIn hin]

/-- Settles O52: the wanted amount covers the distance, so the next price is the target and the cap
does not bind. -/
theorem swapReachesExactOut : Obligations.SwapReachesExactOut := by
  intro s hp ht hsign amountIn amountOut hcover hin hcompl hfee
  have hamount : amountOut < 2 ^ 256 := hcover.trans_lt (wantOf_lt hsign)
  rw [exec_swapstep_of_fits hp ht (swapNext_of_covered_out hp ht hsign hcover) hin hamount
    ((swapFee_of_second (.inl hsign) _).trans (secondFee_of_fits hcompl hin hfee)),
    capAmountOut_exactOut hsign, toNat_ofNat_of_lt hamount, Nat.min_eq_left hcover]

/-- Settles O53: what is short of the whole distance stops before the target
(`nextPriceFromInput_short`), and the remainder past the amount in is the fee. -/
theorem swapShortExactIn : Obligations.SwapShortExactIn := by
  intro s next hp ht hin _ hwhole hshort hexec amountIn amountOut hout
  obtain ⟨hnext, hne, hbetween, hamount⟩ := swapNext_of_nextin hp ht hin hwhole hshort hexec
  refine ⟨hne, ?_⟩
  rw [exec_swapstep_of_fits hp (ne_zero_of_betweenPrices hp ht hbetween) hnext hamount hout
    (swapFee_of_short hin hne _), capAmountOut_exactIn hin]

/-- Settles O54: the amounts are those of the next price whether or not that is the target
(`computeSwapStep_eq`), and the cap is the lesser of two numbers. -/
theorem swapShortExactOut : Obligations.SwapShortExactOut := by
  intro s next hp ht hsign hwhole hshort hexec amountIn amountOut hin hout hcompl hfee
  obtain ⟨hnext, hbetween, -⟩ := swapNext_of_nextout hp ht hsign hwhole hshort hexec
  rw [exec_swapstep_of_fits hp (ne_zero_of_betweenPrices hp ht hbetween) hnext hin hout
    ((swapFee_of_second (.inl hsign) _).trans (secondFee_of_fits hcompl hin hfee)),
    capAmountOut_exactOut hsign, toNat_ofNat_of_lt hout]

/-- Settles O55: within the bounds nothing a step calls has a fault, and the next price's amount in
is covered by the remainder less the fee. -/
theorem swapInBoundsIsSafe : Obligations.SwapInBoundsIsSafe := by
  intro s h
  obtain ⟨hp, ht⟩ := ne_zero_of_inBounds h
  obtain ⟨next, hnext⟩ := swapNext_of_inBounds h
  obtain ⟨fee, hfee, hconserved⟩ := swapFee_of_inBounds h hnext
  have hbetween := betweenPrices_of_swapNext hnext
  have hin := (stepIn_lt_of_inBounds h hbetween).trans (show 2 ^ 224 < 2 ^ 256 by decide)
  refine ⟨_, exec_swapstep_of_fits hp (ne_zero_of_betweenPrices hp ht hbetween) hnext hin
    (stepOut_lt_of_inBounds h hbetween) hfee, rfl, ?_⟩
  obtain ⟨hlow, hhigh⟩ := hbetween
  simp only [completed, BitVec.le_def, BitVec.lt_def, toNat_ofNat_of_lt hin]
  exact ⟨fun hdir => ⟨by omega, by omega⟩, fun hdir => ⟨by omega, by omega⟩, hconserved,
    fun hout => capAmountOut_le_wantOf hout _⟩

/-- Settles O56: short of the target the fee is the wrapped difference of the two. -/
theorem swapFeeConservation : Obligations.SwapFeeConservation := by
  intro s t h hstatus hin hne
  obtain ⟨amountOut, -, hfee, -⟩ := swapstep_of_status_ok h hstatus
  rw [swapFee_of_short hin hne, Except.ok.injEq] at hfee
  rw [← hfee, BitVec.add_comm, BitVec.sub_add_cancel]

/-- Settles O57: the next price of a step that succeeded lies between the two prices. -/
theorem swapDirectionAndCap : Obligations.SwapDirectionAndCap := by
  intro s t h hstatus
  obtain ⟨amountOut, hnext, -, hcap⟩ := swapstep_of_status_ok h hstatus
  obtain ⟨hlow, hhigh⟩ := betweenPrices_of_swapNext hnext
  simp only [BitVec.le_def, BitVec.lt_def]
  exact ⟨fun _ hdir => by omega, fun _ hdir => by omega,
    fun hout => hcap ▸ capAmountOut_le_wantOf hout amountOut⟩

/-- Settles O58: the functions a step calls fail in the order of R180, the deltas of the whole
distance, the next price, the amounts and the fee at it; the next price itself fails only at the
ceiling (`nextPriceFromInput_short`, `nextPriceFromOutput_short`). -/
theorem swapFaults : Obligations.SwapFaults := by
  intro s current target whole wholeOut priced
  refine ⟨fun hin => ⟨fun hbig => ?_, exec_swapstep_of_price_zero_in hin, fun hless ⟨hp, ht⟩ => ⟨
      exec_swapstep_of_whole_overflow hp ht hin hless, fun hcover hbig => ?_,
      fun hcover hfit hzero => exec_swapstep_of_zero_feeCompl hp ht hin hcover hfit hzero,
      exec_swapstep_of_ceiling hp ht hin,
      fun hshort hwhole next hexec hbig => ?_⟩⟩,
    fun hout => ⟨exec_swapstep_of_price_zero_out hout, fun ⟨hp, ht⟩ => ⟨fun hbig => ?_,
      fun hcover hbig => ?_, fun hcover hfit hfails => ?_,
      fun hshort hwhole next hexec hfails => ?_⟩⟩⟩
  · exact exec_swapstep_of_next_error (swapNext_of_lessFee_overflow hin hbig)
  · exact exec_swapstep_of_amountOut_overflow hp ht (swapNext_of_covered_in hp ht hin hless hcover)
      (hcover.trans_lt hless) hbig
  · obtain ⟨hnext, -, hbetween, hfit⟩ := swapNext_of_nextin hp ht hin hwhole hshort hexec
    exact exec_swapstep_of_amountOut_overflow hp (ne_zero_of_betweenPrices hp ht hbetween) hnext
      hfit hbig
  · exact exec_swapstep_of_next_error
      (swapNext_of_amountOut_error hout (swapAmountOut_of_not_fits ht hp hbig))
  · exact exec_swapstep_of_amountIn_overflow hp ht (swapNext_of_covered_out hp ht hout hcover) hbig
  · exact exec_swapstep_of_fee_fails hp ht (swapNext_of_covered_out hp ht hout hcover) hfit
      (hcover.trans_lt (wantOf_lt hout)) (.inl hout) hfails
  · obtain ⟨hnext, hbetween, hfit⟩ := swapNext_of_nextout hp ht hout hwhole hshort hexec
    exact exec_swapstep_of_fee_fails hp (ne_zero_of_betweenPrices hp ht hbetween) hnext hfit
      (stepOut_lt_of_betweenPrices hp ht hbetween hwhole) (.inl hout) hfails

end Sys2Proof.Machine
end

section
/-! ### Exceptions and reset

The row of faults of each command, its one exception, the effect of a fault, and reset
(60_exceptions.md sections 1 and 2; 70_reset_and_hazards.md section 1). -/

namespace Sys2Proof.Machine

open Sys2Proof.Safety

/-! #### The faults of a next price, by form -/

section
variable {price amount : U256} {l : U128} {site : Site}

/-- Adding token0 divides by 0 in two places, in the first path only without liquidity
(45_sqrt_price_math.md R140). -/
theorem nextFromAmount0_add_error_cases (h : nextFromAmount0 price l amount true = .error site) :
    (site = .muldivByZero ∧ l.toNat = 0) ∨ site = .amount0AddByZero := by
  by_cases ha : amount.toNat = 0
  · rw [nextFromAmount0_of_zero ha] at h
    cases h
  by_cases hfit : l.toNat * 2 ^ 96 + amount.toNat * price.toNat < 2 ^ 256
  · by_cases hsum : l.toNat * 2 ^ 96 + amount.toNat * price.toNat = 0
    · have hl : l.toNat * 2 ^ 96 = 0 := Nat.eq_zero_of_add_eq_zero_right hsum
      rw [nextFromAmount0_add_of_zero_sum ha hsum] at h
      cases h
      exact .inl ⟨rfl, by omega⟩
    · rw [nextFromAmount0_add_of_exact ha hsum hfit] at h
      cases h
  · obtain ⟨d, -, heq⟩ := nextFromAmount0_add_of_not_fits ha (Nat.le_of_not_lt hfit)
    exact .inr (List.mem_singleton.1 (divRoundingUp_raisesAmong _ _ _ site (heq ▸ h)))

/-- Removing token0 never divides by 0: the divisor is tested to be positive
(45_sqrt_price_math.md R140). -/
theorem nextFromAmount0_sub_raisesAmong :
    RaisesAmong [.amount0Removed, .muldivOverflow, .muldivruIncrement]
      (nextFromAmount0 price l amount false) := by
  by_cases ha : amount.toNat = 0
  · rw [nextFromAmount0_of_zero ha]
    exact .ok
  by_cases hlt : amount.toNat * price.toNat < l.toNat * 2 ^ 96
  · by_cases hfit : ceilQ (l.toNat * 2 ^ 96 * price.toNat)
        (l.toNat * 2 ^ 96 - amount.toNat * price.toNat) < 2 ^ 256
    · rw [nextFromAmount0_sub_of_exact ha hlt hfit]
      exact .ok
    · rw [nextFromAmount0_sub_of_overflow ha hlt (Nat.le_of_not_lt hfit)]
      split
      · exact .raise (by decide)
      · exact .raise (by decide)
  · rw [nextFromAmount0_sub_of_le ha (Nat.le_of_not_lt hlt)]
    exact .raise (by decide)

/-- Adding token1 divides by 0 only without liquidity, and with a wide amount that is MULDIV's
overflow (45_sqrt_price_math.md R141; 90_conflicts.md C3). -/
theorem nextFromAmount1_add_error_cases (h : nextFromAmount1 price l amount true = .error site) :
    (site = .amount1AddByZero ∧ l.toNat = 0) ∨ site = .muldivOverflow ∨ site = .amount1Ceiling := by
  by_cases hl : l.toNat = 0
  · by_cases hwide : 2 ^ 160 ≤ amount.toNat
    · rw [nextFromAmount1_add_of_zero_of_wide hl hwide] at h
      cases h
      exact .inr (.inl rfl)
    · rw [nextFromAmount1_add_of_error
        (amount1QuotientDown_of_zero hl (Nat.lt_of_not_le hwide))] at h
      cases h
      exact .inl ⟨rfl, hl⟩
  by_cases hfit : amount.toNat * 2 ^ 96 / l.toNat < 2 ^ 256
  · obtain ⟨q, -, heq⟩ := nextFromAmount1_add_of_quotient (price := price) hl hfit
    have hraise : RaisesAmong [.amount1Ceiling] (addPriceCeiling price q) :=
      .ite (.raise (by decide)) .ok
    exact .inr (.inr (List.mem_singleton.1 (hraise site (heq ▸ h))))
  · rw [nextFromAmount1_add_of_overflow hl (Nat.le_of_not_lt hfit)] at h
    cases h
    exact .inr (.inl rfl)

/-- Removing token1 never fails at MULDIVRU's increment, so its row's SITE `0x07` is an upper bound
(45_sqrt_price_math.md R141). -/
theorem nextFromAmount1_sub_error_cases (h : nextFromAmount1 price l amount false = .error site) :
    (site = .amount1SubByZero ∧ l.toNat = 0) ∨ site = .muldivOverflow ∨ site = .amount1Removed := by
  by_cases hl : l.toNat = 0
  · by_cases hwide : 2 ^ 160 ≤ amount.toNat
    · rw [nextFromAmount1_sub_of_zero_of_wide hl hwide] at h
      cases h
      exact .inr (.inl rfl)
    · rw [nextFromAmount1_sub_of_error
        (amount1QuotientUp_of_zero hl (Nat.lt_of_not_le hwide))] at h
      cases h
      exact .inl ⟨rfl, hl⟩
  by_cases hfit : ceilQ (amount.toNat * 2 ^ 96) l.toNat < 2 ^ 256
  · obtain ⟨q, -, heq⟩ := nextFromAmount1_sub_of_quotient (price := price) hl hfit
    have hraise : RaisesAmong [.amount1Removed] (subtractFromPrice price q) :=
      .ite (.raise (by decide)) .ok
    exact .inr (.inr (List.mem_singleton.1 (hraise site (heq ▸ h))))
  · rw [nextFromAmount1_sub_of_overflow hl (Nat.le_of_not_lt hfit)] at h
    cases h
    exact .inr (.inl rfl)

/-- What runs behind the two zero tests runs with liquidity (45_sqrt_price_math.md R138, R139). -/
theorem checkPriceLiquidity_bind_error_cases {f : Unit → Cmd U256}
    (h : (checkPriceLiquidity price l).bind f = .error site) :
    site = .nextPriceZero ∨ site = .nextLiquidityZero ∨ (l.toNat ≠ 0 ∧ f () = .error site) := by
  by_cases hp : price = 0#256
  · rw [checkPriceLiquidity_of_price_zero hp] at h
    cases h
    exact .inl rfl
  by_cases hl : l.toNat = 0
  · rw [checkPriceLiquidity_of_liquidity_zero hp hl] at h
    cases h
    exact .inr (.inl rfl)
  · rw [checkPriceLiquidity_of_priced hp hl] at h
    exact .inr (.inr ⟨hl, h⟩)

end

/-! #### The faults of an amount -/

section
variable {a b r : U256} {l : U128} {up : Bool} {site : Site}

/-- Neither division of AMT0 can fail: the amount always fits (45_sqrt_price_math.md R143). -/
theorem amount0Delta_raisesPriceZero : RaisesAmong [.delta0PriceZero] (amount0Delta a b l up) := by
  by_cases hzero : a.toNat = 0 ∨ b.toNat = 0
  · rw [amount0Delta_of_price_zero hzero]
    exact .raise (by decide)
  · obtain ⟨ha, hb⟩ := not_or.1 hzero
    rw [amount0Delta_of_priced ha hb]
    exact .ok

theorem signedAmount0Delta_raisesPriceZero (delta : I128) :
    RaisesAmong [.delta0PriceZero] (signedAmount0Delta a b delta) :=
  .ite (.map amount0Delta_raisesPriceZero) amount0Delta_raisesPriceZero

/-- AMT1 fails at the increment only where it rounds up and only the ceiling overflows (log 35). -/
theorem amount1Delta_error_cases (h : amount1Delta a b l up = .error site) :
    site = .delta1PriceZero ∨ site = .muldivOverflow ∨
      (site = .muldivruIncrement ∧ up = true ∧ onlyCeilingOverflows a.toNat b.toNat l.toNat) := by
  by_cases hzero : a.toNat = 0 ∨ b.toNat = 0
  · rw [amount1Delta_of_price_zero hzero] at h
    cases h
    exact .inl rfl
  obtain ⟨ha, hb⟩ := not_or.1 hzero
  by_cases hfloor : amount1 false a.toNat b.toNat l.toNat < 2 ^ 256
  · by_cases hfit : amount1 up a.toNat b.toNat l.toNat < 2 ^ 256
    · rw [amount1Delta_of_fits ha hb hfit] at h
      cases h
    · cases up with
      | false => exact absurd hfloor hfit
      | true =>
        have hceil := Nat.le_of_not_lt hfit
        rw [amount1Delta_of_ceil_overflow ha hb hfloor hceil] at h
        cases h
        exact .inr (.inr ⟨rfl, rfl, hfloor, hceil⟩)
  · rw [amount1Delta_of_floor_overflow ha hb (Nat.le_of_not_lt hfloor)] at h
    cases h
    exact .inr (.inl rfl)

/-- SAMT1 rounds up a change that is not negative, so only there can the increment fail (log 35). -/
theorem signedAmount1Delta_error_cases (h : signedAmount1Delta a b (low128 r) = .error site) :
    site = .delta1PriceZero ∨ site = .muldivOverflow ∨
      (site = .muldivruIncrement ∧ 0 ≤ deltaOf r ∧
        onlyCeilingOverflows a.toNat b.toNat (deltaOf r).natAbs) := by
  by_cases hsign : 0 ≤ deltaOf r
  · rw [signedAmount1Delta_of_nonneg hsign] at h
    rw [← (low128_toNat_of_nonneg hsign).2]
    exact (amount1Delta_error_cases h).imp_right (Or.imp_right fun ⟨hsite, _, hover⟩ =>
      ⟨hsite, hsign, hover⟩)
  · rw [signedAmount1Delta_of_neg hsign] at h
    obtain hsite | hsite | ⟨-, hup, -⟩ := amount1Delta_error_cases (cmd_map_eq_error.1 h)
    · exact .inl hsite
    · exact .inr (.inl hsite)
    · cases hup

end

/-! #### The rows of R194 -/

section
variable {price amount : U256} {l : U128} {site : Site}

/-- Sites whose STATUS words are in a row keep what raises only them in the row. -/
theorem RaisesAmong.statusFault_mem {α : Type} {sites : List Site} {r : Cmd α} {faults : List U32}
    (hr : RaisesAmong sites r) (hrow : ∀ site ∈ sites, statusFault site ∈ faults)
    (h : r = .error site) : statusFault site ∈ faults := hrow site (hr site h)

theorem nextFromAmount0_fault_mem_row {add : Bool}
    (h : nextFromAmount0 price l amount add = .error site) :
    statusFault site ∈ allowedFaults (.nexta0 add) := by
  cases add with
  | false => exact nextFromAmount0_sub_raisesAmong.statusFault_mem (by decide) h
  | true =>
    obtain ⟨rfl, -⟩ | rfl := nextFromAmount0_add_error_cases h <;> decide

theorem nextFromAmount1_fault_mem_row {add : Bool}
    (h : nextFromAmount1 price l amount add = .error site) :
    statusFault site ∈ allowedFaults (.nexta1 add) := by
  cases add with
  | false =>
    obtain ⟨rfl, -⟩ | rfl | rfl := nextFromAmount1_sub_error_cases h <;> decide
  | true =>
    obtain ⟨rfl, -⟩ | rfl | rfl := nextFromAmount1_add_error_cases h <;> decide

/-- NEXTIN has liquidity past its tests, so no division by a liquidity of 0 is in its row. -/
theorem nextPriceFromInput_fault_mem_row {zeroForOne : Bool}
    (h : nextPriceFromInput price l amount zeroForOne = .error site) :
    statusFault site ∈ allowedFaults (.nextin zeroForOne) := by
  obtain rfl | rfl | ⟨hl, hbody⟩ := checkPriceLiquidity_bind_error_cases h
  · cases zeroForOne <;> decide
  · cases zeroForOne <;> decide
  · cases zeroForOne with
    | false =>
      obtain ⟨-, hzero⟩ | rfl | rfl := nextFromAmount1_add_error_cases hbody
      · exact absurd hzero hl
      · decide
      · decide
    | true =>
      obtain ⟨-, hzero⟩ | rfl := nextFromAmount0_add_error_cases hbody
      · exact absurd hzero hl
      · decide

/-- NEXTOUT likewise, so SITE `0x05` and SITE `0x12` are not in its row. -/
theorem nextPriceFromOutput_fault_mem_row {zeroForOne : Bool}
    (h : nextPriceFromOutput price l amount zeroForOne = .error site) :
    statusFault site ∈ allowedFaults (.nextout zeroForOne) := by
  obtain rfl | rfl | ⟨hl, hbody⟩ := checkPriceLiquidity_bind_error_cases h
  · cases zeroForOne <;> decide
  · cases zeroForOne <;> decide
  · cases zeroForOne with
    | false => exact nextFromAmount0_sub_raisesAmong.statusFault_mem (by decide) hbody
    | true =>
      obtain ⟨-, hzero⟩ | rfl | rfl := nextFromAmount1_sub_error_cases hbody
      · exact absurd hzero hl
      · decide
      · decide

end

/-- A command fails within its row, or at the increment of AMT1 rounding up or of SAMT1
(60_exceptions.md R194; log 35). For most commands every site of the functions they call is in the
row; the others rule some out. -/
theorem commandOutcome_error_cases {i : Instr} {s : State} {site : Site}
    (h : commandOutcome i s = .error site) :
    statusFault site ∈ allowedFaults i ∨ (site = .muldivruIncrement ∧ raisesPastRow i s) := by
  cases i with
  | nextin m => exact .inl (nextPriceFromInput_fault_mem_row (cmd_map_eq_error.1 h))
  | nextout m => exact .inl (nextPriceFromOutput_fault_mem_row (cmd_map_eq_error.1 h))
  | nexta0 m => exact .inl (nextFromAmount0_fault_mem_row (cmd_map_eq_error.1 h))
  | nexta1 m => exact .inl (nextFromAmount1_fault_mem_row (cmd_map_eq_error.1 h))
  | amt0 up =>
    exact .inl (amount0Delta_raisesPriceZero.statusFault_mem (by cases up <;> decide)
      (cmd_map_eq_error.1 h))
  | samt0 =>
    exact .inl ((signedAmount0Delta_raisesPriceZero _).statusFault_mem (by decide)
      (cmd_map_eq_error.1 h))
  | amt1 up =>
    obtain rfl | rfl | ⟨hsite, rfl, hover⟩ := amount1Delta_error_cases (cmd_map_eq_error.1 h)
    · exact .inl (by cases up <;> decide)
    · exact .inl (by cases up <;> decide)
    · rw [low128_toNat] at hover
      exact .inr ⟨hsite, .inl ⟨rfl, hover⟩⟩
  | samt1 =>
    obtain rfl | rfl | ⟨hsite, hover⟩ := signedAmount1Delta_error_cases (cmd_map_eq_error.1 h)
    · exact .inl (by decide)
    · exact .inl (by decide)
    · exact .inr ⟨hsite, .inr ⟨rfl, hover⟩⟩
  | swapstep => exact .inl ((computeSwapStep_raisesReachable s).statusFault_mem (by decide) h)
  | nextinit lte =>
    exact .inl ((commandOutcome_raisesAmong _ s).statusFault_mem (by cases lte <;> decide) h)
  | _ => exact .inl ((commandOutcome_raisesAmong _ s).statusFault_mem (by decide) h)

end Sys2Proof.Machine

/-! ### The obligations of 60_exceptions.md, 70_reset_and_hazards.md and 30_encoding.md -/

namespace Sys2Proof.Machine

open Sys2Proof.Safety

/-- Settles O15: a command that does not succeed takes its fault, on the state with at most one
answer of the port spent. -/
theorem faultIsAtomic : Obligations.FaultIsAtomic := by
  intro i s t h hstatus
  obtain ⟨u, hu, rfl⟩ := exec_cases h
  cases hout : commandOutcome i s with
  | ok out =>
    rw [hout, finish_ok, succeed_status] at hstatus
    exact absurd statusOk_eq hstatus
  | error site =>
    refine ⟨statusFault_mem_commandFaults (commandOutcome_raisesLegal i s site hout), ?_⟩
    obtain rfl | ⟨-, rfl⟩ := hu
    · rfl
    · rfl

/-- Settles O16: STATUS is that of the outcome, which fails only within the row or past it
(`commandOutcome_error_cases`). -/
theorem faultsWithinRowOrAmount1Ceiling : Obligations.FaultsWithinRowOrAmount1Ceiling := by
  intro i s t h
  obtain ⟨u, -, rfl⟩ := exec_cases h
  cases hout : commandOutcome i s with
  | ok out => exact .inl statusOk_eq
  | error site =>
    obtain hrow | ⟨rfl, hpast⟩ := commandOutcome_error_cases hout
    · exact .inr (.inl hrow)
    · exact .inr (.inr ⟨by rw [finish_error, fail_status]; decide, hpast⟩)

/-- Settles O11: the reset event writes the eleven registers and nothing else
(`resetRegisters`). -/
theorem resetEventClearsRegisters : Obligations.ResetEventClearsRegisters := by
  intro s rest hp
  rw [step_cons hp]
  rfl

/-- Settles O12: each row of the register file, read in the reset state. -/
theorem resetStateRegistersAreZero : Obligations.ResetStateRegistersAreZero := by
  unfold Obligations.ResetStateRegistersAreZero
  decide

/-- Settles O4: nine of the words are encodings, one has no assigned opcode, and one has the
modifier bit on a command that takes none. -/
theorem decodeSamples : Obligations.DecodeSamples :=
  ⟨decode_encode .msb, decode_encode .divru, decode_encode .muldiv, decode_encode .tick2sqrt,
    decode_encode (.amt0 true), decode_encode (.nextout false), decode_encode (.nextinit true),
    decode_encode .adddelta, decode_encode .swapstep, decode_of_unassigned (by decide),
    decode_of_reserved (by decide) (by decide)⟩

end Sys2Proof.Machine
end
